-- ==== Sys2Proof/Config.lean ====
section
/-! DEFINITION. The implementation parameters of CTIDC, each under the name and with the value of 00_scope.md R9
(`LAYOUT`, the descriptor lists, is a constant of the same kind, in Machine/Layout.lean). -/

namespace Sys2Proof.Config

/-- `XLEN`: the width of an x register, which `Word` takes (92_eei_decisions.md D3). -/
abbrev xlen : Nat := 64

/-- `NX`: the number of x registers. -/
abbrev nx : Nat := 16

/-- `NFID`: the number of table-file entries. -/
abbrev nfid : Nat := 37

/-- `TB_CAP`: the capacity of the table buffer in bytes. -/
abbrev tbCap : Nat := 64

/-- `SB_CAP`: the capacity of the stream buffer in bytes. -/
abbrev sbCap : Nat := 80

/-- `MAXV`: the highest marshalled table version. -/
abbrev maxv : Nat := 5

/-- `BODYLEN(v)`: the table bytes before the CRC, for a version of 1 or more (R9; 42_crc_framing.md R150). -/
def bodyLen (v : Nat) : Nat :=
  if v = 1 then 30 else if v ≤ 3 then 33 else 43

/-- `CRCW(v)`: the width of the CRC in bytes (R9; 42_crc_framing.md R150). -/
def crcw (v : Nat) : Nat :=
  if v = 1 then 1 else 2

/-- `FRAMELEN(v)` = `BODYLEN(v) + CRCW(v)`: 31, 35 or 45. -/
def frameLen (v : Nat) : Nat := bodyLen v + crcw v

/-- `START_BYTE`: the start-symbol byte. -/
abbrev startByte : BitVec 8 := 0xFF

/-- `STUFF_RUN`: the run of 1-bits after which a 0 is stuffed. -/
abbrev stuffRun : Nat := 7

/-- `RoundTie`: the tie rule of rounding to the nearest integer, half-to-even (92_eei_decisions.md D5). Of `q` and `q + 1`, equally
near, it takes `q + 1` where this is true: where `q` is odd. -/
def roundTie (q : Int) : Bool := decide (q % 2 ≠ 0)

/-- `F12_MAX`: the largest value float12 encodes, 10^7. -/
abbrev f12Max : Nat := 10000000

/-- `CLK_NOM_HZ`: the nominal bit clock in Hz. -/
abbrev clkNomHz : Nat := 480

/-- `CLK_TOL` = 1/2, the clock tolerance: its numerator. -/
abbrev clkTolNum : Nat := 1

/-- The denominator of `CLK_TOL`. -/
abbrev clkTolDen : Nat := 2

/-- The slowest legal bit clock in Hz, `CLK_NOM_HZ / (1 + CLK_TOL)` = 320: its period is the longest
(44_waveform_decoder.md R219). -/
abbrev slowHz : Nat := clkNomHz * clkTolDen / (clkTolDen + clkTolNum)

/-- The fastest legal bit clock in Hz, `CLK_NOM_HZ / (1 - CLK_TOL)` = 960 (44_waveform_decoder.md R219). -/
abbrev fastHz : Nat := clkNomHz * clkTolDen / (clkTolDen - clkTolNum)

/-- `START_ZC`: the zero-crossings in the start symbol. -/
abbrev startZc : Nat := 16

/-- The bit cells of the start symbol, two crossings each (44_waveform_decoder.md R225). -/
abbrev startCells : Nat := 8

/-- `LOCKLOSS_PERIODS`: the periods without an edge before lock is lost. -/
abbrev locklossPeriods : Nat := 4

/-- `QUIET_PERIODS`: the quiet interval before the start symbol, in recovered periods. -/
abbrev quietPeriods : Nat := 1

/-- `TOL_DIV`: the tolerance is `period div TOL_DIV` or … -/
abbrev tolDiv : Nat := 4

/-- … `TOL_TS` = 6/5 sample periods, whichever is larger: its numerator. -/
abbrev tolTsNum : Nat := 6

/-- The denominator of `TOL_TS`. -/
abbrev tolTsDen : Nat := 5

/-- `W_MAX`: the largest sample window in samples. -/
abbrev wMax : Nat := 4096

/-- `ROM_WORDS`: the size of the layout ROM in descriptor words. -/
abbrev romWords : Nat := 128

/-- The constant system register `ID`: "CTID" and the revision 1 (10_state.md R43). -/
abbrev idWord : BitVec xlen := 0x4354494400000001

/-- The constant system register `CFG`: the capacities (10_state.md R43). -/
abbrev cfgWord : BitVec xlen := 0x0000025510005040

end Sys2Proof.Config
end

