-- ==== Sys2Proof/Word.lean ====
section
/-! DEFINITION. The words of CTIDC: a byte, an x register, a command word. -/

namespace Sys2Proof

/-- A byte is 8 bits (20_memory.md R50). -/
abbrev Byte := BitVec 8

/-- An x register, a table-file entry, an error datum: an untyped word of `XLEN` bits (00_scope.md R9; 10_state.md R21, R30). -/
abbrev Word := BitVec Config.xlen

/-- A command word, and a descriptor word of the layout ROM (30_encoding.md R70, R74). -/
abbrev Word32 := BitVec 32

end Sys2Proof
end

