-- ==== Sys2Proof/Machine/Bits.lean ====
section
/-! DEFINITION. Bit patterns and exact arithmetic: two's complement (00_scope.md R10), rounding (R12), bit strings with the
most significant bit first (20_memory.md R51, R52). -/

namespace Sys2Proof.Machine

/-- `sx(r, W)`: the integer a `W`-bit pattern `r` stands for in two's complement (00_scope.md R10). -/
def sx (r w : Nat) : Int :=
  if 2 ^ (w - 1) ≤ r then (r : Int) - 2 ^ w else r

/-- `raw(n, W)`: the `W`-bit two's complement pattern of `n`, that is `n mod 2^W` (00_scope.md R10). -/
def raw (n : Int) (w : Nat) : Nat := (n % 2 ^ w).toNat

/-- `ceil(a/b)` for `b > 0` (00_scope.md R11). -/
def ceilDiv (a b : Nat) : Nat := (a + (b - 1)) / b

/-- `roundTie(n / d)` for `d > 0`: the nearest integer; of two equally near the one the parameter `RoundTie` names, the
even one (00_scope.md R9, R12). -/
def roundTie (n : Int) (d : Nat) : Int :=
  let q := n / (d : Int)
  let r := n % (d : Int)
  if 2 * r < d then q
  else if (d : Int) < 2 * r then q + 1
  else if Config.roundTie q then q + 1 else q

/-- `roundTie(m × 10^k / d)` for an integer exponent `k` of either sign: exact, whatever `k` (00_scope.md R11, R12). -/
def roundTie10 (m k : Int) (d : Nat) : Int :=
  if 0 ≤ k then roundTie (m * 10 ^ k.toNat) d else roundTie m (d * 10 ^ (-k).toNat)

/-- The `n`-bit pattern of `r`, most significant bit first (20_memory.md R52). -/
def bitsOf : Nat → Nat → List Bool
  | 0, _ => []
  | n + 1, r => r.testBit n :: bitsOf n r

/-- The unsigned integer of a bit string, most significant bit first, after the bits already in `acc`. -/
def bitsValFrom (acc : Nat) : List Bool → Nat
  | [] => acc
  | b :: bs => bitsValFrom (2 * acc + b.toNat) bs

/-- The unsigned integer of a bit string, most significant bit first (20_memory.md R52). -/
def bitsVal (bs : List Bool) : Nat := bitsValFrom 0 bs

/-- The bits of a byte string, bit 7 of the first byte first (20_memory.md R51). -/
def bitsOfBytes (bs : List Byte) : List Bool :=
  bs.flatMap fun b => bitsOf 8 b.toNat

/-- The whole bytes of a bit string, the first bit in bit 7 of the first byte; fewer than 8 bits at the end make no byte. -/
def bytesOfBits : List Bool → List Byte
  | b7 :: b6 :: b5 :: b4 :: b3 :: b2 :: b1 :: b0 :: rest =>
    BitVec.ofNat 8 (bitsVal [b7, b6, b5, b4, b3, b2, b1, b0]) :: bytesOfBits rest
  | _ => []

/-- The zero bits that fill a bit string to a whole number of bytes. -/
def padTo8 (bs : List Bool) : List Bool :=
  bs ++ List.replicate ((8 - bs.length % 8) % 8) false

end Sys2Proof.Machine
end

