-- ==== Sys2Proof/Syntax.lean ====
section
/-! DEFINITION. The commands of CTIDC: one constructor per row of spec/opcode_table.json (30_encoding.md R72), its operands in
the order RD, RA, RB, then the sub-fields of IMM (R73). -/

namespace Sys2Proof

/-- An x register's number, 0 to 15 (30_encoding.md R73). -/
abbrev Reg := Fin Config.nx

/-- The buffer a buffer command selects with bit `b` = IMM[11]: 0 is `TB`, 1 is `SB` (45_system_and_buffer.md R263). -/
inductive Buf where
  | tb
  | sb
deriving DecidableEq, Repr

/-- A command. Immediates are the numbers they stand for; `wellFormed` says which an encoding can hold. -/
inductive Instr where
  /-- NOP (R255) -/
  | nop
  /-- CLRERR (R256) -/
  | clrerr
  /-- SRST (R257) -/
  | srst
  /-- LI rd, simm12 (R258) -/
  | li (rd : Reg) (simm : Int)
  /-- MKDEC rd, ra, e8 (R259) -/
  | mkdec (rd ra : Reg) (e : Int)
  /-- RDSR rd, sr (R261) -/
  | rdsr (rd : Reg) (sr : Nat)
  /-- WRSR sr, ra (R262) -/
  | wrsr (ra : Reg) (sr : Nat)
  /-- CLRB buf (R264) -/
  | clrb (b : Buf)
  /-- PUSHB buf, ra (R265) -/
  | pushb (ra : Reg) (b : Buf)
  /-- LDB rd, buf, off(ra) (R266) -/
  | ldb (rd ra : Reg) (b : Buf) (off : Nat)
  /-- STB rb, buf, off(ra) (R267): `rb` is the data, `ra` the index base -/
  | stb (ra rb : Reg) (b : Buf) (off : Nat)
  /-- LENB rd, buf (R268) -/
  | lenb (rd : Reg) (b : Buf)
  /-- FIX rd, ra, rb, bits, u|s (R103): `ra` value, `rb` scale -/
  | fix (rd ra rb : Reg) (bits : Nat) (sg : Bool)
  /-- UNFIX rd, ra, rb, bits, u|s (R105): `ra` raw field, `rb` scale -/
  | unfix (rd ra rb : Reg) (bits : Nat) (sg : Bool)
  /-- F12ENC rd, ra (R108) -/
  | f12enc (rd ra : Reg)
  /-- F12DEC rd, ra (R110) -/
  | f12dec (rd ra : Reg)
  /-- D16ENC rd, ra (R113) -/
  | d16enc (rd ra : Reg)
  /-- D16DEC rd, ra (R116) -/
  | d16dec (rd ra : Reg)
  /-- S10 rd, ra (R118) -/
  | s10 (rd ra : Reg)
  /-- QPACK rd, ra (R121) -/
  | qpack (rd ra : Reg)
  /-- QUNPACK rd, ra (R122) -/
  | qunpack (rd ra : Reg)
  /-- STUFF (R133) -/
  | stuff
  /-- UNSTUFF (R137) -/
  | unstuff
  /-- CRC8 rd, ra (R148) -/
  | crc8 (rd ra : Reg)
  /-- CRC16 rd, ra (R149) -/
  | crc16 (rd ra : Reg)
  /-- FRGEN (R152) -/
  | frgen
  /-- FRCHK (R154) -/
  | frchk
  /-- ENCODE v (R196) -/
  | encode (v : Nat)
  /-- DECODE (R203) -/
  | decode
  /-- TGET rd, fid (R207) -/
  | tget (rd : Reg) (fid : Nat)
  /-- TSET fid, ra (R208) -/
  | tset (ra : Reg) (fid : Nat)
  /-- TDEF (R209) -/
  | tdef
  /-- WDINIT ra, rb (R218): `ra` = fs, `rb` = tps -/
  | wdinit (ra rb : Reg)
  /-- WDSAMP rd, ra, rb (R221): `ra` timestamp, `rb` amplitude -/
  | wdsamp (rd ra rb : Reg)
  /-- WDGETB rd (R242) -/
  | wdgetb (rd : Reg)
deriving DecidableEq, Repr

end Sys2Proof
end

