-- ==== Sys2Proof/WellFormed.lean ====
section
/-! DEFINITION. Which commands an encoding can hold: each immediate within the range of its sub-field of IMM
(30_encoding.md R73). A value in range but outside the command's domain (`bits` = 0, `fid` = 40) is well formed: it raises
IllegalOperand when the command runs (R71). -/

namespace Sys2Proof

/-- Every immediate is in the range of its field (30_encoding.md R73). -/
def Instr.wellFormed : Instr → Bool
  | .li _ simm => decide (-2048 ≤ simm ∧ simm ≤ 2047)
  | .mkdec _ _ e => decide (-128 ≤ e ∧ e ≤ 127)
  | .rdsr _ sr | .wrsr _ sr => decide (sr < 4096)
  | .ldb _ _ _ off | .stb _ _ _ off => decide (off < 256)
  | .fix _ _ _ bits _ | .unfix _ _ _ bits _ => decide (bits < 64)
  | .encode v => decide (v < 256)
  | .tget _ fid | .tset _ fid => decide (fid < 64)
  | .nop | .clrerr | .srst | .clrb _ | .pushb _ _ | .lenb _ _ | .f12enc _ _ | .f12dec _ _ | .d16enc _ _
  | .d16dec _ _ | .s10 _ _ | .qpack _ _ | .qunpack _ _ | .stuff | .unstuff | .crc8 _ _ | .crc16 _ _ | .frgen
  | .frchk | .decode | .tdef | .wdinit _ _ | .wdsamp _ _ _ | .wdgetb _ => true

end Sys2Proof
end

