-- ==== Sys2Proof/Decode.lean ====
section
/-! DEFINITION. Command words: the decoder, total on 32-bit words and refusing by name, then the encoder
(30_encoding.md R70 to R73). -/

namespace Sys2Proof

open Machine (sx raw)

/-- Why a word is no command (30_encoding.md R71); the machine raises IllegalCommand for either (60_exceptions.md R288). -/
inductive DecodeError where
  /-- the OP field is not in the opcode map of R72 -/
  | undefinedOpcode
  /-- a field or a sub-field of IMM that the command does not use is not zero -/
  | unusedNonzero
deriving DecidableEq, Repr

/-- The fields of a command word (30_encoding.md R70). -/
structure Fields where
  op : Nat
  rd : Reg
  ra : Reg
  rb : Reg
  imm : Nat
deriving DecidableEq, Repr

/-- A register number from a 4-bit field. -/
def regOf (n : Nat) : Reg := ⟨n % 16, Nat.mod_lt n (by decide)⟩

/-- OP [7:0], RD [11:8], RA [15:12], RB [19:16], IMM [31:20] (30_encoding.md R70). -/
def Fields.ofWord (w : Word32) : Fields :=
  { op := w.toNat % 256, rd := regOf (w.toNat / 256), ra := regOf (w.toNat / 4096), rb := regOf (w.toNat / 65536)
    imm := w.toNat / 1048576 }

/-- The command `i`, when every field listed as unused is zero (30_encoding.md R71). -/
def unused (fields : List Nat) (i : Instr) : Except DecodeError Instr :=
  if fields.all (· == 0) then .ok i else .error .unusedNonzero

/-- The buffer that bit `b` selects (45_system_and_buffer.md R263). -/
def bufOf (b : Nat) : Buf := if b = 0 then .tb else .sb

/-- The command of the fields: the rows of 30_encoding.md R72 with the sub-fields of R73. -/
def decodeFields (f : Fields) : Except DecodeError Instr :=
  match f.op with
  | 0x00 => unused [f.rd, f.ra, f.rb, f.imm] .nop
  | 0x01 => unused [f.rd, f.ra, f.rb, f.imm] .clrerr
  | 0x02 => unused [f.rd, f.ra, f.rb, f.imm] .srst
  | 0x03 => unused [f.ra, f.rb] (.li f.rd (sx f.imm 12))
  | 0x04 => unused [f.rb, f.imm / 256] (.mkdec f.rd f.ra (sx (f.imm % 256) 8))
  | 0x05 => unused [f.ra, f.rb] (.rdsr f.rd f.imm)
  | 0x06 => unused [f.rd, f.rb] (.wrsr f.ra f.imm)
  | 0x10 => unused [f.rd, f.ra, f.rb, f.imm % 2048] (.clrb (bufOf (f.imm / 2048)))
  | 0x11 => unused [f.rd, f.rb, f.imm % 2048] (.pushb f.ra (bufOf (f.imm / 2048)))
  | 0x12 => unused [f.rb, f.imm / 256 % 8] (.ldb f.rd f.ra (bufOf (f.imm / 2048)) (f.imm % 256))
  | 0x13 => unused [f.rd, f.imm / 256 % 8] (.stb f.ra f.rb (bufOf (f.imm / 2048)) (f.imm % 256))
  | 0x14 => unused [f.ra, f.rb, f.imm % 2048] (.lenb f.rd (bufOf (f.imm / 2048)))
  | 0x20 => unused [f.imm / 128] (.fix f.rd f.ra f.rb (f.imm % 64) (decide (f.imm / 64 % 2 = 1)))
  | 0x21 => unused [f.imm / 128] (.unfix f.rd f.ra f.rb (f.imm % 64) (decide (f.imm / 64 % 2 = 1)))
  | 0x22 => unused [f.rb, f.imm] (.f12enc f.rd f.ra)
  | 0x23 => unused [f.rb, f.imm] (.f12dec f.rd f.ra)
  | 0x24 => unused [f.rb, f.imm] (.d16enc f.rd f.ra)
  | 0x25 => unused [f.rb, f.imm] (.d16dec f.rd f.ra)
  | 0x26 => unused [f.rb, f.imm] (.s10 f.rd f.ra)
  | 0x27 => unused [f.rb, f.imm] (.qpack f.rd f.ra)
  | 0x28 => unused [f.rb, f.imm] (.qunpack f.rd f.ra)
  | 0x30 => unused [f.rd, f.ra, f.rb, f.imm] .stuff
  | 0x31 => unused [f.rd, f.ra, f.rb, f.imm] .unstuff
  | 0x38 => unused [f.rb, f.imm] (.crc8 f.rd f.ra)
  | 0x39 => unused [f.rb, f.imm] (.crc16 f.rd f.ra)
  | 0x3A => unused [f.rd, f.ra, f.rb, f.imm] .frgen
  | 0x3B => unused [f.rd, f.ra, f.rb, f.imm] .frchk
  | 0x40 => unused [f.rd, f.ra, f.rb, f.imm / 256] (.encode (f.imm % 256))
  | 0x41 => unused [f.rd, f.ra, f.rb, f.imm] .decode
  | 0x42 => unused [f.ra, f.rb, f.imm / 64] (.tget f.rd (f.imm % 64))
  | 0x43 => unused [f.rd, f.rb, f.imm / 64] (.tset f.ra (f.imm % 64))
  | 0x44 => unused [f.rd, f.ra, f.rb, f.imm] .tdef
  | 0x50 => unused [f.rd, f.imm] (.wdinit f.ra f.rb)
  | 0x51 => unused [f.imm] (.wdsamp f.rd f.ra f.rb)
  | 0x52 => unused [f.ra, f.rb, f.imm] (.wdgetb f.rd)
  | _ => .error .undefinedOpcode

/-- The command a word stands for, or why it is none (30_encoding.md R70 to R73). -/
def decode (w : Word32) : Except DecodeError Instr := decodeFields (.ofWord w)

/-- The opcode of a command (30_encoding.md R72). -/
def opcode : Instr → Nat
  | .nop => 0x00 | .clrerr => 0x01 | .srst => 0x02 | .li .. => 0x03 | .mkdec .. => 0x04 | .rdsr .. => 0x05 | .wrsr .. => 0x06
  | .clrb .. => 0x10 | .pushb .. => 0x11 | .ldb .. => 0x12 | .stb .. => 0x13 | .lenb .. => 0x14
  | .fix .. => 0x20 | .unfix .. => 0x21 | .f12enc .. => 0x22 | .f12dec .. => 0x23 | .d16enc .. => 0x24 | .d16dec .. => 0x25
  | .s10 .. => 0x26 | .qpack .. => 0x27 | .qunpack .. => 0x28
  | .stuff => 0x30 | .unstuff => 0x31 | .crc8 .. => 0x38 | .crc16 .. => 0x39 | .frgen => 0x3A | .frchk => 0x3B
  | .encode .. => 0x40 | .decode => 0x41 | .tget .. => 0x42 | .tset .. => 0x43 | .tdef => 0x44
  | .wdinit .. => 0x50 | .wdsamp .. => 0x51 | .wdgetb .. => 0x52

/-- The word with the fields RD, RA, RB and IMM beside an opcode (30_encoding.md R70). -/
def cmdWord (op : Nat) (rd ra rb : Reg) (imm : Nat) : Word32 :=
  BitVec.ofNat 32 (op + 256 * rd.val + 4096 * ra.val + 65536 * rb.val + 1048576 * imm)

/-- The bit that selects a buffer, in place as IMM[11] (30_encoding.md R73). -/
def bufBit : Buf → Nat
  | .tb => 0
  | .sb => 2048

/-- The bits `sg` = IMM[6] and `bits` = IMM[5:0] of FIX and UNFIX (30_encoding.md R73). -/
def fixImm (bits : Nat) (sg : Bool) : Nat := bits + 64 * sg.toNat

/-- The word of a well-formed command: unused fields are zero (30_encoding.md R70 to R73). -/
def encode (i : Instr) : Word32 :=
  match i with
  | .nop | .clrerr | .srst | .stuff | .unstuff | .frgen | .frchk | .decode | .tdef => cmdWord (opcode i) 0 0 0 0
  | .li rd simm => cmdWord (opcode i) rd 0 0 (raw simm 12)
  | .mkdec rd ra e => cmdWord (opcode i) rd ra 0 (raw e 8)
  | .rdsr rd sr => cmdWord (opcode i) rd 0 0 sr
  | .wrsr ra sr => cmdWord (opcode i) 0 ra 0 sr
  | .clrb b => cmdWord (opcode i) 0 0 0 (bufBit b)
  | .pushb ra b => cmdWord (opcode i) 0 ra 0 (bufBit b)
  | .ldb rd ra b off => cmdWord (opcode i) rd ra 0 (bufBit b + off)
  | .stb ra rb b off => cmdWord (opcode i) 0 ra rb (bufBit b + off)
  | .lenb rd b => cmdWord (opcode i) rd 0 0 (bufBit b)
  | .fix rd ra rb bits sg | .unfix rd ra rb bits sg => cmdWord (opcode i) rd ra rb (fixImm bits sg)
  | .f12enc rd ra | .f12dec rd ra | .d16enc rd ra | .d16dec rd ra | .s10 rd ra | .qpack rd ra | .qunpack rd ra
  | .crc8 rd ra | .crc16 rd ra => cmdWord (opcode i) rd ra 0 0
  | .encode v => cmdWord (opcode i) 0 0 0 v
  | .tget rd fid => cmdWord (opcode i) rd 0 0 fid
  | .tset ra fid => cmdWord (opcode i) 0 ra 0 fid
  | .wdinit ra rb => cmdWord (opcode i) 0 ra rb 0
  | .wdsamp rd ra rb => cmdWord (opcode i) rd ra rb 0
  | .wdgetb rd => cmdWord (opcode i) rd 0 0 0

/-- The command the decoder reads from a table row's `nbits` low bits of `w`, every higher bit 0. Command words are not stored:
the host presents all 32 bits at the command port (10_state.md R24). -/
def decodeTableWord (nbits w : Nat) : Option Instr :=
  match decode (BitVec.ofNat 32 (w % 2 ^ nbits)) with
  | .ok i => some i
  | .error _ => none

end Sys2Proof
end

