-- ==== Sys2Proof/Machine/State.lean ====
section
/-! DEFINITION. The state of CTIDC as plain data (10_state.md R20 to R39), its reset value (R42), and the reasons a step can
stop. -/

namespace Sys2Proof.Machine

/-- A byte buffer's contents: (index, byte) cells in one canonical form, indices strictly rising and no zero byte listed; an
index that is not listed reads 0, the contents of R42 at reset. -/
abbrev Memory := List Host.Cell

/-- A byte buffer with its current length (10_state.md R33): `TB` with `TBLEN`, `SB` with `SBLEN`. -/
structure Buffer where
  mem : Memory
  len : Nat
deriving DecidableEq, Repr

/-- The fields of the STATUS register (10_state.md R27) but for `WDLOCK`, which is `Wd.mode`. -/
structure Status where
  /-- bit 0: a command executes; 0 in every state between commands -/
  busy : Bool
  /-- bit 1: a command raised an error; sticky -/
  err : Bool
  /-- bits 5:2: 0 or the error kind of the last command -/
  last : BitVec 4
  /-- bit 6: a WDINIT has succeeded -/
  wdini : Bool
  /-- bit 8: a received byte waits in `Wd.rxbyte` -/
  wdrdy : Bool
  /-- bit 9: a byte was overwritten unread -/
  wdovr : Bool
deriving DecidableEq, Repr

/-- The table file: `NFID` entries of 64 bits (10_state.md R30). -/
abbrev TableFile := Vector Word Config.nfid

/-- A sample of the window: an unsigned 64-bit tick count and a signed 32-bit amplitude (10_state.md R37). -/
structure Sample where
  ts : Nat
  val : Int
deriving DecidableEq, Repr

/-- The two coarse states of the waveform decoder (10_state.md R38; 44_waveform_decoder.md R215). -/
inductive Mode where
  | seek
  | locked
deriving DecidableEq, Repr

/-- The waveform decoder's session state `wd.*` (10_state.md R36 to R39). -/
structure Wd where
  fs : Word
  tps : Word
  /-- `wd.W`, the window length in samples -/
  w : BitVec 16
  maxdur : Nat
  ts12 : Nat
  pmin : Nat
  /-- the window, oldest first -/
  win : List Sample
  sum : Int
  mode : Mode
  lsum : Int
  lcnt : Nat
  prevpol : Bool
  period : Word
  tol : Word
  start : Nat
  last : Nat
  par : Bool
  skip : Bool
  rxbyte : Byte
deriving DecidableEq, Repr

/-- The ByteDecoder `bd.*` (10_state.md R39). -/
structure Bd where
  byte : Byte
  nbits : Nat
  run : Nat
deriving DecidableEq, Repr

/-- What the host does at the ports of CTIDC, one move at a time between commands (70_reset_and_hazards.md R328). -/
inductive HostMove where
  /-- HostReset: `rst` -/
  | reset
  /-- HostWriteX: `x_sel`, `x_we`, `x_wdata` -/
  | writeX (i : Reg) (v : Word)
  /-- HostReadX: `x_sel` -/
  | readX (i : Reg)
  /-- HostIssue: `cmd_valid`, `cmd_word` -/
  | issue (w : Word32)
  /-- HostReadStatus -/
  | readStatus
deriving DecidableEq, Repr

/-- What a read move of the host saw at the output ports (10_state.md R41). -/
inductive HostSeen where
  /-- `x_rdata` while `x_sel` = `i` -/
  | x (i : Reg) (v : Word)
  /-- `status` and `irq` -/
  | status (v : BitVec 16) (irq : Bool)
deriving DecidableEq, Repr

/-- The whole state of CTIDC (10_state.md R20), with the host's side of the ports in the last two fields. -/
structure State where
  /-- the x registers; `x[0]` is read and written only through the hardwired zero of R22 -/
  x : Vector Word Config.nx
  status : Status
  /-- CTRL: bit 0 IE_ERR, bit 1 IE_RDY (R28) -/
  ctrl : BitVec 2
  /-- ERRC: KIND, SUB, FID, UNIT (R29) -/
  errc : BitVec 22
  errinfo0 : Word
  errinfo1 : Word
  errinfo2 : Word
  /-- the table file `F` (R30) -/
  f : TableFile
  tb : Buffer
  sb : Buffer
  wd : Wd
  bd : Bd
  /-- the model's own: the host's moves to come, next first -/
  moves : List HostMove
  /-- the model's own: what the host's reads saw, newest first -/
  seen : List HostSeen
deriving DecidableEq, Repr

/-- CTIDC never stops on an error: an error is a next state (60_exceptions.md R284, R285). So there is no fault, and nothing
raises one: safe. -/
inductive Fault
deriving DecidableEq, Repr

/-- Why a step has no meaning. -/
inductive Refusal where
  /-- an arm of `exec` whose command has no meaning yet raises it: safe (no arm of this model does) -/
  | notModelled (mnemonic : String)
  /-- ENCODE and DECODE raise it where the walk of the layout ROM meets a reserved descriptor kind or runs off its list: such a
  LAYOUT is no legal parameter value (93_implementation_defined.md V4), and the LAYOUT of this model never gets there: safe -/
  | illFormedLayout
deriving DecidableEq, Repr

/-- A step's outcome on this machine. -/
abbrev Outcome := Host.Outcome State Fault Refusal

/-- The default Table: `version` 5, everything else 0 (10_state.md R32). -/
def TableFile.default : TableFile := (Vector.replicate Config.nfid 0).set 0 5

/-- The empty buffer: all bytes zero, length 0. -/
def Buffer.empty : Buffer := ⟨[], 0⟩

/-- The waveform decoder before any WDINIT (10_state.md R42). -/
def Wd.reset : Wd :=
  { fs := 0, tps := 0, w := 0, maxdur := 0, ts12 := 0, pmin := 0, win := [], sum := 0, mode := .seek, lsum := 0, lcnt := 0
    prevpol := false, period := 0, tol := 0, start := 0, last := 0, par := false, skip := false, rxbyte := 0 }

/-- The ByteDecoder with nothing in it (10_state.md R42). -/
def Bd.reset : Bd := ⟨0, 0, 0⟩

/-- STATUS after reset: 0 (10_state.md R42). -/
def Status.reset : Status :=
  { busy := false, err := false, last := 0, wdini := false, wdrdy := false, wdovr := false }

/-- The machine right after reset: every value of 10_state.md R42; the host has no move pending and has read nothing. -/
def State.reset : State :=
  { x := Vector.replicate Config.nx 0, status := .reset, ctrl := 0, errc := 0, errinfo0 := 0, errinfo1 := 0, errinfo2 := 0
    f := .default, tb := .empty, sb := .empty, wd := .reset, bd := .reset, moves := [], seen := [] }

end Sys2Proof.Machine
end

