-- ==== Sys2Proof/Machine/Flags.lean ====
section
/-! DEFINITION. The flags: what STATUS reads as (10_state.md R27), what each command leaves in it, the interrupt line (R28). -/

namespace Sys2Proof.Machine

/-- `STATUS.WDLOCK`: 1 exactly in LOCKED (10_state.md R38). -/
def wdlock (s : State) : Bool := s.wd.mode == .locked

/-- The STATUS register (10_state.md R27): BUSY 0, ERR 1, LAST 5:2, WDINI 6, WDLOCK 7, WDRDY 8, WDOVR 9, zeros above. -/
def statusWord (s : State) : BitVec 16 :=
  BitVec.ofNat 16 (s.status.busy.toNat + 2 * s.status.err.toNat + 4 * s.status.last.toNat + 64 * s.status.wdini.toNat
    + 128 * (wdlock s).toNat + 256 * s.status.wdrdy.toNat + 512 * s.status.wdovr.toNat)

/-- STATUS as RDSR reads it: with BUSY read as 0 (10_state.md R27; 45_system_and_buffer.md R261). -/
def statusRead (s : State) : BitVec 16 := statusWord { s with status := { s.status with busy := false } }

/-- The `irq` port: `(ERR and IE_ERR) or (WDRDY and IE_RDY)` (10_state.md R28; 60_exceptions.md R291). -/
def irq (s : State) : Bool :=
  (s.status.err && s.ctrl.getLsbD 0) || (s.status.wdrdy && s.ctrl.getLsbD 1)

/-- The `cmd_ready` port: low while a command executes (10_state.md R41). -/
def cmdReady (s : State) : Bool := !s.status.busy

/-- What a command that ends without a raise leaves in STATUS: LAST 0, not busy, ERR as it was (60_exceptions.md R284). -/
def Status.success (st : Status) : Status := { st with busy := false, last := 0 }

/-- What a raise leaves in STATUS: ERR 1, LAST the kind, not busy (60_exceptions.md R284). -/
def Status.failure (st : Status) (kind : BitVec 4) : Status := { st with busy := false, err := true, last := kind }

end Sys2Proof.Machine
end

