-- ==== Sys2Proof/Machine/Operands.lean ====
section
/-! DEFINITION. How a command reads an x register's word: a DEC (00_scope.md R13), a bit field, four signed 16-bit lanes
(30_encoding.md R80), a model string (10_state.md R31). -/

namespace Sys2Proof.Machine

/-- `x[hi:lo]` of a word, `n` = hi - lo + 1 bits from bit `lo`, as an unsigned integer (00_scope.md R10). -/
def slice (w : Word) (lo n : Nat) : Nat := w.toNat / 2 ^ lo % 2 ^ n

/-- `sx(x[63:0], 64)`: the word as a signed integer (00_scope.md R10). -/
def sint (w : Word) : Int := sx w.toNat Config.xlen

/-- `sext_64(n)`: the 64-bit two's complement word of an integer (00_scope.md R10). -/
def wordOfInt (n : Int) : Word := BitVec.ofNat Config.xlen (raw n Config.xlen)

/-- `zext_64(n)`: the word of an unsigned integer (00_scope.md R10). -/
def wordOfNat (n : Nat) : Word := BitVec.ofNat Config.xlen n

/-- `mant(w) = sx(w[63:8], 56)` of a DEC word (00_scope.md R13). -/
def mant (w : Word) : Int := sx (slice w 8 56) 56

/-- `expo(w) = sx(w[7:0], 8)` of a DEC word (00_scope.md R13). -/
def expo (w : Word) : Int := sx (slice w 0 8) 8

/-- `DEC(m, e)`: the word with `m` in bits [63:8] and `e` in bits [7:0], never normalised (00_scope.md R13). -/
def dec (m e : Int) : Word := BitVec.ofNat Config.xlen (raw m 56 * 256 + raw e 8)

/-- Lane `i` of a word, a signed 16-bit integer (30_encoding.md R80). -/
def lane (w : Word) (i : Nat) : Int := sx (slice w (16 * i) 16) 16

/-- The word of four signed 16-bit lanes, `a` in lane 0 (30_encoding.md R80). -/
def ofLanes (a b c d : Int) : Word :=
  BitVec.ofNat Config.xlen (raw a 16 + 65536 * raw b 16 + 4294967296 * raw c 16 + 281474976710656 * raw d 16)

/-- The amplitude `sx(x[31:0], 32)` of a sample (30_encoding.md R84). -/
def amplitude (w : Word) : Int := sx (slice w 0 32) 32

/-- The eight bytes of a STR8 entry, the first character in bits [63:56] (10_state.md R31). -/
def strBytes (w : Word) : List Byte :=
  (List.range 8).map fun i => BitVec.ofNat 8 (slice w (8 * (7 - i)) 8)

/-- The string of a STR8 entry: its bytes before the first zero byte (10_state.md R31). -/
def strOf (w : Word) : List Byte := (strBytes w).takeWhile (· != 0)

/-- The STR8 entry of a string of at most eight bytes: the rest zeros, the first byte in bits [63:56] (10_state.md R31). -/
def wordOfStr (s : List Byte) : Word :=
  BitVec.ofNat Config.xlen (bitsVal (bitsOfBytes (s ++ List.replicate (8 - s.length) 0)))

end Sys2Proof.Machine
end

