-- ==== Sys2Proof/Machine/Ops.lean ====
section
/-! DEFINITION. The named operations: registers, system registers, the table file, memory and buffers, raising an error and its
acknowledgement, completing a command. -/

namespace Sys2Proof.Machine

/-- `x[i]`: `x0` reads 0 (10_state.md R22). -/
def State.readX (s : State) (i : Reg) : Word := if i = 0 then 0 else s.x[i.val]

/-- `x[i] <- v`: a write to `x0` is discarded (10_state.md R22). -/
def State.writeX (s : State) (i : Reg) (v : Word) : State :=
  if i = 0 then s else { s with x := s.x.set i.val v }

/-- `F[k]` of a table file (10_state.md R30). No command reads an entry above 36. -/
def TableFile.get (f : TableFile) (k : Nat) : Word := f[k]?.getD 0

/-- `F[k] <- v` of a table file (10_state.md R30). No command writes an entry above 36. -/
def TableFile.put (f : TableFile) (k : Nat) (v : Word) : TableFile := f.setIfInBounds k v

/-- The byte at index `a`; an index that is not listed reads 0 (10_state.md R33, R42). -/
def Memory.read (m : Memory) (a : Nat) : Byte :=
  match m with
  | [] => 0
  | c :: r => if c.1 = a then c.2 else Memory.read r a

/-- Write one byte, keeping the canonical form: a zero byte is not listed. -/
def Memory.write (m : Memory) (a : Nat) (v : Byte) : Memory :=
  match m with
  | [] => if v = 0 then [] else [(a, v)]
  | c :: r =>
    if a < c.1 then (if v = 0 then c :: r else (a, v) :: c :: r)
    else if a = c.1 then (if v = 0 then r else (a, v) :: r)
    else c :: Memory.write r a v

/-- Zero the bytes at indices `lo` up to, not including, `hi`. -/
def Memory.clear (m : Memory) (lo hi : Nat) : Memory := m.filter fun c => !(decide (lo ≤ c.1) && decide (c.1 < hi))

/-- The memory that holds the bytes `bs` from index `a` on and zeros elsewhere. -/
def Memory.ofBytes (a : Nat) (bs : List Byte) : Memory :=
  match bs with
  | [] => []
  | b :: r => if b = 0 then Memory.ofBytes (a + 1) r else (a, b) :: Memory.ofBytes (a + 1) r

/-- The bytes at indices 0 to `n` - 1. -/
def Memory.bytes (m : Memory) (n : Nat) : List Byte := (List.range n).map m.read

/-- The canonical form: indices strictly rising, no zero byte listed. -/
def Memory.wf (m : Memory) : Bool :=
  match m with
  | [] => true
  | c :: r => c.2 != 0 && r.all (fun d => decide (c.1 < d.1)) && Memory.wf r

/-- The bytes of a buffer below its length (10_state.md R33). -/
def Buffer.bytes (b : Buffer) : List Byte := b.mem.bytes b.len

/-- A buffer holding exactly `bs`, every byte at or above the length zero (10_state.md R33). -/
def Buffer.ofBytes (bs : List Byte) : Buffer := ⟨Memory.ofBytes 0 bs, bs.length⟩

/-- A buffer as every command leaves it (10_state.md R33): canonical contents, a length within the capacity, every byte at or
above the length zero. -/
def Buffer.wf (cap : Nat) (b : Buffer) : Bool :=
  b.mem.wf && decide (b.len ≤ cap) && b.mem.all fun c => decide (c.1 < b.len)

/-- The capacity of a buffer: `TB_CAP`, `SB_CAP` (45_system_and_buffer.md R263). -/
def bufCap : Buf → Nat
  | .tb => Config.tbCap
  | .sb => Config.sbCap

/-- The sub-cause that names a buffer in BufferBounds: 0 = `TB`, 1 = `SB` (60_exceptions.md R282). -/
def bufSub : Buf → Nat
  | .tb => 0
  | .sb => 1

/-- The selected buffer (45_system_and_buffer.md R263). -/
def State.buf (s : State) : Buf → Buffer
  | .tb => s.tb
  | .sb => s.sb

/-- Replace the selected buffer. -/
def State.setBuf (s : State) (b : Buf) (v : Buffer) : State :=
  match b with
  | .tb => { s with tb := v }
  | .sb => { s with sb := v }

/-- The error kinds (60_exceptions.md R281). -/
inductive ErrKind where
  | rangeError
  | frameLengthError
  | crcError
  | unsupportedEncoding
  | startSymbol
  | illegalCommand
  | illegalOperand
  | bufferBounds
  | decoderNotInit
deriving DecidableEq, Repr

/-- The code of an error kind in `ERRC.KIND` and `STATUS.LAST` (60_exceptions.md R281). -/
def errCode : ErrKind → BitVec 4
  | .rangeError => 1
  | .frameLengthError => 2
  | .crcError => 3
  | .unsupportedEncoding => 4
  | .startSymbol => 5
  | .illegalCommand => 8
  | .illegalOperand => 9
  | .bufferBounds => 10
  | .decoderNotInit => 11

/-- What a raise says of its error (60_exceptions.md R284): the arguments not given are 63 for `fid` and 0 for the rest. -/
structure ErrData where
  kind : ErrKind
  sub : Nat := 0
  fid : Nat := 63
  unit : Nat := 0
  i0 : Word := 0
  i1 : Word := 0
  i2 : Word := 0
deriving DecidableEq, Repr

/-- `ERRC`: `K | (sub << 4) | (fid << 12) | (unit << 18)` (60_exceptions.md R284; 10_state.md R29). -/
def errcWord (e : ErrData) : BitVec 22 :=
  BitVec.ofNat 22 ((errCode e.kind).toNat + 16 * (e.sub % 256) + 4096 * (e.fid % 64) + 262144 * (e.unit % 16))

/-- The state after a raise: the command's writes undone, the error registers, ERR and LAST written (60_exceptions.md R284). -/
def State.withError (s : State) (e : ErrData) : State :=
  { s with
    status := s.status.failure (errCode e.kind)
    errc := errcWord e, errinfo0 := e.i0, errinfo1 := e.i1, errinfo2 := e.i2 }

/-- Raise an error: the machine's taking of an exception. `s` is the state before the command, so nothing else changes
(60_exceptions.md R284). -/
def raise (s : State) (e : ErrData) : Outcome := .next (s.withError e)

/-- Acknowledge an error, what CLRERR does: the counterpart of a raise (60_exceptions.md R285; 45_system_and_buffer.md R256). -/
def State.ackError (s : State) : State :=
  { s with status := { s.status with err := false }, errc := 0, errinfo0 := 0, errinfo1 := 0, errinfo2 := 0 }

/-- The state after a command that ended without a raise: LAST 0 (60_exceptions.md R284). -/
def State.done (s : State) : State := { s with status := s.status.success }

/-- End a command without a raise; `s` holds what the command wrote (60_exceptions.md R284). -/
def complete (s : State) : Outcome := .next s.done

/-- IllegalOperand with its sub-cause and data (60_exceptions.md R283). -/
def illegalOperand (sub : Nat) (i0 : Word) (i1 : Word := 0) : ErrData :=
  { kind := .illegalOperand, sub := sub, i0 := i0, i1 := i1 }

/-- BufferBounds: the buffer, the index or length, the limit it was tested against (60_exceptions.md R282). -/
def bufferBounds (b : Buf) (i limit : Nat) : ErrData :=
  { kind := .bufferBounds, sub := bufSub b, i0 := wordOfNat i, i1 := wordOfNat limit }

/-- FrameLengthError: bytes required, bytes present (60_exceptions.md R282). -/
def frameLength (required present : Nat) : ErrData :=
  { kind := .frameLengthError, i0 := wordOfNat required, i1 := wordOfNat present }

/-- UnsupportedEncodingError with its sub-cause, entry and data (60_exceptions.md R283; 43_table_codec.md R191). -/
def unsupported (sub fid : Nat) (i0 : Word) (i1 : Word := 0) : ErrData :=
  { kind := .unsupportedEncoding, sub := sub, fid := fid, i0 := i0, i1 := i1 }

/-- UnsupportedEncodingError VERSION: sub-cause 1 and FID 0 in every command (60_exceptions.md R282, R283). -/
def unsupportedVersion (v : Nat) : ErrData := unsupported 1 0 (wordOfNat v)

/-- A system register, zero-extended: 0 to 12 (10_state.md R26). -/
def State.sysReg (s : State) (n : Nat) : Word :=
  match n with
  | 0 => (statusRead s).setWidth Config.xlen
  | 1 => s.ctrl.setWidth Config.xlen
  | 2 => s.errc.setWidth Config.xlen
  | 3 => s.errinfo0
  | 4 => s.errinfo1
  | 5 => s.errinfo2
  | 6 => Config.idWord
  | 7 => Config.cfgWord
  | 8 => s.wd.fs
  | 9 => s.wd.tps
  | 10 => s.wd.w.setWidth Config.xlen
  | 11 => s.wd.period
  | 12 => s.wd.tol
  | _ => 0

/-- Every piece of state of CTIDC at its reset value (10_state.md R42; 70_reset_and_hazards.md R310). The host's side of the
ports is no state of CTIDC and stays. -/
def State.resetMachine (s : State) : State := { State.reset with moves := s.moves, seen := s.seen }

end Sys2Proof.Machine
end

