-- ==== Sys2Proof/Machine/Crc.lean ====
section
/-! DEFINITION. CRC framing (42_crc_framing.md): the two checksums, CRC8, CRC16, FRGEN, FRCHK. -/

namespace Sys2Proof.Machine

/-- One step of the reflected CRC register `c`: shift right, and xor the reflected polynomial when a 1 fell out
(42_crc_framing.md R146, R147). -/
def crcStep {w : Nat} (poly c : BitVec w) : BitVec w :=
  if c.getLsbD 0 then (c >>> 1) ^^^ poly else c >>> 1

/-- One byte into the register: xor into the low bits, then eight steps (42_crc_framing.md R146, R147). -/
def crcByte {w : Nat} (poly c : BitVec w) (b : Byte) : BitVec w :=
  (List.range 8).foldl (fun c _ => crcStep poly c) (c ^^^ b.setWidth w)

/-- `crc8(B)`: initial value 0xFF, reflected polynomial 0xE0 (42_crc_framing.md R146). -/
def crc8 (bs : List Byte) : BitVec 8 := bs.foldl (crcByte 0xE0) 0xFF

/-- `crc16(B)`: initial value 0xFFFF, reflected polynomial 0xA001 (42_crc_framing.md R147). -/
def crc16 (bs : List Byte) : BitVec 16 := bs.foldl (crcByte 0xA001) 0xFFFF

/-- CRC8 (42_crc_framing.md R148). -/
def execCrc8 (rd ra : Reg) (s : State) : Outcome :=
  let n := (s.readX ra).toNat
  if s.tb.len < n then raise s (bufferBounds .tb n s.tb.len)
  else complete (s.writeX rd ((crc8 (s.tb.mem.bytes n)).setWidth Config.xlen))

/-- CRC16 (42_crc_framing.md R149). -/
def execCrc16 (rd ra : Reg) (s : State) : Outcome :=
  let n := (s.readX ra).toNat
  if s.tb.len < n then raise s (bufferBounds .tb n s.tb.len)
  else complete (s.writeX rd ((crc16 (s.tb.mem.bytes n)).setWidth Config.xlen))

/-- The checksum bytes that follow the body of version `v` in `m`: one byte of `crc8` for version 1, two of `crc16`, high byte
first, for every other (42_crc_framing.md R150, R151). -/
def checksumBytes (v : Nat) (m : Memory) : List Byte :=
  if v = 1 then [crc8 (m.bytes (Config.bodyLen v))]
  else
    let c := crc16 (m.bytes (Config.bodyLen v))
    [c.extractLsb' 8 8, c.extractLsb' 0 8]

/-- An unsigned integer from bytes, the high byte first (20_memory.md R52). -/
def natOfBytes (bs : List Byte) : Nat := bs.foldl (fun n b => 256 * n + b.toNat) 0

/-- The bytes at indices `a` to `a + n - 1`. -/
def Memory.bytesAt (m : Memory) (a n : Nat) : List Byte := (List.range n).map fun k => m.read (a + k)

/-- Write bytes at rising indices from `a` on. -/
def Memory.writeBytes (m : Memory) (a : Nat) (bs : List Byte) : Memory :=
  match bs with
  | [] => m
  | b :: r => Memory.writeBytes (m.write a b) (a + 1) r

/-- FRGEN (42_crc_framing.md R152). -/
def execFrgen (s : State) : Outcome :=
  let v := (s.tb.mem.read 0).toNat
  if s.tb.len = 0 then raise s (frameLength 1 0)
  else if v = 0 then raise s (unsupportedVersion 0)
  else if s.tb.len ≠ Config.bodyLen v then raise s (frameLength (Config.bodyLen v) s.tb.len)
  else
    complete { s with tb :=
      ⟨s.tb.mem.writeBytes (Config.bodyLen v) (checksumBytes v s.tb.mem), Config.frameLen v⟩ }

/-- CRCError: expected, the checksum computed over the body, then received, the checksum in the frame (42_crc_framing.md R153). -/
def crcError (expected received : Nat) : ErrData :=
  { kind := .crcError, i0 := wordOfNat expected, i1 := wordOfNat received }

/-- FRCHK (42_crc_framing.md R154). -/
def execFrchk (s : State) : Outcome :=
  let v := (s.tb.mem.read 0).toNat
  let expected := natOfBytes (checksumBytes v s.tb.mem)
  let received := natOfBytes (s.tb.mem.bytesAt (Config.bodyLen v) (Config.crcw v))
  if s.tb.len = 0 then raise s (frameLength 1 0)
  else if v = 0 then raise s (unsupportedVersion 0)
  else if s.tb.len < Config.frameLen v then raise s (frameLength (Config.frameLen v) s.tb.len)
  else if expected ≠ received then raise s (crcError expected received)
  else complete { s with tb := ⟨s.tb.mem.clear (Config.bodyLen v) s.tb.len, Config.bodyLen v⟩ }

end Sys2Proof.Machine
end

