-- ==== Sys2Proof/Machine/Numeric.lean ====
section
/-! DEFINITION. The fixed-point numeric codec (40_numeric_codec.md): the functions the table codec shares, then FIX, UNFIX,
F12ENC, F12DEC, D16ENC, D16DEC, S10, QPACK, QUNPACK. A physical value `m × 10^e` is the pair of a DEC word's parts. -/

namespace Sys2Proof.Machine

/-- The least integer a field of `bits` bits holds (40_numeric_codec.md R101). -/
def fixLo (bits : Nat) (sg : Bool) : Int := if sg then -2 ^ (bits - 1) else 0

/-- The greatest integer a field of `bits` bits holds (40_numeric_codec.md R101). -/
def fixHi (bits : Nat) (sg : Bool) : Int := if sg then 2 ^ (bits - 1) - 1 else 2 ^ bits - 1

/-- `roundTie(value / scale)` for the DEC word `value` and the scale `ms × 10^es` (40_numeric_codec.md R101). -/
def fixCount (value : Word) (ms : Nat) (es : Int) : Int := roundTie10 (mant value) (expo value - es) ms

/-- `fix` (40_numeric_codec.md R101): the count, or none where it is out of the field's range. -/
def fixOf (value : Word) (bits : Nat) (sg : Bool) (ms : Nat) (es : Int) : Option Int :=
  let n := fixCount value ms es
  if n < fixLo bits sg ∨ fixHi bits sg < n then none else some n

/-- `unfix` of a `bits`-bit pattern (40_numeric_codec.md R102): the count times the scale, as a DEC that is not normalised. -/
def unfixOf (r bits : Nat) (sg : Bool) (ms : Nat) (es : Int) : Word :=
  dec ((if sg then sx r bits else r) * ms) es

/-- The RangeError of a fixed-point field, with the bounds in physical units (40_numeric_codec.md R103; 43_table_codec.md R171). -/
def fixError (fid unit : Nat) (value : Word) (bits : Nat) (sg : Bool) (ms : Nat) (es : Int) : ErrData :=
  { kind := .rangeError, fid := fid, unit := unit, i0 := value
    i1 := dec (fixLo bits sg * ms) es, i2 := dec (fixHi bits sg * ms) es }

/-- `m × 10^e ≤ k`, exactly. -/
def decLe (m e : Int) (k : Nat) : Bool :=
  if 0 ≤ e then decide (m * 10 ^ e.toNat ≤ k) else decide (m ≤ k * 10 ^ (-e).toNat)

/-- `f12enc(v)` for `v = m × 10^e` (40_numeric_codec.md R107; 30_encoding.md R77): the least exponent whose rounded mantissa is at
most 511, or none where `v` is outside [0, 10^7]. -/
def f12enc (m e : Int) : Option Nat :=
  if m < 0 ∨ decLe m e Config.f12Max = false then none
  else ((List.range 8).find? fun (k : Nat) => decide (roundTie10 m (e - k) 1 ≤ 511)).map fun (k : Nat) =>
    (roundTie10 m (e - k) 1).toNat * 8 + k

/-- `f12dec(code)` of a 12-bit code as a DEC (40_numeric_codec.md R109, R110). -/
def f12dec (code : Nat) : Word := dec (code / 8 : Nat) (code % 8 : Nat)

/-- The RangeError of float12: the bounds are 0 and 10^7 (40_numeric_codec.md R108). -/
def f12Error (fid unit : Nat) (value : Word) : ErrData :=
  { kind := .rangeError, fid := fid, unit := unit, i0 := value, i1 := dec 0 0, i2 := dec 1 7 }

/-- The exponents of decimal16 in the order of the search, -16 up to 15 (40_numeric_codec.md R112). -/
def d16Exponents : List Int := (List.range 32).map fun (k : Nat) => (k : Int) - 16

/-- The code of a decimal16 mantissa and exponent; a mantissa of 0 is stored with exponent 0 (40_numeric_codec.md R112). -/
def d16Code (m e : Int) : Nat := if m = 0 then 0 else raw m 11 * 32 + raw e 5

/-- `d16enc(v)` for `v = m × 10^e` (40_numeric_codec.md R112; 30_encoding.md R78): the first exponent whose rounded mantissa is
within ±1023, or none where no exponent fits. -/
def d16enc (m e : Int) : Option Nat :=
  (d16Exponents.find? fun k => decide ((roundTie10 m (e - k) 1).natAbs ≤ 1023)).map fun k =>
    d16Code (roundTie10 m (e - k) 1) k

/-- `d16dec(code)` of a 16-bit code as a DEC (40_numeric_codec.md R115, R116). -/
def d16dec (code : Nat) : Word := dec (sx (code / 32) 11) (sx (code % 32) 5)

/-- The RangeError of decimal16: the bounds are ±1023 × 10^15 (40_numeric_codec.md R113). -/
def d16Error (fid unit : Nat) (value : Word) : ErrData :=
  { kind := .rangeError, fid := fid, unit := unit, i0 := value, i1 := dec (-1023) 15, i2 := dec 1023 15 }

/-- `s10(r)` of a 10-bit pattern (40_numeric_codec.md R117). -/
def s10 (r : Nat) : Int := sx r 10

/-- A quad's value fits 10 signed bits (40_numeric_codec.md R119). -/
def quadFits (n : Int) : Bool := decide (-512 ≤ n ∧ n ≤ 511)

/-- `qpack(a, b, c, d)`: four 10-bit patterns, `a` in bits [39:30] (40_numeric_codec.md R119; 30_encoding.md R79). -/
def qpack (a b c d : Int) : Nat := 1073741824 * raw a 10 + 1048576 * raw b 10 + 1024 * raw c 10 + raw d 10

/-- `qunpack(q)` of a 40-bit word (40_numeric_codec.md R120). -/
def qunpack (q : Nat) : Int × Int × Int × Int :=
  (s10 (q / 1073741824 % 1024), s10 (q / 1048576 % 1024), s10 (q / 1024 % 1024), s10 (q % 1024))

/-- The domain tests of FIX and UNFIX, in their order: `bits` in 1..32, then the scale mantissa in 1..2^23-1
(40_numeric_codec.md R103, R105). -/
def fixDomainError (bits : Nat) (scale : Word) : Option ErrData :=
  if bits < 1 ∨ 32 < bits then some (illegalOperand 1 (wordOfNat bits))
  else if mant scale < 1 ∨ 2 ^ 23 - 1 < mant scale then some (illegalOperand 2 scale)
  else none

/-- FIX (40_numeric_codec.md R103). -/
def execFix (rd ra rb : Reg) (bits : Nat) (sg : Bool) (s : State) : Outcome :=
  match fixDomainError bits (s.readX rb) with
  | some e => raise s e
  | none =>
    let ms := (mant (s.readX rb)).toNat
    let es := expo (s.readX rb)
    match fixOf (s.readX ra) bits sg ms es with
    | none => raise s (fixError 63 0 (s.readX ra) bits sg ms es)
    | some n => complete (s.writeX rd (wordOfInt n))

/-- UNFIX (40_numeric_codec.md R105). -/
def execUnfix (rd ra rb : Reg) (bits : Nat) (sg : Bool) (s : State) : Outcome :=
  match fixDomainError bits (s.readX rb) with
  | some e => raise s e
  | none =>
    complete (s.writeX rd
      (unfixOf (slice (s.readX ra) 0 bits) bits sg (mant (s.readX rb)).toNat (expo (s.readX rb))))

/-- F12ENC (40_numeric_codec.md R108). -/
def execF12enc (rd ra : Reg) (s : State) : Outcome :=
  match f12enc (mant (s.readX ra)) (expo (s.readX ra)) with
  | none => raise s (f12Error 63 0 (s.readX ra))
  | some c => complete (s.writeX rd (wordOfNat c))

/-- F12DEC (40_numeric_codec.md R110). -/
def execF12dec (rd ra : Reg) (s : State) : Outcome :=
  complete (s.writeX rd (f12dec (slice (s.readX ra) 0 12)))

/-- D16ENC (40_numeric_codec.md R113). -/
def execD16enc (rd ra : Reg) (s : State) : Outcome :=
  match d16enc (mant (s.readX ra)) (expo (s.readX ra)) with
  | none => raise s (d16Error 63 0 (s.readX ra))
  | some c => complete (s.writeX rd (wordOfNat c))

/-- D16DEC (40_numeric_codec.md R116). -/
def execD16dec (rd ra : Reg) (s : State) : Outcome :=
  complete (s.writeX rd (d16dec (slice (s.readX ra) 0 16)))

/-- S10 (40_numeric_codec.md R118). -/
def execS10 (rd ra : Reg) (s : State) : Outcome :=
  complete (s.writeX rd (wordOfInt (s10 (slice (s.readX ra) 0 10))))

/-- QPACK (40_numeric_codec.md R121): the lowest-numbered lane out of range is the one reported. -/
def execQpack (rd ra : Reg) (s : State) : Outcome :=
  let w := s.readX ra
  match (List.range 4).find? fun i => !quadFits (lane w i) with
  | some i =>
    raise s { kind := .rangeError, sub := i, i0 := dec (lane w i) 0, i1 := dec (-512) 0, i2 := dec 511 0 }
  | none => complete (s.writeX rd (wordOfNat (qpack (lane w 0) (lane w 1) (lane w 2) (lane w 3))))

/-- QUNPACK (40_numeric_codec.md R122). -/
def execQunpack (rd ra : Reg) (s : State) : Outcome :=
  let (a, b, c, d) := qunpack (slice (s.readX ra) 0 40)
  complete (s.writeX rd (ofLanes a b c d))

end Sys2Proof.Machine
end

