-- ==== Sys2Proof/Machine/Stuffer.lean ====
section
/-! DEFINITION. The bit stuffer and unstuffer (41_bit_stuffer.md): STUFF, UNSTUFF. -/

namespace Sys2Proof.Machine

/-- The stuffed bits of a data bit string, from a run of `run` 1-bits on (41_bit_stuffer.md R131): after the seventh 1 in a row
one 0 goes out and the run starts again. -/
def stuffBits (run : Nat) : List Bool → List Bool
  | [] => []
  | b :: rest =>
    if b then
      if run + 1 = Config.stuffRun then true :: false :: stuffBits 0 rest
      else true :: stuffBits (run + 1) rest
    else false :: stuffBits 0 rest

/-- `stuff(B)` as bytes (41_bit_stuffer.md R131): the start byte, not counted in the run, the stuffed bits, zero padding. -/
def stuff (bs : List Byte) : List Byte :=
  bytesOfBits (padTo8 (bitsOf 8 Config.startByte.toNat ++ stuffBits 0 (bitsOfBytes bs)))

/-- One bit of the de-stuffing loop (41_bit_stuffer.md R135): the new run, and the data bit unless the bit is dropped. -/
def destuffBit (run : Nat) (b : Bool) : Nat × Option Bool :=
  if run = Config.stuffRun then (0, none) else (if b then run + 1 else 0, some b)

/-- The data bits of a stuffed bit string (41_bit_stuffer.md R135): the bit after seven 1s is dropped, whatever its value. -/
def unstuffBits (run : Nat) : List Bool → List Bool
  | [] => []
  | b :: rest =>
    match destuffBit run b with
    | (run', none) => unstuffBits run' rest
    | (run', some d) => d :: unstuffBits run' rest

/-- `unstuff(S)` without its start byte (41_bit_stuffer.md R135): the whole bytes of the data bits; the bits left over are
discarded. -/
def unstuff (bs : List Byte) : List Byte := bytesOfBits (unstuffBits 0 (bitsOfBytes bs))

/-- STUFF (41_bit_stuffer.md R133). -/
def execStuff (s : State) : Outcome :=
  let out := stuff s.tb.bytes
  if Config.sbCap < out.length then raise s (bufferBounds .sb out.length Config.sbCap)
  else complete { s with sb := Buffer.ofBytes out }

/-- StartSymbolError: the byte found, or 0x100 when the buffer is empty (41_bit_stuffer.md R136). -/
def startSymbolError (found : Nat) : ErrData := { kind := .startSymbol, i0 := wordOfNat found }

/-- UNSTUFF (41_bit_stuffer.md R137). -/
def execUnstuff (s : State) : Outcome :=
  match s.sb.bytes with
  | [] => raise s (startSymbolError 0x100)
  | first :: rest =>
    if first ≠ Config.startByte then raise s (startSymbolError first.toNat)
    else
      let out := unstuff rest
      if Config.tbCap < out.length then raise s (bufferBounds .tb out.length Config.tbCap)
      else complete { s with tb := Buffer.ofBytes out }

end Sys2Proof.Machine
end

