-- ==== Sys2Proof/Machine/System.lean ====
section
/-! DEFINITION. The system and buffer commands (45_system_and_buffer.md): NOP, CLRERR, SRST, LI, MKDEC, RDSR, WRSR, CLRB, PUSHB,
LDB, STB, LENB. -/

namespace Sys2Proof.Machine

/-- NOP (45_system_and_buffer.md R255): nothing but LAST <- 0. -/
def execNop (s : State) : Outcome := complete s

/-- CLRERR (45_system_and_buffer.md R256). -/
def execClrerr (s : State) : Outcome := complete s.ackError

/-- SRST (45_system_and_buffer.md R257; 10_state.md R42). -/
def execSrst (s : State) : Outcome := complete s.resetMachine

/-- LI (45_system_and_buffer.md R258). -/
def execLi (rd : Reg) (simm : Int) (s : State) : Outcome := complete (s.writeX rd (wordOfInt simm))

/-- MKDEC (45_system_and_buffer.md R259): no normalisation. -/
def execMkdec (rd ra : Reg) (e : Int) (s : State) : Outcome :=
  let m := sint (s.readX ra)
  if m < -2 ^ 55 ∨ 2 ^ 55 - 1 < m then raise s (illegalOperand 7 (s.readX ra))
  else complete (s.writeX rd (dec m e))

/-- RDSR (45_system_and_buffer.md R261): it reads STATUS as the previous command left it. -/
def execRdsr (rd : Reg) (sr : Nat) (s : State) : Outcome :=
  if 12 < sr then raise s (illegalOperand 4 (wordOfNat sr))
  else complete (s.writeX rd (s.sysReg sr))

/-- WRSR (45_system_and_buffer.md R262): CTRL is the only writable register, and its bits 63:2 are ignored. -/
def execWrsr (ra : Reg) (sr : Nat) (s : State) : Outcome :=
  if 12 < sr then raise s (illegalOperand 4 (wordOfNat sr))
  else if sr ≠ 1 then raise s (illegalOperand 5 (wordOfNat sr))
  else complete { s with ctrl := (s.readX ra).setWidth 2 }

/-- CLRB (45_system_and_buffer.md R264). -/
def execClrb (b : Buf) (s : State) : Outcome := complete (s.setBuf b Buffer.empty)

/-- PUSHB (45_system_and_buffer.md R265). -/
def execPushb (ra : Reg) (b : Buf) (s : State) : Outcome :=
  let buf := s.buf b
  if buf.len = bufCap b then raise s (bufferBounds b buf.len (bufCap b))
  else complete (s.setBuf b ⟨buf.mem.write buf.len ((s.readX ra).setWidth 8), buf.len + 1⟩)

/-- The index of LDB and STB, `x[ra] + off` computed without wrap (45_system_and_buffer.md R263). -/
def bufIndex (s : State) (ra : Reg) (off : Nat) : Nat := (s.readX ra).toNat + off

/-- LDB (45_system_and_buffer.md R266): the byte is zero-extended. -/
def execLdb (rd ra : Reg) (b : Buf) (off : Nat) (s : State) : Outcome :=
  let i := bufIndex s ra off
  if (s.buf b).len ≤ i then raise s (bufferBounds b i (s.buf b).len)
  else complete (s.writeX rd (((s.buf b).mem.read i).setWidth Config.xlen))

/-- STB (45_system_and_buffer.md R267): it overwrites a byte that exists and never extends the buffer. -/
def execStb (ra rb : Reg) (b : Buf) (off : Nat) (s : State) : Outcome :=
  let i := bufIndex s ra off
  if (s.buf b).len ≤ i then raise s (bufferBounds b i (s.buf b).len)
  else complete (s.setBuf b ⟨(s.buf b).mem.write i ((s.readX rb).setWidth 8), (s.buf b).len⟩)

/-- LENB (45_system_and_buffer.md R268). -/
def execLenb (rd : Reg) (b : Buf) (s : State) : Outcome :=
  complete (s.writeX rd (wordOfNat (s.buf b).len))

end Sys2Proof.Machine
end

