-- ==== Sys2Proof/Machine/Layout.lean ====
section
/-! DEFINITION. The parameter LAYOUT (00_scope.md R9): the layout ROM, its entry tables (43_table_codec.md R176 to R190) and the
fields of a descriptor word (30_encoding.md R74, R75). Nothing writes it (10_state.md R40). -/

namespace Sys2Proof.Machine

/-- HDR1, ROM words 0 to 7 (43_table_codec.md R177). -/
def hdr1Words : List Word32 :=
  [ 0x00000081, 0x00000501, 0x00000846, 0x00000087, 0x00000D81, 0x00001041, 0xE01324C3, 0x00000009 ]

/-- HDR2, ROM words 8 to 17 (43_table_codec.md R178). -/
def hdr2Words : List Word32 :=
  [ 0x00000081, 0x00000501, 0x00000846, 0x00000087, 0x00000D81, 0x00001041, 0xE01324C3, 0x000414C4,
    0x000418C4, 0x00000009 ]

/-- HDR3, ROM words 18 to 26 (43_table_codec.md R179). -/
def hdr3Words : List Word32 :=
  [ 0x00000081, 0x00000501, 0x00000846, 0x00000087, 0x00000D81, 0x00001081, 0x000414C4, 0x000418C4,
    0x00000009 ]

/-- HDR45, ROM words 27 to 34 (43_table_codec.md R180). -/
def hdr45Words : List Word32 :=
  [ 0x00000081, 0x00000501, 0x00000D81, 0x00001081, 0x000414C4, 0x000418C4, 0x00000886, 0x00000009 ]

/-- CT_A, ROM words 35 to 49 (43_table_codec.md R181). -/
def ctAWords : List Word32 :=
  [ 0xF0111D02, 0xB0122102, 0x00152882, 0x00562C83, 0xF0573083, 0xE0283483, 0xE0233883, 0xE0283C83,
    0xE0234083, 0xE0284483, 0xE0234883, 0xE0284C83, 0xE0235083, 0xD0125483, 0x00000000 ]

/-- CT_B, ROM words 50 to 65 (43_table_codec.md R182). -/
def ctBWords : List Word32 :=
  [ 0xF0111D02, 0xB0122102, 0xE0132503, 0x00152882, 0x00562C83, 0xF0573083, 0xE0283483, 0xE0233883,
    0xE0283C83, 0xE0234083, 0xE0284483, 0xE0234883, 0xE0284C83, 0xE0235083, 0xD0125483, 0x00000000 ]

/-- CT_C, ROM words 66 to 75 (43_table_codec.md R183). -/
def ctCWords : List Word32 :=
  [ 0xF0111D02, 0xB0122102, 0xE0132503, 0x00152882, 0x00562C83, 0xF0573083, 0xE0103408, 0xE0104418,
    0xD0125483, 0x00000000 ]

/-- LIN, ROM words 76 to 80 (43_table_codec.md R184). -/
def linWords : List Word32 :=
  [ 0x00005905, 0x00005D05, 0xA0196102, 0x00006481, 0x00000000 ]

/-- NTC_R, ROM words 81 to 86 (43_table_codec.md R185). -/
def ntcRWords : List Word32 :=
  [ 0x00006905, 0x00006D05, 0x00007105, 0x00007505, 0x00048105, 0x00000000 ]

/-- NTC_NK, ROM words 87 to 93 (43_table_codec.md R186). -/
def ntcNKWords : List Word32 :=
  [ 0x00006905, 0x00006D05, 0x00007105, 0x00007505, 0x00007905, 0x00007D05, 0x00000000 ]

/-- PULSE, ROM words 94 to 98 (43_table_codec.md R187). -/
def pulseWords : List Word32 :=
  [ 0xD0128502, 0xD0128902, 0xD0198D02, 0x00009081, 0x00000000 ]
/-- The words of the layout ROM that hold a list, 0 to 98 (43_table_codec.md R190). -/
def romImage : List Word32 :=
  hdr1Words ++ hdr2Words ++ hdr3Words ++ hdr45Words ++ ctAWords ++ ctBWords ++ ctCWords ++ linWords ++ ntcRWords ++ ntcNKWords
    ++ pulseWords

/-- `ROM[a]`: words 99 to 127 hold 0, an END (43_table_codec.md R190). -/
def rom (a : Nat) : Word32 := romImage.getD a 0

/-- `HDRTAB[v]`: the header list of a version, none where no layout exists (43_table_codec.md R190). -/
def hdrTab (v : Nat) : Option Nat :=
  match v with
  | 1 => some 0
  | 2 => some 8
  | 3 => some 18
  | 4 => some 27
  | 5 => some 27
  | _ => none

/-- `BLKTAB[v][st]`: the parameter-block list of a version and a sensor type (43_table_codec.md R188). -/
def blkTab (v st : Nat) : Option Nat :=
  match v, st with
  | 1, 0 | 1, 1 | 1, 2 | 2, 0 | 2, 1 | 2, 2 => some 35
  | 3, 0 | 3, 1 | 3, 2 | 4, 0 | 4, 1 | 4, 2 => some 50
  | 5, 0 | 5, 1 | 5, 2 => some 66
  | 1, 3 | 1, 4 | 2, 3 | 2, 4 | 3, 3 | 3, 4 | 4, 3 | 4, 4 | 5, 3 | 5, 4 => some 76
  | 1, 5 | 2, 5 | 3, 5 => some 81
  | 4, 5 | 5, 5 => some 87
  | 1, 6 | 2, 6 | 3, 6 | 4, 6 | 5, 6 => some 94
  | _, _ => none

/-- The descriptor kinds (30_encoding.md R75). -/
inductive DescKind where
  | endK
  | int
  | fxu
  | fxs
  | f12
  | d16
  | str
  | rsv
  | quad
  | sw
deriving DecidableEq, Repr

/-- The kind of a KIND code; 10 to 15 are reserved (30_encoding.md R75). -/
def descKind (code : Nat) : Option DescKind :=
  match code with
  | 0 => some .endK
  | 1 => some .int
  | 2 => some .fxu
  | 3 => some .fxs
  | 4 => some .f12
  | 5 => some .d16
  | 6 => some .str
  | 7 => some .rsv
  | 8 => some .quad
  | 9 => some .sw
  | _ => none

/-- The fields of a descriptor word but for KIND (30_encoding.md R74); the scale is `sm × 10^se`. -/
structure Desc where
  n : Nat
  fid : Nat
  unit : Nat
  sm : Nat
  se : Int
deriving DecidableEq, Repr

/-- N [9:4], FID [15:10], UNIT [19:16], SM [27:20], SE [31:28] of a descriptor word (30_encoding.md R74). -/
def descOf (w : Word32) : Desc :=
  { n := w.toNat / 16 % 64, fid := w.toNat / 1024 % 64, unit := w.toNat / 65536 % 16, sm := w.toNat / 1048576 % 256
    se := sx (w.toNat / 268435456 % 16) 4 }

/-- KIND [3:0] of a descriptor word (30_encoding.md R74). -/
def kindOf (w : Word32) : Option DescKind := descKind (w.toNat % 16)

end Sys2Proof.Machine
end

