-- ==== Sys2Proof/Machine/Table.lean ====
section
/-! DEFINITION. The table codec (43_table_codec.md): the descriptors in both modes, the walk of the layout ROM, ENCODE, DECODE,
TGET, TSET, TDEF. The bit cursor `bp` is the number of bits put, or the body bits not yet got. -/

namespace Sys2Proof.Machine

/-- What ends a walk before its END: an error of the command, or a LAYOUT that is no legal parameter value (R168). -/
inductive Stop where
  | error (e : ErrData)
  | illFormed
deriving DecidableEq, Repr

/-- The RangeError of an INT descriptor, its data plain integers (43_table_codec.md R170). -/
def intError (fid n bits : Nat) : ErrData :=
  { kind := .rangeError, sub := 16, fid := fid, i0 := wordOfNat n, i1 := 0, i2 := wordOfNat (2 ^ bits - 1) }

/-- INT in `enc` mode: entry 0 is written as the version asked for (43_table_codec.md R170). -/
def encInt (v : Nat) (f : TableFile) (d : Desc) : Except ErrData (List Bool) :=
  let n := if d.fid = 0 then v else (f.get d.fid).toNat
  if 2 ^ d.n - 1 < n then .error (intError d.fid n d.n) else .ok (bitsOf d.n n)

/-- FXU and FXS in `enc` mode (43_table_codec.md R171). -/
def encFix (sg : Bool) (f : TableFile) (d : Desc) : Except ErrData (List Bool) :=
  match fixOf (f.get d.fid) d.n sg d.sm d.se with
  | none => .error (fixError d.fid d.unit (f.get d.fid) d.n sg d.sm d.se)
  | some n => .ok (bitsOf d.n (raw n d.n))

/-- F12 in `enc` mode (43_table_codec.md R172). -/
def encF12 (f : TableFile) (d : Desc) : Except ErrData (List Bool) :=
  match f12enc (mant (f.get d.fid)) (expo (f.get d.fid)) with
  | none => .error (f12Error d.fid d.unit (f.get d.fid))
  | some c => .ok (bitsOf 12 c)

/-- D16 in `enc` mode (43_table_codec.md R172). -/
def encD16 (f : TableFile) (d : Desc) : Except ErrData (List Bool) :=
  match d16enc (mant (f.get d.fid)) (expo (f.get d.fid)) with
  | none => .error (d16Error d.fid d.unit (f.get d.fid))
  | some c => .ok (bitsOf 16 c)

/-- STR in `enc` mode: the model string, NUL-padded to N bytes (43_table_codec.md R173). -/
def encStr (f : TableFile) (d : Desc) : List Bool :=
  bitsOfBytes ((List.range d.n).map fun i => (strOf (f.get 2)).getD i 0)

/-- The unit a quad's value is reported with: 8 (%) for a voltage adjustment, 3 (°) for a phase adjustment
(43_table_codec.md R174). -/
def quadUnit (i : Nat) : Nat := if i % 2 = 0 then 8 else 3

/-- One of a quad's four counts (43_table_codec.md R174). -/
def quadCount (f : TableFile) (d : Desc) (i : Nat) : Except ErrData Int :=
  match fixOf (f.get (d.fid + i)) 10 true d.sm d.se with
  | none => .error (fixError (d.fid + i) (quadUnit i) (f.get (d.fid + i)) 10 true d.sm d.se)
  | some n => .ok n

/-- QUAD in `enc` mode (43_table_codec.md R174). -/
def encQuad (f : TableFile) (d : Desc) : Except ErrData (List Bool) := do
  let n0 ← quadCount f d 0
  let n1 ← quadCount f d 1
  let n2 ← quadCount f d 2
  let n3 ← quadCount f d 3
  return bitsOf 40 (qpack n0 n1 n2 n3)

/-- The bits a descriptor other than SW and END puts, in `enc` mode (43_table_codec.md R170 to R174). -/
def encField (v : Nat) (f : TableFile) (k : DescKind) (d : Desc) : Except ErrData (List Bool) :=
  match k with
  | .int => encInt v f d
  | .fxu => encFix false f d
  | .fxs => encFix true f d
  | .f12 => encF12 f d
  | .d16 => encD16 f d
  | .str => .ok (encStr f d)
  | .rsv => .ok (bitsOf d.n 0)
  | .quad => encQuad f d
  | .sw | .endK => .ok []

/-- END in `enc` mode: zero-pad the body to `BODYLEN(v)` (43_table_codec.md R175). -/
def encEnd (v : Nat) (bits : List Bool) : Except Stop (List Bool) :=
  if 8 * Config.bodyLen v < bits.length then
    .error (.error (unsupported 6 63 (wordOfNat (bits.length / 8)) (wordOfNat (Config.bodyLen v))))
  else .ok (bits ++ List.replicate (8 * Config.bodyLen v - bits.length) false)

/-- The walk in `enc` mode from the ROM address `dpc`, with `bits` already put (43_table_codec.md R167): the body's bits. The
first argument bounds the descriptors of a walk by `ROM_WORDS` (70_reset_and_hazards.md R326). -/
def encWalk (v : Nat) (f : TableFile) : Nat → Nat → List Bool → Except Stop (List Bool)
  | 0, _, _ => .error .illFormed
  | fuel + 1, dpc, bits =>
    match kindOf (rom dpc) with
    | none => .error .illFormed
    | some .endK => encEnd v bits
    | some .sw =>
      match blkTab v (f.get 4).toNat with
      | none => .error .illFormed
      | some a => encWalk v f fuel a bits
    | some k =>
      match encField v f k (descOf (rom dpc)) with
      | .error e => .error (.error e)
      | .ok bs => encWalk v f fuel (dpc + 1) (bits ++ bs)

/-- The bytes of the model field: 4 up to version 3, 8 from version 4 on (43_table_codec.md R191). -/
def modelLen (v : Nat) : Nat := if v ≤ 3 then 4 else 8

/-- `val(F[k]) ≠ 0` of a DEC entry. -/
def decNonzero (f : TableFile) (k : Nat) : Bool := mant (f.get k) != 0

/-- RESISTANCE (43_table_codec.md R191, order 4). -/
def resistanceError (v : Nat) (f : TableFile) : Option ErrData :=
  if v = 1 ∧ decNonzero f 5 then some (unsupported 4 5 (f.get 5))
  else if v = 1 ∧ decNonzero f 6 then some (unsupported 4 6 (f.get 6))
  else none

/-- NTC_FORM (43_table_codec.md R191, order 5). -/
def ntcFormError (v : Nat) (f : TableFile) : Option ErrData :=
  if f.get 4 ≠ 5 then none
  else if v ≤ 3 then
    if decNonzero f 30 then some (unsupported 5 30 (f.get 30))
    else if decNonzero f 31 then some (unsupported 5 31 (f.get 31))
    else none
  else if decNonzero f 32 then some (unsupported 5 32 (f.get 32))
  else none

/-- The checks 1 to 5 that ENCODE makes before it writes a bit, in order (43_table_codec.md R191): the first that fails. -/
def encodeCheck (v : Nat) (f : TableFile) : Option ErrData :=
  if v < 1 ∨ Config.maxv < v then some (unsupportedVersion v)
  else if 6 < (f.get 4).toNat then some (unsupported 2 4 (f.get 4))
  else if modelLen v < (strOf (f.get 2)).length then some (unsupported 3 2 (wordOfNat (strOf (f.get 2)).length))
  else (resistanceError v f).or (ntcFormError v f)

/-- The body of a table at version `v`, or why there is none (43_table_codec.md R196). -/
def encodeBody (v : Nat) (f : TableFile) : Except Stop (List Byte) :=
  match encodeCheck v f with
  | some e => .error (.error e)
  | none =>
    match hdrTab v with
    | none => .error .illFormed
    | some a => (encWalk v f Config.romWords a []).map bytesOfBits

/-- ENCODE (43_table_codec.md R196). -/
def execEncode (v : Nat) (s : State) : Outcome :=
  match encodeBody v s.f with
  | .ok body => complete { s with tb := Buffer.ofBytes body }
  | .error (.error e) => raise s e
  | .error .illFormed => .refused .illFormedLayout

/-- FXU and FXS in `dec` mode: the word always has the descriptor's exponent (43_table_codec.md R171). -/
def decFix (sg : Bool) (d : Desc) (r : Nat) : Word := unfixOf r d.n sg d.sm d.se

/-- STR in `dec` mode: the bytes before the first zero byte (43_table_codec.md R173). -/
def decStr (bits : List Bool) : Word := wordOfStr ((bytesOfBits bits).takeWhile (· != 0))

/-- QUAD in `dec` mode (43_table_codec.md R174). -/
def decQuad (g : TableFile) (d : Desc) (q : Nat) : TableFile :=
  let (a, b, c, e) := qunpack q
  (((g.put d.fid (dec (a * d.sm) d.se)).put (d.fid + 1) (dec (b * d.sm) d.se)).put (d.fid + 2) (dec (c * d.sm) d.se)).put
    (d.fid + 3) (dec (e * d.sm) d.se)

/-- How many bits a descriptor other than SW and END gets (30_encoding.md R75). -/
def fieldBits (k : DescKind) (d : Desc) : Nat :=
  match k with
  | .int | .fxu | .fxs | .rsv => d.n
  | .f12 => 12
  | .d16 => 16
  | .str => 8 * d.n
  | .quad => 40
  | .sw | .endK => 0

/-- What a descriptor other than SW and END stores of the bits it gets, in `dec` mode (43_table_codec.md R170 to R174). -/
def decField (g : TableFile) (k : DescKind) (d : Desc) (bits : List Bool) : TableFile :=
  match k with
  | .int => g.put d.fid (wordOfNat (bitsVal bits))
  | .fxu => g.put d.fid (decFix false d (bitsVal bits))
  | .fxs => g.put d.fid (decFix true d (bitsVal bits))
  | .f12 => g.put d.fid (f12dec (bitsVal bits))
  | .d16 => g.put d.fid (d16dec (bitsVal bits))
  | .str => g.put 2 (decStr bits)
  | .quad => decQuad g d (bitsVal bits)
  | .rsv | .sw | .endK => g

/-- The walk in `dec` mode from the ROM address `dpc`, with the shadow table `g` so far and the body bits not yet got
(43_table_codec.md R167). -/
def decWalk (v : Nat) : Nat → Nat → TableFile → List Bool → Except Stop TableFile
  | 0, _, _, _ => .error .illFormed
  | fuel + 1, dpc, g, bits =>
    match kindOf (rom dpc) with
    | none => .error .illFormed
    | some .endK => .ok g
    | some .sw =>
      if 6 < (g.get 4).toNat then .error (.error (unsupported 2 4 (g.get 4)))
      else
        match blkTab v (g.get 4).toNat with
        | none => .error .illFormed
        | some a => decWalk v fuel a g bits
    | some k =>
      let d := descOf (rom dpc)
      decWalk v fuel (dpc + 1) (decField g k d (bits.take (fieldBits k d))) (bits.drop (fieldBits k d))

/-- The table of a body of version `v`, or why there is none: the shadow table starts from the defaults
(43_table_codec.md R202, R203). -/
def decodeBody (v : Nat) (body : List Byte) : Except Stop TableFile :=
  match hdrTab v with
  | none => .error .illFormed
  | some a => decWalk v Config.romWords a TableFile.default (bitsOfBytes body)

/-- DECODE (43_table_codec.md R203). -/
def execDecode (s : State) : Outcome :=
  let v := (s.tb.mem.read 0).toNat
  if s.tb.len = 0 then raise s (frameLength 1 0)
  else if v < 1 ∨ Config.maxv < v then raise s (unsupportedVersion v)
  else if s.tb.len < Config.bodyLen v then raise s (frameLength (Config.bodyLen v) s.tb.len)
  else
    match decodeBody v (s.tb.mem.bytes (Config.bodyLen v)) with
    | .ok g => complete { s with f := g }
    | .error (.error e) => raise s e
    | .error .illFormed => .refused .illFormedLayout

/-- TGET (43_table_codec.md R207). -/
def execTget (rd : Reg) (fid : Nat) (s : State) : Outcome :=
  if 36 < fid then raise s (illegalOperand 3 (wordOfNat fid))
  else complete (s.writeX rd (s.f.get fid))

/-- TSET (43_table_codec.md R208): the value is stored unchecked. -/
def execTset (ra : Reg) (fid : Nat) (s : State) : Outcome :=
  if 36 < fid then raise s (illegalOperand 3 (wordOfNat fid))
  else complete { s with f := s.f.put fid (s.readX ra) }

/-- TDEF (43_table_codec.md R209). -/
def execTdef (s : State) : Outcome := complete { s with f := TableFile.default }

end Sys2Proof.Machine
end

