-- ==== Sys2Proof/Machine/Waveform.lean ====
section
/-! DEFINITION. The waveform decoder (44_waveform_decoder.md): seeking, locking, the locked step, the ByteDecoder, WDINIT, WDSAMP,
WDGETB. -/

namespace Sys2Proof.Machine

/-- What a sample completed, MG's `add_sample` return value (44_waveform_decoder.md R222). -/
inductive SampleResult where
  | nothing
  | lock
  | byte
deriving DecidableEq, Repr

/-- The result in `x[rd]`: -1, 1 or 0 (30_encoding.md R85). -/
def SampleResult.word : SampleResult → Word
  | .nothing => 0
  | .lock => 0xFFFFFFFFFFFFFFFF
  | .byte => 1

/-- `pol(a, s, n)`: the amplitude is strictly above the mean `s/n` (44_waveform_decoder.md R220). -/
def pol (a s : Int) (n : Nat) : Bool := decide (s < a * n)

/-- The times of the zero-crossings of a window against the mean `s/n`, oldest first, each the time of the later sample; `p` is
the polarity of the sample before the window's first (44_waveform_decoder.md R220). -/
def crossingsFrom (s : Int) (n : Nat) (p : Bool) : List Sample → List Nat
  | [] => []
  | x :: rest =>
    let q := pol x.val s n
    if q = p then crossingsFrom s n q rest else x.ts :: crossingsFrom s n q rest

/-- The times of the zero-crossings of a window against the mean `s/n`, oldest first (44_waveform_decoder.md R220). -/
def crossings (s : Int) (n : Nat) : List Sample → List Nat
  | [] => []
  | x :: rest => crossingsFrom s n (pol x.val s n) rest

/-- What a start symbol commits at lock (44_waveform_decoder.md R233). -/
structure LockData where
  period : Nat
  tol : Nat
  /-- `c[14]`, the start of the eighth start-symbol cell -/
  start : Nat
  /-- `c[15]`, the newest crossing -/
  last : Nat
deriving DecidableEq, Repr

/-- Every cell interval `c[2k+2] - c[2k]` is within `tol` of `period` (44_waveform_decoder.md R229). -/
def cellsConsistent (c : List Nat) (period tol : Int) : Bool :=
  (List.range 7).all fun k =>
    decide ((((c.getD (2 * k + 2) 0 : Int) - (c.getD (2 * k) 0 : Int) - period).natAbs : Int) ≤ tol)

/-- The interval of `QUIET_PERIODS` periods before the first crossing `c0`: the window reaches back to it and no older crossing
lies in it (44_waveform_decoder.md R230). -/
def quietBefore (t0 : Nat) (c0 period : Int) (older : List Nat) : Bool :=
  let q : Int := c0 - Config.quietPeriods * period
  decide ((t0 : Int) ≤ q) && older.all fun t => decide ((t : Int) < q)

/-- The tests of a start symbol on the crossings `c[0..15]`, the older crossings and the oldest timestamp `t0` of the window
(44_waveform_decoder.md R223, R226 to R230). -/
def startSymbol (wd : Wd) (t0 : Nat) (c older : List Nat) : Option LockData :=
  let c0 : Int := c.getD 0 0
  let c14 : Int := c.getD 14 0
  let c15 : Int := c.getD 15 0
  let period : Int := (c14 - c0) / 7
  let tol : Int := max (period / Config.tolDiv) wd.ts12
  if c15 - c0 ≤ wd.maxdur ∧ wd.pmin ≤ period ∧ cellsConsistent c period tol ∧ quietBefore t0 c0 period older then
    some { period := period.toNat, tol := tol.toNat, start := c.getD 14 0, last := c.getD 15 0 }
  else none

/-- The newest sample is a zero-crossing: its polarity differs from the one before it (44_waveform_decoder.md R223). -/
def newestCrosses (wd : Wd) : Bool :=
  match wd.win.reverse with
  | y :: x :: _ => pol y.val wd.sum wd.win.length != pol x.val wd.sum wd.win.length
  | _ => false

/-- The scan of the window for a start symbol, all polarities against the mean of the window as it is now
(44_waveform_decoder.md R223): what to lock on, or none. -/
def seekScan (wd : Wd) : Option LockData :=
  if newestCrosses wd then
    let all := crossings wd.sum wd.win.length wd.win
    if all.length < Config.startZc then none
    else
      startSymbol wd ((wd.win.head?.map Sample.ts).getD 0) (all.drop (all.length - Config.startZc))
        (all.take (all.length - Config.startZc))
  else none

/-- Lock acquired (44_waveform_decoder.md R233). -/
def acquireLock (s : State) (d : LockData) : State :=
  { s with
    wd := { s.wd with
      mode := .locked, lsum := s.wd.sum, lcnt := s.wd.win.length
      prevpol := pol ((s.wd.win.getLast?.map Sample.val).getD 0) s.wd.sum s.wd.win.length
      period := wordOfNat d.period, tol := wordOfNat d.tol, start := d.start, last := d.last, par := true, skip := true }
    bd := Bd.reset
    status := { s.status with wdrdy := false, wdovr := false } }

/-- seek_step (44_waveform_decoder.md R223). -/
def seekStep (s : State) : State × SampleResult :=
  match seekScan s.wd with
  | some d => (acquireLock s d, .lock)
  | none => (s, .nothing)

/-- add_bit, the ByteDecoder (44_waveform_decoder.md R239): the loop body of the unstuffer on one bit. -/
def addBit (s : State) (b : Bool) : State × SampleResult :=
  match destuffBit s.bd.run b with
  | (run, none) => ({ s with bd := { s.bd with run := run } }, .nothing)
  | (run, some d) =>
    let byte : Byte := s.bd.byte <<< 1 ||| (BitVec.ofBool d).setWidth 8
    if s.bd.nbits + 1 = 8 then
      ({ s with
          bd := { byte := 0, nbits := 0, run := run }
          wd := { s.wd with rxbyte := byte }
          status := { s.status with wdrdy := true, wdovr := s.status.wdovr || s.status.wdrdy } }, .byte)
    else ({ s with bd := { byte := byte, nbits := s.bd.nbits + 1, run := run } }, .nothing)

/-- No edge for more than `LOCKLOSS_PERIODS` periods at time `ts` (44_waveform_decoder.md R237). -/
def lockLost (wd : Wd) (ts : Nat) : Bool :=
  decide ((Config.locklossPeriods * wd.period.toNat : Int) < (ts : Int) - wd.last)

/-- An edge at time `ts` is early: inside the current cell, a mid-cell edge (44_waveform_decoder.md R236). -/
def edgeIsEarly (wd : Wd) (ts : Nat) : Bool :=
  decide ((ts : Int) < (wd.start : Int) + wd.period.toNat - wd.tol.toNat)

/-- Lock lost: the cell in flight is closed, unless it is the start symbol's last, and the mode is SEEK
(44_waveform_decoder.md R237). -/
def loseLock (s : State) : State × SampleResult :=
  let r := if s.wd.skip then (s, SampleResult.nothing) else addBit s s.wd.par
  ({ r.1 with wd := { r.1.wd with mode := .seek } }, r.2)

/-- locked_step (44_waveform_decoder.md R234). -/
def lockedStep (s : State) (ts : Nat) (a : Int) : State × SampleResult :=
  if lockLost s.wd ts then loseLock s
  else
    let pl := pol a s.wd.lsum s.wd.lcnt
    if pl = s.wd.prevpol then (s, .nothing)
    else if edgeIsEarly s.wd ts then
      ({ s with wd := { s.wd with prevpol := pl, last := ts, par := !s.wd.par } }, .nothing)
    else if s.wd.skip then
      ({ s with wd := { s.wd with prevpol := pl, last := ts, start := ts, par := false, skip := false } }, .nothing)
    else
      addBit { s with wd := { s.wd with prevpol := pl, last := ts, start := ts, par := false } } s.wd.par

/-- The sample enters the window; a full window gives up its oldest pair (44_waveform_decoder.md R221), and the sum stays the sum
of the window (10_state.md R37). DEDUCED (log entry 15): at sample 350 of R243's scenario this gives -110000, where R243's text
says -108000; the model follows R221. -/
def pushSample (wd : Wd) (x : Sample) : Wd :=
  match wd.win with
  | old :: rest =>
    if wd.win.length = wd.w.toNat then { wd with win := rest ++ [x], sum := wd.sum - old.val + x.val }
    else { wd with win := wd.win ++ [x], sum := wd.sum + x.val }
  | [] => { wd with win := [x], sum := wd.sum + x.val }

/-- The timestamp does not exceed that of the newest pair of the window: the sample is dropped (44_waveform_decoder.md R221). -/
def stale (wd : Wd) (ts : Nat) : Bool :=
  match wd.win.getLast? with
  | some y => decide (ts ≤ y.ts)
  | none => false

/-- One sample into the window, then the step of the mode (44_waveform_decoder.md R221). -/
def addSample (s : State) (x : Sample) : State × SampleResult :=
  let s' := { s with wd := pushSample s.wd x }
  match s'.wd.mode with
  | .seek => seekStep s'
  | .locked => lockedStep s' x.ts x.val

/-- WDINIT's configuration of the decoder; everything else of it is at its reset value (44_waveform_decoder.md R218). -/
def wdConfigured (fs tps : Word) : Wd :=
  { Wd.reset with
    fs := fs, tps := tps
    w := BitVec.ofNat 16 (ceilDiv ((Config.startCells + Config.quietPeriods) * fs.toNat) Config.slowHz)
    maxdur := Config.startCells * tps.toNat / Config.slowHz
    ts12 := ceilDiv (Config.tolTsNum * tps.toNat) (Config.tolTsDen * fs.toNat)
    pmin := max 1 (ceilDiv tps.toNat Config.fastHz) }

/-- WDINIT's operands are refused: `fs` < 1, `tps` < `fs`, or a window above `W_MAX` (44_waveform_decoder.md R218). -/
def wdRefuses (fs tps : Word) : Bool :=
  decide (fs.toNat < 1) || decide (tps.toNat < fs.toNat)
    || decide (Config.wMax < ceilDiv ((Config.startCells + Config.quietPeriods) * fs.toNat) Config.slowHz)

/-- WDINIT (44_waveform_decoder.md R218). -/
def execWdinit (ra rb : Reg) (s : State) : Outcome :=
  let fs := s.readX ra
  let tps := s.readX rb
  if wdRefuses fs tps then raise s (illegalOperand 6 fs tps)
  else
    complete { s with
      wd := wdConfigured fs tps, bd := Bd.reset
      status := { s.status with wdini := true, wdrdy := false, wdovr := false } }

/-- WDSAMP (44_waveform_decoder.md R221). -/
def execWdsamp (rd ra rb : Reg) (s : State) : Outcome :=
  if s.status.wdini = false then raise s { kind := .decoderNotInit }
  else
    let ts := (s.readX ra).toNat
    if stale s.wd ts then complete (s.writeX rd 0)
    else
      let r := addSample s { ts := ts, val := amplitude (s.readX rb) }
      complete (r.1.writeX rd r.2.word)

/-- WDGETB (44_waveform_decoder.md R242): the received byte, or None, all ones (30_encoding.md R86). -/
def execWdgetb (rd : Reg) (s : State) : Outcome :=
  if s.status.wdrdy then
    complete ({ s with status := { s.status with wdrdy := false } }.writeX rd (s.wd.rxbyte.setWidth Config.xlen))
  else complete (s.writeX rd 0xFFFFFFFFFFFFFFFF)

end Sys2Proof.Machine
end

