-- ==== Sys2Proof/Machine/Dispatch.lean ====
section
/-! DEFINITION. The meaning of every command: one arm per constructor of Instr. -/

namespace Sys2Proof.Machine

def exec (i : Instr) (s : State) : Host.Outcome State Fault Refusal :=
  match i with
  | .nop => Sys2Proof.Machine.execNop s
  | .clrerr => Sys2Proof.Machine.execClrerr s
  | .srst => Sys2Proof.Machine.execSrst s
  | .li rd simm => Sys2Proof.Machine.execLi rd simm s
  | .mkdec rd ra e => Sys2Proof.Machine.execMkdec rd ra e s
  | .rdsr rd sr => Sys2Proof.Machine.execRdsr rd sr s
  | .wrsr ra sr => Sys2Proof.Machine.execWrsr ra sr s
  | .clrb b => Sys2Proof.Machine.execClrb b s
  | .pushb ra b => Sys2Proof.Machine.execPushb ra b s
  | .ldb rd ra b off => Sys2Proof.Machine.execLdb rd ra b off s
  | .stb ra rb b off => Sys2Proof.Machine.execStb ra rb b off s
  | .lenb rd b => Sys2Proof.Machine.execLenb rd b s
  | .fix rd ra rb bits sg => Sys2Proof.Machine.execFix rd ra rb bits sg s
  | .unfix rd ra rb bits sg => Sys2Proof.Machine.execUnfix rd ra rb bits sg s
  | .f12enc rd ra => Sys2Proof.Machine.execF12enc rd ra s
  | .f12dec rd ra => Sys2Proof.Machine.execF12dec rd ra s
  | .d16enc rd ra => Sys2Proof.Machine.execD16enc rd ra s
  | .d16dec rd ra => Sys2Proof.Machine.execD16dec rd ra s
  | .s10 rd ra => Sys2Proof.Machine.execS10 rd ra s
  | .qpack rd ra => Sys2Proof.Machine.execQpack rd ra s
  | .qunpack rd ra => Sys2Proof.Machine.execQunpack rd ra s
  | .stuff => Sys2Proof.Machine.execStuff s
  | .unstuff => Sys2Proof.Machine.execUnstuff s
  | .crc8 rd ra => Sys2Proof.Machine.execCrc8 rd ra s
  | .crc16 rd ra => Sys2Proof.Machine.execCrc16 rd ra s
  | .frgen => Sys2Proof.Machine.execFrgen s
  | .frchk => Sys2Proof.Machine.execFrchk s
  | .encode v => Sys2Proof.Machine.execEncode v s
  | .decode => Sys2Proof.Machine.execDecode s
  | .tget rd fid => Sys2Proof.Machine.execTget rd fid s
  | .tset ra fid => Sys2Proof.Machine.execTset ra fid s
  | .tdef => Sys2Proof.Machine.execTdef s
  | .wdinit ra rb => Sys2Proof.Machine.execWdinit ra rb s
  | .wdsamp rd ra rb => Sys2Proof.Machine.execWdsamp rd ra rb s
  | .wdgetb rd => Sys2Proof.Machine.execWdgetb rd s

end Sys2Proof.Machine
end

