-- ==== Sys2Proof/Machine/Ports.lean ====
section
/-! DEFINITION. The host's moves at the ports (70_reset_and_hazards.md R328), between commands: what each does to CTIDC. -/

namespace Sys2Proof.Machine

/-- IllegalCommand: the word, zero-extended; nothing else happens (60_exceptions.md R288). -/
def illegalCommand (w : Word32) : ErrData := { kind := .illegalCommand, i0 := w.setWidth Config.xlen }

/-- HostIssue: a word that is a command runs it; any other word raises IllegalCommand (30_encoding.md R71). -/
def issue (w : Word32) (s : State) : Outcome :=
  match decode w with
  | .ok i => exec i s
  | .error _ => raise s (illegalCommand w)

/-- HostReadX: what `x_rdata` drives while `x_sel` is `i` (10_state.md R41). -/
def State.hostReadX (s : State) (i : Reg) : State := { s with seen := .x i (s.readX i) :: s.seen }

/-- HostReadStatus: what `status` and `irq` drive (10_state.md R41). -/
def State.hostReadStatus (s : State) : State := { s with seen := .status (statusWord s) (irq s) :: s.seen }

/-- One move of the host (70_reset_and_hazards.md R328); `s` is the state with the move taken. -/
def hostMove (m : HostMove) (s : State) : Outcome :=
  match m with
  | .reset => .next s.resetMachine
  | .writeX i v => .next (s.writeX i v)
  | .readX i => .next (s.hostReadX i)
  | .issue w => issue w s
  | .readStatus => .next s.hostReadStatus

end Sys2Proof.Machine
end

