-- ==== Sys2Proof/Machine/Step.lean ====
section
/-! DEFINITION. One step: the host's next move, or nothing while the host makes none. -/

namespace Sys2Proof.Machine

/-- One step of CTIDC: it takes the host's next move (70_reset_and_hazards.md R327, R328); with none to take it is idle and keeps
all state (R329). -/
def step (s : State) : Host.Outcome State Fault Refusal :=
  match s.moves with
  | [] => .next s
  | m :: rest => hostMove m { s with moves := rest }

/-- `s` with the host about to issue the command word whose low `nbits` bits are `w`, every higher bit 0. Commands are not
fetched (10_state.md R24): the command port is where the next command comes from. -/
def State.withFetchWord (s : State) (nbits w : Nat) : State :=
  { s with moves := .issue (BitVec.ofNat 32 (w % 2 ^ nbits)) :: s.moves }

end Sys2Proof.Machine
end

