-- ==== Sys2Proof/Safety.lean ====
section
/-! DEFINITION. What counts as a safe state, and the words the statements are written in: the state a command leaves when it
succeeds and when it raises, the value of a DEC, nearest-even rounding, the fields of a body, a start symbol in a window. They
are written from the spec, beside the machine's own functions and not over them. -/

namespace Sys2Proof.Machine

/-- The state with LAST 0, what a command leaves that ends without a raise and writes nothing (60_exceptions.md R284). -/
def succeeded (s : State) : State := { s with status := { s.status with busy := false, last := 0 } }

/-- The state a raise leaves (60_exceptions.md R284): `ERRC` is `K | (sub << 4) | (fid << 12) | (unit << 18)`. -/
def failed (s : State) (kind sub fid unit : Nat) (i0 i1 i2 : Word) : State :=
  { s with
    status := { s.status with busy := false, err := true, last := BitVec.ofNat 4 kind }
    errc := BitVec.ofNat 22 (kind ||| sub <<< 4 ||| fid <<< 12 ||| unit <<< 18)
    errinfo0 := i0, errinfo1 := i1, errinfo2 := i2 }

/-- The x registers of `t` are those of `s` but for `x[rd]`, which is `v`; `x0` reads 0 and no write to it counts
(10_state.md R22). -/
def WritesRegister (s t : State) (rd : Reg) (v : Word) : Prop :=
  ∀ r : Reg, t.readX r = if r = 0 then 0 else if r = rd then v else s.readX r

/-- `t` is `s` after a command that ended without a raise and wrote `v` to `x[rd]` and nothing else. -/
def GivesResult (s t : State) (rd : Reg) (v : Word) : Prop :=
  WritesRegister s t rd v ∧ t = { succeeded s with x := t.x }

/-- `t` is `s` after a command that ended without a raise and gave buffer `b` the length `n` and, at every index, the byte
`content` says, and wrote nothing else. -/
def GivesBuffer (s t : State) (b : Buf) (n : Nat) (content : Nat → Byte) : Prop :=
  (t.buf b).len = n ∧ (∀ a, (t.buf b).mem.read a = content a) ∧
    t = match b with
        | .tb => { succeeded s with tb := t.tb }
        | .sb => { succeeded s with sb := t.sb }

/-- The mantissa of a DEC word: bits [63:8] as a signed integer (00_scope.md R13). -/
def decMantissa (w : Word) : Int := (w.extractLsb' 8 56).toInt

/-- The exponent of a DEC word: bits [7:0] as a signed integer (00_scope.md R13). -/
def decExponent (w : Word) : Int := (w.extractLsb' 0 8).toInt

/-- `val(w)`, the rational a DEC word stands for (00_scope.md R13). -/
def decVal (w : Word) : ℚ := decMantissa w * 10 ^ decExponent w

/-- `DEC(m, e)` (00_scope.md R13). -/
def decWord (m e : Int) : Word := BitVec.ofInt 56 m ++ BitVec.ofInt 8 e

/-- `n` is `roundTie(q)`: the nearest integer, the even one of two equally near (00_scope.md R12). -/
def RoundsTo (q : ℚ) (n : Int) : Prop := |q - n| < 1 / 2 ∨ (|q - n| = 1 / 2 ∧ Even n)

/-- The scale of a descriptor, `SM × 10^SE` (30_encoding.md R74). -/
def Desc.scale (d : Desc) : ℚ := d.sm * 10 ^ d.se

/-- The header list of a version without its SW (43_table_codec.md R177 to R180). -/
def headerWords (v : Nat) : List Word32 :=
  (match v with
    | 1 => hdr1Words
    | 2 => hdr2Words
    | 3 => hdr3Words
    | _ => hdr45Words).dropLast

/-- The parameter-block list of a version and a sensor type without its END (43_table_codec.md R181 to R188). -/
def blockWords (v st : Nat) : List Word32 :=
  (if st ≤ 2 then (if v ≤ 2 then ctAWords else if v ≤ 4 then ctBWords else ctCWords)
    else if st ≤ 4 then linWords
    else if st = 5 then (if v ≤ 3 then ntcRWords else ntcNKWords)
    else pulseWords).dropLast

/-- The descriptor words of the fields of a body, in order (43_table_codec.md R167, R188). -/
def fieldWords (v st : Nat) : List Word32 := headerWords v ++ blockWords v st

/-- The table-file entries a descriptor word names (30_encoding.md R75; 43_table_codec.md R174). -/
def entriesOf (w : Word32) : List Nat :=
  match kindOf w with
  | some .int | some .fxu | some .fxs | some .f12 | some .d16 | some .str => [(descOf w).fid]
  | some .quad => [(descOf w).fid, (descOf w).fid + 1, (descOf w).fid + 2, (descOf w).fid + 3]
  | _ => []

/-- How many bits a descriptor word's field takes (30_encoding.md R75). -/
def widthOf (w : Word32) : Nat :=
  match kindOf w with
  | some k => fieldBits k (descOf w)
  | none => 0

/-- The rounded count of a DEC word fits a fixed-point field (40_numeric_codec.md R101). -/
def CountFits (value : Word) (bits : Nat) (sg : Bool) (scale : ℚ) : Prop :=
  ∃ n : Int, RoundsTo (decVal value / scale) n ∧ fixLo bits sg ≤ n ∧ n ≤ fixHi bits sg

/-- The value a descriptor word's entry holds fits its field (43_table_codec.md R170 to R174). -/
def WordFits (v : Nat) (f : TableFile) (w : Word32) : Prop :=
  let d := descOf w
  match kindOf w with
  | some .int => (if d.fid = 0 then v else (f.get d.fid).toNat) < 2 ^ d.n
  | some .fxu => CountFits (f.get d.fid) d.n false d.scale
  | some .fxs => CountFits (f.get d.fid) d.n true d.scale
  | some .f12 => 0 ≤ decVal (f.get d.fid) ∧ decVal (f.get d.fid) ≤ 10 ^ 7
  | some .d16 => ∃ n : Int, RoundsTo (decVal (f.get d.fid) / 10 ^ 15) n ∧ |n| ≤ 1023
  | some .quad => ∀ i, i < 4 → CountFits (f.get (d.fid + i)) 10 true d.scale
  | _ => True

/-- A table that version `v` can represent: the checks of 43_table_codec.md R191 pass and every value fits its field (R196). -/
def Encodable (v : Nat) (f : TableFile) : Prop :=
  1 ≤ v ∧ v ≤ 5 ∧ (f.get 4).toNat ≤ 6 ∧
    (v ≤ 3 → (strOf (f.get 2)).length ≤ 4) ∧
    (v = 1 → decVal (f.get 5) = 0 ∧ decVal (f.get 6) = 0) ∧
    (f.get 4 = 5 → if v ≤ 3 then decVal (f.get 30) = 0 ∧ decVal (f.get 31) = 0 else decVal (f.get 32) = 0) ∧
    ∀ w ∈ fieldWords v (f.get 4).toNat, WordFits v f w

/-- `c` is the float12 code of `q`: the least exponent whose rounded mantissa is at most 511 (40_numeric_codec.md R107;
30_encoding.md R77). -/
def IsF12Code (q : ℚ) (c : Nat) : Prop :=
  ∃ m e : Nat, c = 8 * m + e ∧ e ≤ 7 ∧ m ≤ 511 ∧ RoundsTo (q / 10 ^ e) m ∧
    ∀ k, k < e → ∀ j : Int, RoundsTo (q / 10 ^ k) j → 511 < j

/-- `c` is the decimal16 code of `q`: the least exponent from -16 to 15 whose rounded mantissa is within ±1023, a zero mantissa
as code 0 (40_numeric_codec.md R112; 30_encoding.md R78). -/
def IsD16Code (q : ℚ) (c : BitVec 16) : Prop :=
  ∃ m e : Int, c = (if m = 0 then 0 else BitVec.ofInt 11 m ++ BitVec.ofInt 5 e) ∧ -16 ≤ e ∧ e ≤ 15 ∧ |m| ≤ 1023 ∧
    RoundsTo (q / 10 ^ e) m ∧ ∀ k, -16 ≤ k → k < e → ∀ j : Int, RoundsTo (q / 10 ^ k) j → 1023 < |j|

/-- `bits` is what version `v` puts for a descriptor word's field of the table `f` (43_table_codec.md R170 to R174): an integer,
a rounded count in two's complement, a compact code, the model string padded with zero bytes, zeros, or four 10-bit counts. -/
def FieldHolds (v : Nat) (f : TableFile) (w : Word32) (bits : List Bool) : Prop :=
  let d := descOf w
  let value := decVal (f.get d.fid)
  match kindOf w with
  | some .int => bits = bitsOf d.n (if d.fid = 0 then v else (f.get d.fid).toNat)
  | some .fxu | some .fxs => ∃ n : Int, RoundsTo (value / d.scale) n ∧ bits = bitsOf d.n (BitVec.ofInt d.n n).toNat
  | some .f12 => ∃ c, IsF12Code value c ∧ bits = bitsOf 12 c
  | some .d16 => ∃ c, IsD16Code value c ∧ bits = bitsOf 16 c.toNat
  | some .str => bits = (List.range d.n).flatMap fun i => bitsOf 8 ((strOf (f.get 2)).getD i 0).toNat
  | some .rsv => bits = List.replicate d.n false
  | some .quad =>
    ∃ n : Fin 4 → Int, (∀ i : Fin 4, RoundsTo (decVal (f.get (d.fid + i)) / d.scale) (n i)) ∧
      bits = (List.finRange 4).flatMap fun i => bitsOf 10 (BitVec.ofInt 10 (n i)).toNat
  | _ => False

/-- The state ENCODE leaves when the value of a descriptor word's field does not fit (43_table_codec.md R170 to R174;
60_exceptions.md R282): RangeError with the entry, its unit, its value and the bounds; `i` is the place in a quad. -/
def misfitState (v : Nat) (s : State) (w : Word32) (i : Nat) : State :=
  let d := descOf w
  let value := s.f.get (d.fid + i)
  let bounded := fun (bits : Nat) (sg : Bool) (unit : Nat) =>
    failed s 1 0 (d.fid + i) unit value (decWord (fixLo bits sg * d.sm) d.se) (decWord (fixHi bits sg * d.sm) d.se)
  match kindOf w with
  | some .int =>
    failed s 1 16 d.fid 0 (BitVec.ofNat 64 (if d.fid = 0 then v else value.toNat)) 0 (BitVec.ofNat 64 (2 ^ d.n - 1))
  | some .fxu => bounded d.n false d.unit
  | some .fxs => bounded d.n true d.unit
  | some .f12 => failed s 1 0 d.fid d.unit value (decWord 0 0) (decWord 1 7)
  | some .d16 => failed s 1 0 d.fid d.unit value (decWord (-1023) 15) (decWord 1023 15)
  | some .quad => bounded 10 true (if i % 2 = 0 then 8 else 3)
  | _ => s

/-- The table `g` holds what DECODE reads from the bits of a descriptor word's field (43_table_codec.md R170 to R174): a
fixed-point word has the descriptor's exponent, a compact one the code's. -/
def FieldReads (g : TableFile) (w : Word32) (bits : List Bool) : Prop :=
  let d := descOf w
  let word := g.get d.fid
  match kindOf w with
  | some .int => word.toNat = bitsVal bits
  | some .fxu => word = decWord (bitsVal bits * d.sm) d.se
  | some .fxs => word = decWord (sx (bitsVal bits) d.n * d.sm) d.se
  | some .f12 => word = decWord (bitsVal (bits.take 9)) (bitsVal (bits.drop 9))
  | some .d16 => word = decWord (sx (bitsVal (bits.take 11)) 11) (sx (bitsVal (bits.drop 11)) 5)
  | some .str => g.get 2 = wordOfStr ((bytesOfBits bits).takeWhile (· != 0))
  | some .quad =>
    ∀ i, i < 4 → g.get (d.fid + i) = decWord (sx (bitsVal ((bits.drop (10 * i)).take 10)) 10 * d.sm) d.se
  | some .rsv => True
  | _ => False

/-- A descriptor word's field is compact: float12 or decimal16 (30_encoding.md R75). -/
def CompactField (w : Word32) : Prop := kindOf w = some .f12 ∨ kindOf w = some .d16

/-- The bits of the body of version `v` that `TB` holds. -/
def bodyBits (v : Nat) (s : State) : List Bool := bitsOfBytes (s.tb.mem.bytes (Config.bodyLen v))

/-- The bodies in `TB` have the same length and the same bits in every field that is not compact, and in the padding. -/
def SameBodyButCompact (v st : Nat) (s t : State) : Prop :=
  s.tb.len = t.tb.len ∧
    (∀ before w after, fieldWords v st = before ++ w :: after → ¬ CompactField w →
      ((bodyBits v s).drop (before.map widthOf).sum).take (widthOf w) =
        ((bodyBits v t).drop (before.map widthOf).sum).take (widthOf w)) ∧
    (bodyBits v s).drop ((fieldWords v st).map widthOf).sum = (bodyBits v t).drop ((fieldWords v st).map widthOf).sum

/-- The tables hold the same words but in the entries of compact fields, which hold the same values. -/
def SameTableValues (v st : Nat) (f g : TableFile) : Prop :=
  ∀ k, f.get k = g.get k ∨
    (∃ w ∈ fieldWords v st, CompactField w ∧ k ∈ entriesOf w) ∧ decVal (f.get k) = decVal (g.get k)

/-- The sensor type a body of version `v` carries: the high nibble of byte 11 up to version 2, byte 11 in version 3, byte 6 from
version 4 on (43_table_codec.md R189; 20_memory.md R53). -/
def codedSensorType (v : Nat) (m : Memory) : Nat :=
  if v ≤ 2 then (m.read 11).toNat / 16 else if v = 3 then (m.read 11).toNat else (m.read 6).toNat

/-- The checksum over the body of version `v`, zero-extended (42_crc_framing.md R150, R153). -/
def computedChecksum (v : Nat) (m : Memory) : Word :=
  if v = 1 then (crc8 (m.bytes 30)).setWidth 64 else (crc16 (m.bytes (Config.bodyLen v))).setWidth 64

/-- The checksum found in a frame of version `v`, the 16-bit one assembled high byte first (42_crc_framing.md R151, R153). -/
def foundChecksum (v : Nat) (m : Memory) : Word :=
  if v = 1 then (m.read 30).setWidth 64
  else (m.read (Config.bodyLen v)).setWidth 64 * 256 + (m.read (Config.bodyLen v + 1)).setWidth 64

/-- The error kinds a command can raise: the column "raised by" of 60_exceptions.md R281. -/
def errorKinds : Instr → List (BitVec 4)
  | .fix .. => [1, 9]
  | .f12enc .. | .d16enc .. | .qpack .. => [1]
  | .unfix .. | .mkdec .. | .rdsr .. | .wrsr .. | .tget .. | .tset .. | .wdinit .. => [9]
  | .pushb .. | .ldb .. | .stb .. | .crc8 .. | .crc16 .. | .stuff => [10]
  | .unstuff => [5, 10]
  | .frgen | .decode => [2, 4]
  | .frchk => [2, 3, 4]
  | .encode .. => [1, 4]
  | .wdsamp .. => [11]
  | .nop | .clrerr | .srst | .li .. | .clrb .. | .lenb .. | .f12dec .. | .d16dec .. | .s10 .. | .qunpack .. | .tdef
  | .wdgetb .. => []

/-- A command of the codec: it works on the x registers, the table file and the buffers (20_memory.md R65). -/
def isCodec : Instr → Bool
  | .nop | .clrerr | .srst | .li .. | .mkdec .. | .rdsr .. | .wrsr .. | .wdinit .. | .wdsamp .. | .wdgetb .. => false
  | .clrb .. | .pushb .. | .ldb .. | .stb .. | .lenb .. | .fix .. | .unfix .. | .f12enc .. | .f12dec .. | .d16enc ..
  | .d16dec .. | .s10 .. | .qpack .. | .qunpack .. | .stuff | .unstuff | .crc8 .. | .crc16 .. | .frgen | .frchk
  | .encode .. | .decode | .tget .. | .tset .. | .tdef => true

/-- The x registers a command names (30_encoding.md R72). -/
def registersOf : Instr → List Reg
  | .nop | .clrerr | .srst | .clrb _ | .stuff | .unstuff | .frgen | .frchk | .encode _ | .decode | .tdef => []
  | .li r _ | .rdsr r _ | .wrsr r _ | .pushb r _ | .lenb r _ | .tget r _ | .tset r _ | .wdgetb r => [r]
  | .mkdec rd ra _ | .ldb rd ra _ _ | .stb rd ra _ _ | .f12enc rd ra | .f12dec rd ra | .d16enc rd ra | .d16dec rd ra
  | .s10 rd ra | .qpack rd ra | .qunpack rd ra | .crc8 rd ra | .crc16 rd ra | .wdinit rd ra => [rd, ra]
  | .fix rd ra rb _ _ | .unfix rd ra rb _ _ | .wdsamp rd ra rb => [rd, ra, rb]

/-- `t` is `s` but for STATUS.ERR, STATUS.LAST and the error registers. -/
def SameButErrors (s t : State) : Prop :=
  t = { s with
        status := { s.status with err := t.status.err, last := t.status.last }
        errc := t.errc, errinfo0 := t.errinfo0, errinfo1 := t.errinfo1, errinfo2 := t.errinfo2 }

/-- The codes an error kind or `STATUS.LAST` can hold (60_exceptions.md R281). -/
def kindCodes : List (BitVec 4) := [0, 1, 2, 3, 4, 5, 8, 9, 10, 11]

/-- What holds at reset and after every step: the state keeps the shape 10_state.md gives it. -/
structure State.Inv (s : State) : Prop where
  /-- `x0` holds 0 (R22). -/
  zero : s.x[0] = 0
  /-- Between commands the machine is not busy (R27). -/
  idle : s.status.busy = false
  /-- `TB` is canonical, within its capacity, and zero at and above its length (R33). -/
  tb : s.tb.wf 64 = true
  /-- `SB` likewise (R33). -/
  sb : s.sb.wf 80 = true
  /-- LAST is 0 or an error kind (60_exceptions.md R281). -/
  lastCode : s.status.last ∈ kindCodes
  /-- KIND is 0 or an error kind (60_exceptions.md R281). -/
  kindCode : s.errc.extractLsb' 0 4 ∈ kindCodes
  /-- With no error unacknowledged the error registers are zero (R29). -/
  acknowledged : s.status.err = false → s.status.last = 0 ∧ s.errc = 0 ∧ s.errinfo0 = 0 ∧ s.errinfo1 = 0 ∧ s.errinfo2 = 0
  /-- An unacknowledged error has its kind in `ERRC` (R29). -/
  recorded : s.status.err = true → s.errc.extractLsb' 0 4 ≠ 0
  /-- A nonzero LAST is the kind in `ERRC` (60_exceptions.md R284). -/
  lastRecorded : s.status.last ≠ 0 → s.status.last = s.errc.extractLsb' 0 4
  /-- Before a WDINIT succeeds the decoder is as at reset (R42). -/
  noSession : s.status.wdini = false →
    s.wd = Wd.reset ∧ s.bd = Bd.reset ∧ s.status.wdrdy = false ∧ s.status.wdovr = false
  /-- The configuration is what WDINIT made of `fs` and `tps` (44_waveform_decoder.md R218). -/
  configured : s.status.wdini = true →
    1 ≤ s.wd.fs.toNat ∧ s.wd.fs.toNat ≤ s.wd.tps.toNat ∧
      s.wd.w.toNat = (9 * s.wd.fs.toNat + 319) / 320 ∧ s.wd.w.toNat ≤ 4096 ∧ s.wd.maxdur = s.wd.tps.toNat / 40 ∧
      s.wd.ts12 = (6 * s.wd.tps.toNat + (5 * s.wd.fs.toNat - 1)) / (5 * s.wd.fs.toNat) ∧
      s.wd.pmin = max 1 ((s.wd.tps.toNat + 959) / 960)
  /-- The window: at most `wd.W` pairs, `wd.sum` the sum of their values, timestamps rising, each pair within its width (R37). -/
  window : s.wd.win.length ≤ s.wd.w.toNat ∧ s.wd.sum = (s.wd.win.map Sample.val).sum ∧
    s.wd.win.Pairwise (fun x y => x.ts < y.ts) ∧
    ∀ x ∈ s.wd.win, x.ts < 2 ^ 64 ∧ -2 ^ 31 ≤ x.val ∧ x.val < 2 ^ 31
  /-- While locked: the recovered clock is within its tests, the committed mean is that of a full start symbol, and the times of
  the last edges lie in order (44_waveform_decoder.md R223, R233). -/
  lock : s.wd.mode = .locked →
    s.status.wdini = true ∧ s.wd.pmin ≤ s.wd.period.toNat ∧ 7 * s.wd.period.toNat ≤ s.wd.maxdur ∧
      s.wd.tol.toNat = max (s.wd.period.toNat / 4) s.wd.ts12 ∧ s.wd.start ≤ s.wd.last ∧
      (∃ y, s.wd.win.getLast? = some y ∧ s.wd.last ≤ y.ts) ∧
      16 < s.wd.lcnt ∧ s.wd.lcnt ≤ 4096 ∧ s.wd.lsum.natAbs ≤ s.wd.lcnt * 2 ^ 31
  /-- The ByteDecoder holds at most 7 bits and a run of at most 7 (R39). -/
  byteDecoder : s.bd.nbits ≤ 7 ∧ s.bd.run ≤ 7 ∧ s.bd.byte.toNat < 2 ^ s.bd.nbits

/-- The window after the pair `x` (44_waveform_decoder.md R221): a full window loses its oldest pair. -/
def windowAfter (wd : Wd) (x : Sample) : List Sample :=
  (if wd.win.length = wd.w.toNat then wd.win.tail else wd.win) ++ [x]

/-- The decoder after a sample that changes nothing but the window. -/
def windowed (wd : Wd) (x : Sample) : Wd :=
  { wd with win := windowAfter wd x, sum := ((windowAfter wd x).map Sample.val).sum }

/-- The sample WDSAMP reads from two registers (30_encoding.md R84). -/
def sampleOf (s : State) (ra rb : Reg) : Sample :=
  { ts := (s.readX ra).toNat, val := ((s.readX rb).extractLsb' 0 32).toInt }

/-- A zero-crossing between samples `i` - 1 and `i` of a window against the mean `sum / length` (44_waveform_decoder.md R220). -/
def CrossesAt (win : List Sample) (sum : Int) (i : Nat) : Prop :=
  ∃ x y, 0 < i ∧ win[i - 1]? = some x ∧ win[i]? = some y ∧
    ¬ (sum < x.val * win.length ↔ sum < y.val * win.length)

/-- The timestamp of sample `i` of a window. -/
def timeAt (win : List Sample) (i : Nat) : Nat := (win[i]?.map Sample.ts).getD 0

/-- The crossings at `j 0`, …, `j 15` are the 16 newest of the window, the last of them at the newest sample, and pass every test
of a start symbol (44_waveform_decoder.md R223, R226 to R230). -/
def StartSymbolAt (wd : Wd) (win : List Sample) (sum : Int) (j : Fin 16 → Nat) : Prop :=
  let c := fun k => timeAt win (j k)
  let period := (c 14 - c 0) / 7
  let tol := max (period / 4) wd.ts12
  StrictMono j ∧ (∀ k, CrossesAt win sum (j k)) ∧ j 15 + 1 = win.length ∧
    (∀ i, CrossesAt win sum i → (∃ k, j k = i) ∨ i < j 0) ∧
    c 15 - c 0 ≤ wd.maxdur ∧ wd.pmin ≤ period ∧
    (∀ k : Fin 7, c ⟨2 * k + 2, by omega⟩ ≤ c ⟨2 * k, by omega⟩ + period + tol ∧
      c ⟨2 * k, by omega⟩ + period ≤ c ⟨2 * k + 2, by omega⟩ + tol) ∧
    timeAt win 0 + period ≤ c 0 ∧ (∀ i, CrossesAt win sum i → i < j 0 → timeAt win i + period < c 0)

/-- What add_bit does with the bit `b` (44_waveform_decoder.md R239), `r` being the result of the sample: the run of 1s, the
shift accumulator, the receive register and the byte flags. -/
def DeliversBit (b : Bool) (s t : State) (r : Word) : Prop :=
  let run := if b then s.bd.run + 1 else 0
  if s.bd.run = 7 then
    t.bd = { s.bd with run := 0 } ∧ t.wd.rxbyte = s.wd.rxbyte ∧
      t.status.wdrdy = s.status.wdrdy ∧ t.status.wdovr = s.status.wdovr ∧ r = 0
  else if s.bd.nbits = 7 then
    t.bd = { byte := 0, nbits := 0, run := run } ∧ t.wd.rxbyte = BitVec.ofNat 8 (2 * s.bd.byte.toNat + b.toNat) ∧
      t.status.wdrdy = true ∧ t.status.wdovr = (s.status.wdovr || s.status.wdrdy) ∧ r = 1
  else
    t.bd = { byte := BitVec.ofNat 8 (2 * s.bd.byte.toNat + b.toNat), nbits := s.bd.nbits + 1, run := run } ∧
      t.wd.rxbyte = s.wd.rxbyte ∧ t.status.wdrdy = s.status.wdrdy ∧ t.status.wdovr = s.status.wdovr ∧ r = 0

/-- The bytes the ByteDecoder completes while bits come in (44_waveform_decoder.md R239). -/
def receivedBytes (s : State) : List Bool → List Byte
  | [] => []
  | b :: rest =>
    if (addBit s b).2 = .byte then (addBit s b).1.wd.rxbyte :: receivedBytes (addBit s b).1 rest
    else receivedBytes (addBit s b).1 rest

end Sys2Proof.Machine
end

