-- ==== Sys2Proof/Certificates/Slice0/Obligations.lean ====
section
/-! DEFINITION. The statements for the provers. Each names the rules of spec/ it formalises; one that rests on a choice of the
model says which log entry. A statement whose conclusion is `exec i s = .next t` says where the command completes. -/

open Sys2Proof Sys2Proof.Machine

/-! ### Command words (30_encoding.md) -/

/-- Words of 95_test_vectors.md, written out field by field, decode to the commands they stand for (R70 to R73). -/
def Obligations.CommandWordsDecode : Prop :=
  decode 0x00000000 = .ok .nop ∧ decode 0x80000103 = .ok (.li 1 (-2048)) ∧ decode 0x08001204 = .ok (.mkdec 2 1 (-128)) ∧
    decode 0x8FF00212 = .ok (.ldb 2 0 .sb 255) ∧ decode 0x00021013 = .ok (.stb 1 2 .tb 0) ∧
    decode 0x05021320 = .ok (.fix 3 1 2 16 true) ∧ decode 0x00500040 = .ok (.encode 5) ∧
    decode 0x00700642 = .ok (.tget 6 7) ∧ decode 0x00076351 = .ok (.wdsamp 3 6 7) ∧
    decode 0xFFFFFFFF = .error .undefinedOpcode ∧ decode 0x00000100 = .error .unusedNonzero

/-- Every well-formed command decodes from its own word, with every operand at every value the encoding admits (R70 to R73). -/
def Obligations.DecodeOfEncode : Prop :=
  ∀ i : Instr, i.wellFormed = true → decode (encode i) = .ok i

/-- No word but a command's own decodes to it: an undefined OP or a nonzero bit in an unused field is refused (R71). -/
def Obligations.DecodeAcceptsOnlyEncodings : Prop :=
  ∀ (w : Word32) (i : Instr), decode w = .ok i → i.wellFormed = true ∧ encode i = w

/-! ### The step and the host's moves -/

/-- A step on the issue of a word runs the command the word stands for; a word that is none raises IllegalCommand with the word
in ERRINFO0 and has no other effect (R71; 60_exceptions.md R288). That the next word is the next of `moves` is log entry 1. -/
def Obligations.StepRunsDecodedCommand : Prop :=
  ∀ (s : State) (w : Word32) (rest : List HostMove), s.moves = .issue w :: rest →
    (∀ i, decode w = .ok i → step s = exec i { s with moves := rest }) ∧
    (∀ e, decode w = .error e → step s = .next (failed { s with moves := rest } 8 0 63 0 (w.setWidth 64) 0 0))

/-- A word placed for the next step is the command the next step runs (log entry 1). -/
def Obligations.WithFetchWordRunsCommand : Prop :=
  ∀ (i : Instr) (s : State), i.wellFormed = true → step (s.withFetchWord 32 (encode i).toNat) = exec i s

/-- A step takes the host's next move and no other, and nothing but a read adds to what the host has seen: a write replaces all 64
bits of `x[i]`, `i ≠ 0`, and changes nothing else, a read shows a register, or STATUS and `irq`; with no move to take the machine
keeps all state (70_reset_and_hazards.md R328, R329; 10_state.md R22, R23; the model's fields `moves` and `seen`: log entries 1,
3, 4). -/
def Obligations.StepTakesOneMove : Prop :=
  ∀ s t : State, step s = .next t →
    match s.moves with
    | [] => t = s
    | .writeX i v :: rest => WritesRegister s t i v ∧ t = { s with x := t.x, moves := rest }
    | .readX i :: rest => t = { s with moves := rest, seen := .x i (s.readX i) :: s.seen }
    | .readStatus :: rest => t = { s with moves := rest, seen := .status (statusWord s) (irq s) :: s.seen }
    | _ :: rest => t.moves = rest ∧ t.seen = s.seen

/-! ### Reset and errors -/

/-- SRST and the `rst` port have one effect, from every state: every piece of state of CTIDC takes its reset value
(70_reset_and_hazards.md R310; 45_system_and_buffer.md R257), and these are the values (10_state.md R42, R32). The host's own side,
`moves` and `seen`, is set aside. -/
def Obligations.ResetValues : Prop :=
  (∀ s : State, ∃ t, exec .srst s = .next t ∧ hostMove .reset s = .next t ∧
    { t with moves := [], seen := [] } = State.reset) ∧
  (∀ r : Reg, State.reset.readX r = 0) ∧ statusWord State.reset = 0 ∧ State.reset.ctrl = 0 ∧ State.reset.errc = 0 ∧
    State.reset.errinfo0 = 0 ∧ State.reset.errinfo1 = 0 ∧ State.reset.errinfo2 = 0 ∧
    (∀ k, k < 37 → State.reset.f.get k = if k = 0 then 5 else 0) ∧
    State.reset.tb.len = 0 ∧ State.reset.sb.len = 0 ∧
    (∀ a, State.reset.tb.mem.read a = 0) ∧ (∀ a, State.reset.sb.mem.read a = 0) ∧
    State.reset.wd.fs = 0 ∧ State.reset.wd.tps = 0 ∧ State.reset.wd.w = 0 ∧ State.reset.wd.maxdur = 0 ∧
    State.reset.wd.ts12 = 0 ∧ State.reset.wd.pmin = 0 ∧ State.reset.wd.win = [] ∧ State.reset.wd.sum = 0 ∧
    State.reset.wd.mode = .seek ∧ State.reset.wd.lsum = 0 ∧ State.reset.wd.lcnt = 0 ∧ State.reset.wd.prevpol = false ∧
    State.reset.wd.period = 0 ∧ State.reset.wd.tol = 0 ∧ State.reset.wd.start = 0 ∧ State.reset.wd.last = 0 ∧
    State.reset.wd.par = false ∧ State.reset.wd.skip = false ∧ State.reset.wd.rxbyte = 0 ∧
    State.reset.bd.byte = 0 ∧ State.reset.bd.nbits = 0 ∧ State.reset.bd.run = 0

/-- Every command ends, in every state (70_reset_and_hazards.md R326; 60_exceptions.md R285). -/
def Obligations.EveryCommandEnds : Prop :=
  ∀ (i : Instr) (s : State), ∃ t, exec i s = .next t

/-- A command that raises changes only STATUS.ERR, STATUS.LAST, ERRC and ERRINFO0..2 (20_memory.md R62; 60_exceptions.md
R284). -/
def Obligations.FailingCommandChangesOnlyErrorState : Prop :=
  ∀ (i : Instr) (s t : State), s.status.busy = false → exec i s = .next t → t.status.last ≠ 0 →
    SameButErrors s t ∧ t.status.err = true ∧ t.errc.extractLsb' 0 4 = t.status.last

/-- A command that ends without a raise leaves the error registers and ERR as they were; only CLRERR and SRST write them
otherwise, and they write zeros (10_state.md R29). -/
def Obligations.SucceedingCommandKeepsErrorRegisters : Prop :=
  ∀ (i : Instr) (s t : State), exec i s = .next t → t.status.last = 0 →
    (t.status.err = s.status.err ∧ t.errc = s.errc ∧ t.errinfo0 = s.errinfo0 ∧ t.errinfo1 = s.errinfo1 ∧
      t.errinfo2 = s.errinfo2) ∨
    ((i = .clrerr ∨ i = .srst) ∧ t.status.err = false ∧ t.errc = 0 ∧ t.errinfo0 = 0 ∧ t.errinfo1 = 0 ∧ t.errinfo2 = 0)

/-- A command ends with LAST 0 or with one of the kinds the spec lists for it (60_exceptions.md R281). -/
def Obligations.CommandsRaiseOnlyTheirKinds : Prop :=
  ∀ (i : Instr) (s t : State), exec i s = .next t → t.status.last = 0 ∨ t.status.last ∈ errorKinds i

/-- An error does not gate, skip or alter later commands: a command run with other error state beforehand ends with the same LAST
and the same everything but the error state (60_exceptions.md R285). RDSR of STATUS, ERRC or ERRINFO0..2, which reads that
state, is set apart. -/
def Obligations.ErrorsDoNotAlterLaterCommands : Prop :=
  ∀ (i : Instr) (s s' : State), (∀ rd sr, i = .rdsr rd sr → sr ∉ [0, 2, 3, 4, 5]) → SameButErrors s s' →
    ∃ t t', exec i s = .next t ∧ exec i s' = .next t' ∧ SameButErrors t t' ∧ t.status.last = t'.status.last

/-- Every step keeps the shape 10_state.md gives the state, whatever state it starts from (R22, R27, R29, R33, R36 to R39). -/
def Obligations.InvariantKeptByEveryStep : Prop :=
  ∀ s t : State, s.Inv → step s = .next t → t.Inv

/-- The state after reset has that shape. -/
def Obligations.InvariantAtReset : Prop := State.reset.Inv

/-! ### STATUS, the interrupt line, the system commands -/

/-- The fields of STATUS are where 10_state.md R27 puts them, WDLOCK being 1 exactly in LOCKED (R38), bits 15:10 read 0, and `irq`
is the level of R28 (60_exceptions.md R291). -/
def Obligations.StatusFieldsAndInterruptLine : Prop :=
  ∀ s : State,
    (statusWord s).getLsbD 0 = s.status.busy ∧ (statusWord s).getLsbD 1 = s.status.err ∧
      (statusWord s).extractLsb' 2 4 = s.status.last ∧ (statusWord s).getLsbD 6 = s.status.wdini ∧
      ((statusWord s).getLsbD 7 = true ↔ s.wd.mode = .locked) ∧ (statusWord s).getLsbD 8 = s.status.wdrdy ∧
      (statusWord s).getLsbD 9 = s.status.wdovr ∧ (statusWord s).extractLsb' 10 6 = 0 ∧
      irq s = (((statusWord s).getLsbD 1 && s.ctrl.getLsbD 0) || ((statusWord s).getLsbD 8 && s.ctrl.getLsbD 1))

/-- NOP leaves all state but LAST unchanged (R255); CLRERR clears ERR and the error registers and leaves everything else
(R256; 70_reset_and_hazards.md R312). -/
def Obligations.NopAndClrerr : Prop :=
  ∀ s : State, exec .nop s = .next (succeeded s) ∧
    exec .clrerr s = .next { s with
      status := { s.status with busy := false, err := false, last := 0 }
      errc := 0, errinfo0 := 0, errinfo1 := 0, errinfo2 := 0 }

/-- LI writes its immediate, sign-extended to 64 bits (45_system_and_buffer.md R258). -/
def Obligations.LiWritesImmediate : Prop :=
  ∀ (rd : Reg) (simm : Int) (s : State), -2048 ≤ simm → simm ≤ 2047 →
    ∃ t, exec (.li rd simm) s = .next t ∧ GivesResult s t rd (BitVec.ofInt 64 simm)

/-- MKDEC packs a mantissa of 56 signed bits and an exponent, without normalising, so that the value is `m × 10^e`; a wider
mantissa raises IllegalOperand 7 (45_system_and_buffer.md R259). -/
def Obligations.MkdecPacksDecimal : Prop :=
  ∀ (rd ra : Reg) (e : Int) (s : State), -128 ≤ e → e ≤ 127 →
    if -2 ^ 55 ≤ (s.readX ra).toInt ∧ (s.readX ra).toInt ≤ 2 ^ 55 - 1 then
      (∃ t, exec (.mkdec rd ra e) s = .next t ∧ GivesResult s t rd (decWord (s.readX ra).toInt e)) ∧
        decVal (decWord (s.readX ra).toInt e) = (s.readX ra).toInt * 10 ^ e
    else exec (.mkdec rd ra e) s = .next (failed s 9 7 63 0 (s.readX ra) 0 0)

/-- RDSR reads the thirteen system registers zero-extended, STATUS with BUSY as 0, with no side effect; any other number raises
IllegalOperand 4 (45_system_and_buffer.md R261; 10_state.md R26, R43). -/
def Obligations.RdsrReadsSystemRegister : Prop :=
  ∀ (rd : Reg) (sr : Nat) (s : State),
    if sr ≤ 12 then
      ∃ t, exec (.rdsr rd sr) s = .next t ∧
        GivesResult s t rd
          ([ (statusWord s &&& 0xFFFE).setWidth 64, s.ctrl.setWidth 64, s.errc.setWidth 64, s.errinfo0, s.errinfo1, s.errinfo2,
             0x4354494400000001, 0x0000025510005040, s.wd.fs, s.wd.tps, s.wd.w.setWidth 64, s.wd.period, s.wd.tol ].getD sr 0)
    else exec (.rdsr rd sr) s = .next (failed s 9 4 63 0 (BitVec.ofNat 64 sr) 0 0)

/-- WRSR writes bits 1:0 to CTRL, the only writable register: a reserved number raises IllegalOperand 4, a read-only register
IllegalOperand 5 (45_system_and_buffer.md R262). -/
def Obligations.WrsrWritesOnlyCtrl : Prop :=
  ∀ (ra : Reg) (sr : Nat) (s : State),
    exec (.wrsr ra sr) s = .next (
      if 12 < sr then failed s 9 4 63 0 (BitVec.ofNat 64 sr) 0 0
      else if sr = 1 then { succeeded s with ctrl := (s.readX ra).extractLsb' 0 2 }
      else failed s 9 5 63 0 (BitVec.ofNat 64 sr) 0 0)

/-! ### The buffers -/

/-- CLRB empties the selected buffer and zeroes its bytes; LENB reads a length, zero-extended
(45_system_and_buffer.md R264, R268). -/
def Obligations.ClrbEmptiesAndLenbReads : Prop :=
  ∀ (rd : Reg) (b : Buf) (s : State),
    (∃ t, exec (.clrb b) s = .next t ∧ GivesBuffer s t b 0 (fun _ => 0)) ∧
      ∃ t, exec (.lenb rd b) s = .next t ∧ GivesResult s t rd (BitVec.ofNat 64 (s.buf b).len)

/-- PUSHB appends the low byte of a register to a buffer that is not full, every other byte unchanged; on a full buffer it raises
BufferBounds (45_system_and_buffer.md R265). -/
def Obligations.PushbAppendsByte : Prop :=
  ∀ (ra : Reg) (b : Buf) (s : State), (s.buf b).wf (bufCap b) = true →
    if (s.buf b).len < bufCap b then
      ∃ t, exec (.pushb ra b) s = .next t ∧
        GivesBuffer s t b ((s.buf b).len + 1) fun a =>
          if a = (s.buf b).len then (s.readX ra).extractLsb' 0 8 else (s.buf b).mem.read a
    else
      exec (.pushb ra b) s = .next
        (failed s 10 (bufSub b) 63 0 (BitVec.ofNat 64 (bufCap b)) (BitVec.ofNat 64 (bufCap b)) 0)

/-- LDB reads the byte at `x[ra] + off`, an index that does not wrap, zero-extended; an index at or above the length raises
BufferBounds with the index mod 2^64 (45_system_and_buffer.md R266, R263). -/
def Obligations.LdbReadsByte : Prop :=
  ∀ (rd ra : Reg) (b : Buf) (off : Nat) (s : State),
    if (s.readX ra).toNat + off < (s.buf b).len then
      ∃ t, exec (.ldb rd ra b off) s = .next t ∧
        GivesResult s t rd (((s.buf b).mem.read ((s.readX ra).toNat + off)).setWidth 64)
    else
      exec (.ldb rd ra b off) s = .next (failed s 10 (bufSub b) 63 0
        (BitVec.ofNat 64 (((s.readX ra).toNat + off) % 2 ^ 64)) (BitVec.ofNat 64 (s.buf b).len) 0)

/-- STB overwrites the byte at `bufIndex s ra off` = `x[ra] + off` and no other, and never extends the buffer; an index at or
above the length raises BufferBounds (45_system_and_buffer.md R267, R263). -/
def Obligations.StbOverwritesByte : Prop :=
  ∀ (ra rb : Reg) (b : Buf) (off : Nat) (s : State), (s.buf b).wf (bufCap b) = true →
    bufIndex s ra off = (s.readX ra).toNat + off ∧
    if bufIndex s ra off < (s.buf b).len then
      ∃ t, exec (.stb ra rb b off) s = .next t ∧
        GivesBuffer s t b (s.buf b).len fun a =>
          if a = bufIndex s ra off then (s.readX rb).extractLsb' 0 8 else (s.buf b).mem.read a
    else
      exec (.stb ra rb b off) s = .next (failed s 10 (bufSub b) 63 0
        (BitVec.ofNat 64 (bufIndex s ra off % 2 ^ 64)) (BitVec.ofNat 64 (s.buf b).len) 0)

/-! ### The numeric codec (40_numeric_codec.md) -/

/-- FIX refuses a width outside 1..32, then a scale mantissa outside 1..8388607; it writes the rounded quotient of value and scale
when that is in the field's range, as a 64-bit integer, and when it is not raises RangeError with the value and the bounds in
physical units (R103, R101). -/
def Obligations.FixRoundsToNearestEven : Prop :=
  ∀ (rd ra rb : Reg) (bits : Nat) (sg : Bool) (s : State) (n : Int),
    RoundsTo (decVal (s.readX ra) / decVal (s.readX rb)) n →
    let sm := decMantissa (s.readX rb)
    let se := decExponent (s.readX rb)
    if bits < 1 ∨ 32 < bits then exec (.fix rd ra rb bits sg) s = .next (failed s 9 1 63 0 (BitVec.ofNat 64 bits) 0 0)
    else if sm < 1 ∨ 2 ^ 23 - 1 < sm then exec (.fix rd ra rb bits sg) s = .next (failed s 9 2 63 0 (s.readX rb) 0 0)
    else if fixLo bits sg ≤ n ∧ n ≤ fixHi bits sg then
      ∃ t, exec (.fix rd ra rb bits sg) s = .next t ∧ GivesResult s t rd (BitVec.ofInt 64 n)
    else
      exec (.fix rd ra rb bits sg) s = .next
        (failed s 1 0 63 0 (s.readX ra) (decWord (fixLo bits sg * sm) se) (decWord (fixHi bits sg * sm) se))

/-- UNFIX refuses what FIX refuses; otherwise it multiplies the raw field, signed or unsigned, by the scale, and the product is
exact: it always fits a DEC (R105, R102). -/
def Obligations.UnfixIsExact : Prop :=
  ∀ (rd ra rb : Reg) (bits : Nat) (sg : Bool) (s : State) (n : Int),
    n = (if sg then ((s.readX ra).setWidth bits).toInt else ((s.readX ra).setWidth bits).toNat) →
    let sm := decMantissa (s.readX rb)
    if bits < 1 ∨ 32 < bits then exec (.unfix rd ra rb bits sg) s = .next (failed s 9 1 63 0 (BitVec.ofNat 64 bits) 0 0)
    else if sm < 1 ∨ 2 ^ 23 - 1 < sm then exec (.unfix rd ra rb bits sg) s = .next (failed s 9 2 63 0 (s.readX rb) 0 0)
    else
      (∃ t, exec (.unfix rd ra rb bits sg) s = .next t ∧
        GivesResult s t rd (decWord (n * sm) (decExponent (s.readX rb)))) ∧
      decVal (decWord (n * sm) (decExponent (s.readX rb))) = n * decVal (s.readX rb)

/-- Where FIX succeeds, UNFIX of its result with the same scale, width and signedness succeeds and is within half a step of the
value, and exact where the value is a multiple of the scale (R104). -/
def Obligations.FixThenUnfixIsWithinHalfStep : Prop :=
  ∀ (rd ra rb rq : Reg) (bits : Nat) (sg : Bool) (s t : State),
    rd ≠ 0 → rd ≠ rb → rq ≠ 0 → exec (.fix rd ra rb bits sg) s = .next t → t.status.last = 0 →
    ∃ u, exec (.unfix rq rd rb bits sg) t = .next u ∧ u.status.last = 0 ∧
      |decVal (u.readX rq) - decVal (s.readX ra)| ≤ decVal (s.readX rb) / 2 ∧
      ∀ k : Int, decVal (s.readX ra) = k * decVal (s.readX rb) → decVal (u.readX rq) = decVal (s.readX ra)

/-- F12ENC writes the code of the least exponent whose rounded mantissa is at most 511, an exponent of at most 5; a value outside
[0, 10^7] raises RangeError with those bounds (R107, R108; 30_encoding.md R77). -/
def Obligations.F12encTakesLeastExponent : Prop :=
  ∀ (rd ra : Reg) (s : State),
    if 0 ≤ decVal (s.readX ra) ∧ decVal (s.readX ra) ≤ 10 ^ 7 then
      ∃ t c, exec (.f12enc rd ra) s = .next t ∧ GivesResult s t rd (BitVec.ofNat 64 c) ∧
        IsF12Code (decVal (s.readX ra)) c ∧ c % 8 ≤ 5
    else
      exec (.f12enc rd ra) s = .next (failed s 1 0 63 0 (s.readX ra) (decWord 0 0) (decWord 1 7))

/-- D16ENC writes the code of the least exponent from -16 to 15 whose rounded mantissa is within ±1023, a zero mantissa as code 0;
where the mantissa at 15 is not, it raises RangeError with the bounds ±1023 × 10^15 (R112, R113; 30_encoding.md R78). -/
def Obligations.D16encTakesLeastExponent : Prop :=
  ∀ (rd ra : Reg) (s : State) (top : Int), RoundsTo (decVal (s.readX ra) / 10 ^ 15) top →
    if |top| ≤ 1023 then
      ∃ t c, exec (.d16enc rd ra) s = .next t ∧ GivesResult s t rd (c.setWidth 64) ∧ IsD16Code (decVal (s.readX ra)) c
    else
      exec (.d16enc rd ra) s = .next (failed s 1 0 63 0 (s.readX ra) (decWord (-1023) 15) (decWord 1023 15))

/-- The accuracy of the two compact formats (R111, R114, R115): a float12 code has an exponent of at most 5, and a mantissa of at
least 51 where the exponent is not 0; a decimal16 code has a mantissa of at least 102 where the exponent is above -16, R112's
zero mantissa, stored with exponent 0, set apart; each decodes to within half a unit of its exponent. -/
def Obligations.CompactFormatsAccuracy : Prop :=
  ∀ (w : Word) (c : Nat),
    (f12enc (mant w) (expo w) = some c →
      c % 8 ≤ 5 ∧ (1 ≤ c % 8 → 51 ≤ c / 8) ∧ |decVal (f12dec c) - decVal w| ≤ 10 ^ (c % 8) / 2) ∧
    (d16enc (mant w) (expo w) = some c →
      |decVal (d16dec c) - decVal w| ≤ 10 ^ decExponent (d16dec c) / 2 ∧
        (-16 < decExponent (d16dec c) → decMantissa (d16dec c) ≠ 0 → 102 ≤ |decMantissa (d16dec c)|))

/-- F12DEC, D16DEC and S10 decode every code exactly, higher bits ignored (R110, R116, R118). -/
def Obligations.CompactDecodersAreTotal : Prop :=
  ∀ (rd ra : Reg) (s : State),
    (∃ t, exec (.f12dec rd ra) s = .next t ∧
      GivesResult s t rd (decWord ((s.readX ra).extractLsb' 3 9).toNat ((s.readX ra).extractLsb' 0 3).toNat)) ∧
    (∃ t, exec (.d16dec rd ra) s = .next t ∧
      GivesResult s t rd (decWord ((s.readX ra).extractLsb' 5 11).toInt ((s.readX ra).extractLsb' 0 5).toInt)) ∧
    ∃ t, exec (.s10 rd ra) s = .next t ∧ GivesResult s t rd (((s.readX ra).extractLsb' 0 10).signExtend 64)

/-- QPACK packs four lanes that each fit 10 signed bits, lane 0 in bits [39:30]; otherwise it raises RangeError for the
lowest-numbered lane that does not fit (R121, R119). -/
def Obligations.QpackPacksLanes : Prop :=
  ∀ (rd ra : Reg) (s : State),
    let lane := fun i : Nat => (s.readX ra).extractLsb' (16 * i) 16
    let fits := fun i : Nat => -512 ≤ (lane i).toInt ∧ (lane i).toInt ≤ 511
    ((∀ i, i < 4 → fits i) →
      ∃ t, exec (.qpack rd ra) s = .next t ∧
        GivesResult s t rd (((lane 0).setWidth 10 ++ (lane 1).setWidth 10 ++ (lane 2).setWidth 10 ++
          (lane 3).setWidth 10).setWidth 64)) ∧
    ∀ i, i < 4 → ¬ fits i → (∀ k, k < i → fits k) →
      exec (.qpack rd ra) s = .next (failed s 1 i 63 0 (decWord (lane i).toInt 0) (decWord (-512) 0) (decWord 511 0))

/-- QUNPACK spreads the quad over four sign-extended 16-bit lanes, the first value in lane 0 (R122), and packing and unpacking are
inverses both ways (R120). -/
def Obligations.QunpackInvertsQpack : Prop :=
  (∀ (rd ra : Reg) (s : State),
    let value := fun i : Nat => ((s.readX ra).extractLsb' (30 - 10 * i) 10).signExtend 16
    ∃ t, exec (.qunpack rd ra) s = .next t ∧ GivesResult s t rd (value 3 ++ value 2 ++ value 1 ++ value 0)) ∧
  (∀ a b c d : Int, quadFits a = true → quadFits b = true → quadFits c = true → quadFits d = true →
    qunpack (qpack a b c d) = (a, b, c, d)) ∧
  ∀ q : Nat, q < 2 ^ 40 → qpack (qunpack q).1 (qunpack q).2.1 (qunpack q).2.2.1 (qunpack q).2.2.2 = q

/-! ### The bit stuffer (41_bit_stuffer.md) -/

/-- STUFF completes for every table buffer: `SB` is the stuffed stream and nothing else changes. With `k` the stuffing bits, what the
stuffed bits have beyond the `8n` data bits, at most one for each seven of those, the stream is `1 + ceil((8n + k)/8)` bytes, at
most 75 (R133, R134). -/
def Obligations.StuffFillsStreamBuffer : Prop :=
  ∀ s : State, s.tb.wf 64 = true →
    let stuffed := stuffBits 0 (bitsOfBytes s.tb.bytes)
    let k := stuffed.length - 8 * s.tb.len
    ∃ t, exec .stuff s = .next t ∧ t = { succeeded s with sb := t.sb } ∧
      t.sb.bytes = stuff s.tb.bytes ∧ t.sb.wf 80 = true ∧ stuffed.length = 8 * s.tb.len + k ∧ k ≤ 8 * s.tb.len / 7 ∧
      t.sb.len = 1 + (8 * s.tb.len + k + 7) / 8 ∧ t.sb.len ≤ 75

/-- After the start byte a stuffed stream never has eight 1 bits in a row (R132). -/
def Obligations.StuffedRunsAreShort : Prop :=
  ∀ bs : List Byte, ¬ List.replicate 8 true <:+: (bitsOfBytes (stuff bs)).drop 8

/-- UNSTUFF refuses an empty buffer and a wrong first byte with StartSymbolError, and a result longer than `TB` with BufferBounds;
otherwise `TB` is the unstuffed bytes and nothing else changes (R136, R137). -/
def Obligations.UnstuffReadsStreamBuffer : Prop :=
  ∀ s : State,
    let out := unstuff s.sb.bytes.tail
    if s.sb.len = 0 then exec .unstuff s = .next (failed s 5 0 63 0 0x100 0 0)
    else if s.sb.mem.read 0 ≠ 0xFF then exec .unstuff s = .next (failed s 5 0 63 0 ((s.sb.mem.read 0).setWidth 64) 0 0)
    else if 64 < out.length then exec .unstuff s = .next (failed s 10 0 63 0 (BitVec.ofNat 64 out.length) 64 0)
    else
      ∃ t, exec .unstuff s = .next t ∧ GivesBuffer s t .tb out.length (fun a => out.getD a 0) ∧ t.tb.wf 64 = true

/-- Unstuffing a stuffed byte sequence of any length gives it back; for every content of `TB`, STUFF then UNSTUFF restores `TB` and
`TBLEN` (R138). -/
def Obligations.StuffThenUnstuffRestores : Prop :=
  (∀ bs : List Byte, unstuff (stuff bs).tail = bs) ∧
  ∀ s : State, s.tb.wf 64 = true →
    ∃ t u, exec .stuff s = .next t ∧ exec .unstuff t = .next u ∧ u.status.last = 0 ∧ u.tb = s.tb

/-! ### CRC framing (42_crc_framing.md) -/

/-- CRC8 and CRC16 write the checksum of the first `x[ra]` bytes of `TB`; a count above `TBLEN` raises BufferBounds
(R148, R149). -/
def Obligations.CrcCommandsReadPrefix : Prop :=
  ∀ (rd ra : Reg) (s : State),
    if (s.readX ra).toNat ≤ s.tb.len then
      (∃ t, exec (.crc8 rd ra) s = .next t ∧
        GivesResult s t rd ((crc8 ((List.range (s.readX ra).toNat).map s.tb.mem.read)).setWidth 64)) ∧
      ∃ t, exec (.crc16 rd ra) s = .next t ∧
        GivesResult s t rd ((crc16 ((List.range (s.readX ra).toNat).map s.tb.mem.read)).setWidth 64)
    else
      exec (.crc8 rd ra) s = .next (failed s 10 0 63 0 (s.readX ra) (BitVec.ofNat 64 s.tb.len) 0) ∧
      exec (.crc16 rd ra) s = .next (failed s 10 0 63 0 (s.readX ra) (BitVec.ofNat 64 s.tb.len) 0)

/-- The 8-bit checksum of bytes followed by their own checksum is 0 (R158). -/
def Obligations.Crc8ResidueIsZero : Prop :=
  ∀ bs : List Byte, crc8 (bs ++ [crc8 bs]) = 0

/-- FRGEN appends the checksum its version calls for, high byte first, to a buffer that holds exactly a body; an empty buffer, then
version 0, then any other length is refused (R152, R150, R151). That version 0 leaves FID 0 in `ERRC` is the model's reading, R282
over the default 63 of R284 (60_exceptions.md; log entry 10). -/
def Obligations.FrgenAppendsChecksum : Prop :=
  ∀ (s : State) (v : Nat), s.tb.wf 64 = true → v = (s.tb.mem.read 0).toNat →
    if s.tb.len = 0 then exec .frgen s = .next (failed s 2 0 63 0 1 0 0)
    else if v = 0 then exec .frgen s = .next (failed s 4 1 0 0 0 0 0)
    else if s.tb.len ≠ Config.bodyLen v then
      exec .frgen s = .next (failed s 2 0 63 0 (BitVec.ofNat 64 (Config.bodyLen v)) (BitVec.ofNat 64 s.tb.len) 0)
    else
      ∃ t, exec .frgen s = .next t ∧
        GivesBuffer s t .tb (Config.frameLen v) fun a =>
          if v = 1 then (if a = 30 then crc8 (s.tb.mem.bytes 30) else s.tb.mem.read a)
          else if a = Config.bodyLen v then (crc16 (s.tb.mem.bytes (Config.bodyLen v))).extractLsb' 8 8
          else if a = Config.bodyLen v + 1 then (crc16 (s.tb.mem.bytes (Config.bodyLen v))).extractLsb' 0 8
          else s.tb.mem.read a

/-- FRCHK refuses, in this order, an empty buffer, version 0, a buffer shorter than the frame, and a checksum that differs from the
computed one; otherwise it leaves the body, every byte beyond it zero (R154, R153). That version 0 leaves FID 0 in `ERRC` is the
model's reading, R282 over the default 63 of R284 (60_exceptions.md; log entry 10). -/
def Obligations.FrchkValidatesAndStrips : Prop :=
  ∀ (s : State) (v : Nat), s.tb.wf 64 = true → v = (s.tb.mem.read 0).toNat →
    if s.tb.len = 0 then exec .frchk s = .next (failed s 2 0 63 0 1 0 0)
    else if v = 0 then exec .frchk s = .next (failed s 4 1 0 0 0 0 0)
    else if s.tb.len < Config.frameLen v then
      exec .frchk s = .next (failed s 2 0 63 0 (BitVec.ofNat 64 (Config.frameLen v)) (BitVec.ofNat 64 s.tb.len) 0)
    else if computedChecksum v s.tb.mem ≠ foundChecksum v s.tb.mem then
      exec .frchk s = .next (failed s 3 0 63 0 (computedChecksum v s.tb.mem) (foundChecksum v s.tb.mem) 0)
    else
      ∃ t, exec .frchk s = .next t ∧
        GivesBuffer s t .tb (Config.bodyLen v) fun a => if a < Config.bodyLen v then s.tb.mem.read a else 0

/-- For every body of a version of 1 or more, FRGEN then FRCHK succeeds and restores `TB` and `TBLEN` (R156). -/
def Obligations.FrgenThenFrchkRestores : Prop :=
  ∀ s : State, s.tb.wf 64 = true → s.tb.mem.read 0 ≠ 0 → s.tb.len = Config.bodyLen (s.tb.mem.read 0).toNat →
    ∃ t u, exec .frgen s = .next t ∧ exec .frchk t = .next u ∧ u.status.last = 0 ∧ u.tb = s.tb

/-- A change of one byte of a frame's body at index 1 or above makes FRCHK raise CRCError and leave the frame as it is (R157). -/
def Obligations.OneByteCorruptionIsCaught : Prop :=
  ∀ (s : State) (ra rb : Reg) (off : Nat), s.tb.wf 64 = true → s.tb.mem.read 0 ≠ 0 →
    s.tb.len = Config.bodyLen (s.tb.mem.read 0).toNat → 1 ≤ bufIndex s ra off → bufIndex s ra off < s.tb.len →
    (s.readX rb).extractLsb' 0 8 ≠ s.tb.mem.read (bufIndex s ra off) →
    ∃ t u w, exec .frgen s = .next t ∧ exec (.stb ra rb .tb off) t = .next u ∧ exec .frchk u = .next w ∧
      w.status.last = 3 ∧ w.tb = u.tb

/-! ### The table codec (43_table_codec.md) -/

/-- TGET reads a whole entry, TSET stores one unchecked, each refusing a `fid` above 36; TDEF stores every default
(R207 to R209; 10_state.md R32). -/
def Obligations.TableFileAccess : Prop :=
  ∀ (r : Reg) (fid : Nat) (s : State),
    (if fid ≤ 36 then
      (∃ t, exec (.tget r fid) s = .next t ∧ GivesResult s t r (s.f.get fid)) ∧
      ∃ t, exec (.tset r fid) s = .next t ∧ t = { succeeded s with f := t.f } ∧
        ∀ k, t.f.get k = if k = fid then s.readX r else s.f.get k
    else
      exec (.tget r fid) s = .next (failed s 9 3 63 0 (BitVec.ofNat 64 fid) 0 0) ∧
      exec (.tset r fid) s = .next (failed s 9 3 63 0 (BitVec.ofNat 64 fid) 0 0)) ∧
    ∃ t, exec .tdef s = .next t ∧ t = { succeeded s with f := t.f } ∧ ∀ k, t.f.get k = if k = 0 then 5 else 0

/-- The default LAYOUT is well formed: for every version and sensor type the walk's lists are the ones the ROM holds at the entry
points, the first field is the 8-bit version, the sensor type is named before the switch, header and block are whole bytes and
fit the body, and no entry is named twice (R168, R190). -/
def Obligations.LayoutIsWellFormed : Prop :=
  ∀ v st : Nat, 1 ≤ v → v ≤ 5 → st ≤ 6 →
    (∃ h b, hdrTab v = some h ∧ blkTab v st = some b ∧
      (∀ k, k < (headerWords v).length → rom (h + k) = (headerWords v).getD k 0) ∧
      kindOf (rom (h + (headerWords v).length)) = some .sw ∧
      (∀ k, k < (blockWords v st).length → rom (b + k) = (blockWords v st).getD k 0) ∧
      kindOf (rom (b + (blockWords v st).length)) = some .endK ∧ b + (blockWords v st).length < 127) ∧
    (headerWords v).head? = some 0x00000081 ∧ 4 ∈ (headerWords v).flatMap entriesOf ∧
    ((headerWords v).map widthOf).sum % 8 = 0 ∧ ((blockWords v st).map widthOf).sum % 8 = 0 ∧
    ((fieldWords v st).map widthOf).sum ≤ 8 * Config.bodyLen v ∧ ((fieldWords v st).flatMap entriesOf).Nodup ∧
    ∀ w ∈ fieldWords v st, ∃ k, kindOf w = some k ∧ k ≠ .sw ∧ k ≠ .endK ∧
      (k = .int ∨ k = .fxu ∨ k = .fxs ∨ k = .rsv → 1 ≤ (descOf w).n ∧ (descOf w).n ≤ 32) ∧
      (k = .fxu ∨ k = .fxs ∨ k = .quad → 1 ≤ (descOf w).sm ∧ (descOf w).sm ≤ 255) ∧
      (k = .f12 → (descOf w).n = 12) ∧ (k = .d16 → (descOf w).n = 16) ∧
      (k = .str → ((descOf w).n = 4 ∨ (descOf w).n = 8) ∧ (descOf w).fid = 2) ∧
      (k = .quad → (descOf w).n ≤ 1 ∧ (descOf w).fid = 13 + 4 * (descOf w).n)

/-- ENCODE of a table its version can represent writes to `TB`, and to nothing else, a body of exactly `BODYLEN(v)` bytes: byte 0
is the version asked for, and the body's bits are the fields of the version's lists in order, then zero padding
(R196, R166, R167, R175). -/
def Obligations.EncodeWritesBody : Prop :=
  ∀ (v : Nat) (s : State), Encodable v s.f →
    ∃ t, exec (.encode v) s = .next t ∧ t = { succeeded s with tb := t.tb } ∧ t.tb.wf 64 = true ∧
      t.tb.len = Config.bodyLen v ∧ (t.tb.mem.read 0).toNat = v ∧
      ∃ (pieces : List (List Bool)) (k : Nat), List.Forall₂ (FieldHolds v s.f) (fieldWords v (s.f.get 4).toNat) pieces ∧
        bitsOfBytes t.tb.bytes = pieces.flatten ++ List.replicate k false

/-- What ENCODE refuses before it writes a bit, in order: a version without layout, a sensor type above 6, a model string too long,
a resistance at version 1, an NTC form the version does not have (R191). -/
def Obligations.EncodeRefusesInOrder : Prop :=
  ∀ (v : Nat) (s : State),
    if v < 1 ∨ 5 < v then exec (.encode v) s = .next (failed s 4 1 0 0 (BitVec.ofNat 64 v) 0 0)
    else if 6 < (s.f.get 4).toNat then exec (.encode v) s = .next (failed s 4 2 4 0 (s.f.get 4) 0 0)
    else if v ≤ 3 ∧ 4 < (strOf (s.f.get 2)).length then
      exec (.encode v) s = .next (failed s 4 3 2 0 (BitVec.ofNat 64 (strOf (s.f.get 2)).length) 0 0)
    else if v = 1 ∧ decVal (s.f.get 5) ≠ 0 then exec (.encode v) s = .next (failed s 4 4 5 0 (s.f.get 5) 0 0)
    else if v = 1 ∧ decVal (s.f.get 6) ≠ 0 then exec (.encode v) s = .next (failed s 4 4 6 0 (s.f.get 6) 0 0)
    else if s.f.get 4 = 5 ∧ v ≤ 3 ∧ decVal (s.f.get 30) ≠ 0 then
      exec (.encode v) s = .next (failed s 4 5 30 0 (s.f.get 30) 0 0)
    else if s.f.get 4 = 5 ∧ v ≤ 3 ∧ decVal (s.f.get 31) ≠ 0 then
      exec (.encode v) s = .next (failed s 4 5 31 0 (s.f.get 31) 0 0)
    else if s.f.get 4 = 5 ∧ 4 ≤ v ∧ decVal (s.f.get 32) ≠ 0 then
      exec (.encode v) s = .next (failed s 4 5 32 0 (s.f.get 32) 0 0)
    else ∃ t, exec (.encode v) s = .next t ∧ (t.status.last = 0 ∨ t.status.last = 1)

/-- Where ENCODE raises RangeError it is for the first field in list order whose value does not fit, in a quad for the first of the
four: FID, UNIT, the value and the bounds are that field's, and `TB` stays (R196, R170 to R174; 60_exceptions.md R282). -/
def Obligations.EncodeNamesFirstMisfit : Prop :=
  ∀ (v : Nat) (s t : State), exec (.encode v) s = .next t → t.status.last = 1 →
    ∃ (before : List Word32) (w : Word32) (after : List Word32) (i : Nat),
      fieldWords v (s.f.get 4).toNat = before ++ w :: after ∧ (∀ x ∈ before, WordFits v s.f x) ∧ ¬ WordFits v s.f w ∧
      t = misfitState v s w i ∧
      if kindOf w = some .quad then
        i < 4 ∧ ¬ CountFits (s.f.get ((descOf w).fid + i)) 10 true (descOf w).scale ∧
          ∀ k, k < i → CountFits (s.f.get ((descOf w).fid + k)) 10 true (descOf w).scale
      else i = 0

/-- DECODE refuses, in this order, an empty buffer, a version without layout, a buffer shorter than the body and a sensor type
above 6; otherwise `F` holds what each field's bits, in list order, stand for: entry 0 is the version, entry 4 the sensor type,
and an entry no list names has its default (R203, R202, R169). -/
def Obligations.DecodeReadsBody : Prop :=
  ∀ (s : State) (v st : Nat), v = (s.tb.mem.read 0).toNat → st = codedSensorType v s.tb.mem →
    if s.tb.len = 0 then exec .decode s = .next (failed s 2 0 63 0 1 0 0)
    else if v < 1 ∨ 5 < v then exec .decode s = .next (failed s 4 1 0 0 (BitVec.ofNat 64 v) 0 0)
    else if s.tb.len < Config.bodyLen v then
      exec .decode s = .next (failed s 2 0 63 0 (BitVec.ofNat 64 (Config.bodyLen v)) (BitVec.ofNat 64 s.tb.len) 0)
    else if 6 < st then exec .decode s = .next (failed s 4 2 4 0 (BitVec.ofNat 64 st) 0 0)
    else
      ∃ t, exec .decode s = .next t ∧ t = { succeeded s with f := t.f } ∧
        (∀ before w after, fieldWords v st = before ++ w :: after →
          FieldReads t.f w (((bitsOfBytes (s.tb.mem.bytes (Config.bodyLen v))).drop (before.map widthOf).sum).take
            (widthOf w))) ∧
        (t.f.get 0).toNat = v ∧ (t.f.get 4).toNat = st ∧
        ∀ k, k ∉ (fieldWords v st).flatMap entriesOf → t.f.get k = TableFile.default.get k

/-- Where ENCODE succeeds, DECODE of the body succeeds and gives the table back: integers and the model string are equal, a
fixed-point value is within half a step, a compact value within half a unit of the exponent chosen, an entry no list names is
default, and the version is the one asked for. A second round trip is exact in value: ENCODE of the decoded table succeeds, with
the same bits in every field but the compact ones; it decodes to a table of the same values, and from it on the body stays (R204;
where its last sentence asks the first body of a compact field too, log entry 12). -/
def Obligations.EncodeThenDecodeRestoresTable : Prop :=
  ∀ (v : Nat) (s t : State), exec (.encode v) s = .next t → t.status.last = 0 →
    ∃ u, exec .decode t = .next u ∧ u.status.last = 0 ∧ (u.f.get 0).toNat = v ∧
      (∀ k, k ∉ (fieldWords v (s.f.get 4).toNat).flatMap entriesOf → u.f.get k = TableFile.default.get k) ∧
      (∀ w ∈ fieldWords v (s.f.get 4).toNat,
        match kindOf w with
        | some .int => (descOf w).fid ≠ 0 → u.f.get (descOf w).fid = s.f.get (descOf w).fid
        | some .str => strOf (u.f.get 2) = strOf (s.f.get 2)
        | some .fxu | some .fxs | some .quad =>
          ∀ k ∈ entriesOf w, |decVal (u.f.get k) - decVal (s.f.get k)| ≤ (descOf w).scale / 2
        | some .f12 | some .d16 =>
          ∀ k ∈ entriesOf w, |decVal (u.f.get k) - decVal (s.f.get k)| ≤ 10 ^ decExponent (u.f.get k) / 2
        | _ => True) ∧
      ∃ x y z, exec (.encode v) u = .next x ∧ x.status.last = 0 ∧ SameBodyButCompact v (s.f.get 4).toNat t x ∧
        exec .decode x = .next y ∧ y.status.last = 0 ∧ SameTableValues v (s.f.get 4).toNat u.f y.f ∧
        exec (.encode v) y = .next z ∧ z.status.last = 0 ∧ z.tb = x.tb

/-- R204's last sentence: ENCODE of the decoded table gives the same body. It is expected to FAIL: by R107 the value 511.5 has the
code 51 × 10^1, which decodes to 510, whose code is 510 × 10^0; by R112 the value 1023.5 has the code 102 × 10^1, which decodes to
1020, whose code is 1020 × 10^0 (log entry 12). -/
def Obligations.SecondEncodeGivesSameBody : Prop :=
  ∀ (v : Nat) (s t u w : State), exec (.encode v) s = .next t → t.status.last = 0 → exec .decode t = .next u →
    exec (.encode v) u = .next w → w.tb = t.tb

/-! ### The waveform decoder (44_waveform_decoder.md) -/

/-- WDINIT refuses `fs` < 1, `tps` < `fs` and a window above 4096 samples; otherwise it loads the configuration, and every other
piece of the decoder is at its reset value (R218). -/
def Obligations.WdinitConfigures : Prop :=
  ∀ (ra rb : Reg) (s : State) (fs tps : Nat), fs = (s.readX ra).toNat → tps = (s.readX rb).toNat →
    exec (.wdinit ra rb) s = .next (
      if fs < 1 ∨ tps < fs ∨ 4096 < (9 * fs + 319) / 320 then failed s 9 6 63 0 (s.readX ra) (s.readX rb) 0
      else { s with
        wd := { Wd.reset with
          fs := s.readX ra, tps := s.readX rb, w := BitVec.ofNat 16 ((9 * fs + 319) / 320), maxdur := tps / 40
          ts12 := (6 * tps + (5 * fs - 1)) / (5 * fs), pmin := max 1 ((tps + 959) / 960) }
        bd := Bd.reset
        status := { s.status with busy := false, last := 0, wdini := true, wdrdy := false, wdovr := false } })

/-- WDSAMP before any WDINIT raises DecoderNotInit; a sample whose timestamp does not exceed the newest of the window gives 0 and
changes nothing else (R221; 70_reset_and_hazards.md R317). That a dropped sample writes 0 to `x[rd]` is the model's reading, R221's
pseudocode over its words 'no state change' (log entry 11). -/
def Obligations.WdsampRefusesAndDrops : Prop :=
  ∀ (rd ra rb : Reg) (s : State),
    (s.status.wdini = false → exec (.wdsamp rd ra rb) s = .next (failed s 11 0 63 0 0 0 0)) ∧
    ∀ y, s.status.wdini = true → s.wd.win.getLast? = some y → (s.readX ra).toNat ≤ y.ts →
      ∃ t, exec (.wdsamp rd ra rb) s = .next t ∧ GivesResult s t rd 0

/-- WDSAMP of a newer sample puts it in the window, the oldest pair leaving a full one, and gives -1 exactly when it acquires lock,
1 only where it was locked and a byte is then ready, else 0; the configuration, the table file, the buffers, CTRL and the error
registers stay (R221, R222). -/
def Obligations.WdsampTakesSample : Prop :=
  ∀ (rd ra rb : Reg) (s : State), s.Inv → s.status.wdini = true →
    (∀ y, s.wd.win.getLast? = some y → y.ts < (s.readX ra).toNat) →
    ∃ (t : State) (r : Word), exec (.wdsamp rd ra rb) s = .next t ∧ WritesRegister s t rd r ∧
      t = { s with
        x := t.x, wd := t.wd, bd := t.bd
        status := { succeeded s |>.status with wdrdy := t.status.wdrdy, wdovr := t.status.wdovr } } ∧
      t.wd.win = windowAfter s.wd (sampleOf s ra rb) ∧ t.wd.sum = (t.wd.win.map Sample.val).sum ∧
      t.wd.fs = s.wd.fs ∧ t.wd.tps = s.wd.tps ∧ t.wd.w = s.wd.w ∧ t.wd.maxdur = s.wd.maxdur ∧
      t.wd.ts12 = s.wd.ts12 ∧ t.wd.pmin = s.wd.pmin ∧
      (r = 0 ∨ r = 1 ∨ r = 0xFFFFFFFFFFFFFFFF) ∧
      (r = 0xFFFFFFFFFFFFFFFF ↔ s.wd.mode = .seek ∧ t.wd.mode = .locked) ∧
      (r = 1 → s.wd.mode = .locked ∧ t.status.wdrdy = true)

/-- In SEEK a sample acquires lock exactly when the 16 newest crossings of its window pass every test of a start symbol, and then
commits the recovered clock, the mean and the cell, with the ByteDecoder and the byte flags reset; a sample that acquires no lock
gives 0 and changes the window and nothing else (R223, R226 to R230, R233, R237). -/
def Obligations.LocksExactlyOnStartSymbol : Prop :=
  ∀ (rd ra rb : Reg) (s t : State), s.Inv → s.status.wdini = true → s.wd.mode = .seek →
    (∀ y, s.wd.win.getLast? = some y → y.ts < (s.readX ra).toNat) → exec (.wdsamp rd ra rb) s = .next t →
    (t.wd.mode = .locked ↔ ∃ j, StartSymbolAt s.wd t.wd.win t.wd.sum j) ∧
    (∀ j, StartSymbolAt s.wd t.wd.win t.wd.sum j →
      t.wd = { windowed s.wd (sampleOf s ra rb) with
        mode := .locked, lsum := t.wd.sum, lcnt := t.wd.win.length
        prevpol := decide (t.wd.sum < (sampleOf s ra rb).val * t.wd.win.length)
        period := BitVec.ofNat 64 ((timeAt t.wd.win (j 14) - timeAt t.wd.win (j 0)) / 7)
        tol := BitVec.ofNat 64 (max ((timeAt t.wd.win (j 14) - timeAt t.wd.win (j 0)) / 7 / 4) s.wd.ts12)
        start := timeAt t.wd.win (j 14), last := timeAt t.wd.win (j 15), par := true, skip := true } ∧
      t.bd = Bd.reset ∧ t.status.wdrdy = false ∧ t.status.wdovr = false) ∧
    ((¬ ∃ j, StartSymbolAt s.wd t.wd.win t.wd.sum j) →
      t = { succeeded s with x := t.x, wd := windowed s.wd (sampleOf s ra rb) } ∧ WritesRegister s t rd 0)

/-- What a sample does in LOCKED: more than four periods after the last edge lock is lost and the bit in flight delivered, unless
it is still the start symbol's; else no change of polarity against the committed mean is no edge; an edge before
`start + period - tol` toggles the parity; any other edge opens the next cell and delivers the parity of the one it closes,
unless that was the start symbol's last (R234, R236, R237, R239). -/
def Obligations.LockedSampleClassifiesEdge : Prop :=
  ∀ (rd ra rb : Reg) (s : State), s.Inv → s.wd.mode = .locked →
    (∀ y, s.wd.win.getLast? = some y → y.ts < (s.readX ra).toNat) →
    let x := sampleOf s ra rb
    let wd := windowed s.wd x
    let polarity := decide (s.wd.lsum < x.val * s.wd.lcnt)
    ∃ (t : State) (r : Word), exec (.wdsamp rd ra rb) s = .next t ∧ WritesRegister s t rd r ∧
      if s.wd.last + 4 * s.wd.period.toNat < x.ts then
        t.wd = { wd with mode := .seek, rxbyte := t.wd.rxbyte } ∧
          if s.wd.skip then t = { succeeded s with x := t.x, wd := t.wd } ∧ t.wd.rxbyte = s.wd.rxbyte ∧ r = 0
          else DeliversBit s.wd.par s t r
      else if polarity = s.wd.prevpol then
        t = { succeeded s with x := t.x, wd := wd } ∧ r = 0
      else if x.ts + s.wd.tol.toNat < s.wd.start + s.wd.period.toNat then
        t = { succeeded s with x := t.x, wd := { wd with prevpol := polarity, last := x.ts, par := !s.wd.par } } ∧ r = 0
      else if s.wd.skip then
        t = { succeeded s with
          x := t.x, wd := { wd with prevpol := polarity, last := x.ts, start := x.ts, par := false, skip := false } } ∧ r = 0
      else
        t.wd = { wd with prevpol := polarity, last := x.ts, start := x.ts, par := false, rxbyte := t.wd.rxbyte } ∧
          DeliversBit s.wd.par s t r

/-- The ByteDecoder is the unstuffer, one bit at a time: from its reset state it completes exactly the bytes UNSTUFF makes of the
same bits, and of the stream of STUFF after its start byte exactly the bytes that were stuffed (R239; 41_bit_stuffer.md R140,
R138). -/
def Obligations.ByteDecoderIsTheUnstuffer : Prop :=
  ∀ s : State, s.bd = Bd.reset →
    (∀ bits : List Bool, receivedBytes s bits = bytesOfBits (unstuffBits 0 bits)) ∧
    ∀ bs : List Byte, receivedBytes s ((bitsOfBytes (stuff bs)).drop 8) = bs

/-- WDGETB takes a waiting byte and clears WDRDY; with none waiting it gives None, all ones; WDOVR and all else stay (R242). -/
def Obligations.WdgetbTakesWaitingByte : Prop :=
  ∀ (rd : Reg) (s : State),
    ∃ t, exec (.wdgetb rd) s = .next t ∧
      WritesRegister s t rd (if s.status.wdrdy then s.wd.rxbyte.setWidth 64 else 0xFFFFFFFFFFFFFFFF) ∧
      t = { s with x := t.x, status := { s.status with busy := false, last := 0, wdrdy := false } }

/-- The decoder's commands leave the table file, the buffers and CTRL as they are, and every other command but SRST leaves the
decoder, its ByteDecoder and its STATUS bits as they are (20_memory.md R65). -/
def Obligations.DecoderAndCodecAreDisjoint : Prop :=
  ∀ (i : Instr) (s t : State), exec i s = .next t →
    match i with
    | .wdinit .. | .wdsamp .. | .wdgetb .. => t.f = s.f ∧ t.tb = s.tb ∧ t.sb = s.sb ∧ t.ctrl = s.ctrl
    | .srst => True
    | _ => t.wd = s.wd ∧ t.bd = s.bd ∧ t.status.wdini = s.status.wdini ∧ t.status.wdrdy = s.status.wdrdy ∧
        t.status.wdovr = s.status.wdovr

/-- A WDSAMP and a codec command that name different x registers and raise no error commute: the same state in either order
(20_memory.md R65). -/
def Obligations.WdsampCommutesWithCodecCommands : Prop :=
  ∀ (rd ra rb : Reg) (i : Instr) (s t u : State), isCodec i = true → (∀ r ∈ registersOf i, r ∉ [rd, ra, rb]) →
    exec (.wdsamp rd ra rb) s = .next t → t.status.last = 0 → exec i t = .next u → u.status.last = 0 →
    ∃ t', exec i s = .next t' ∧ t'.status.last = 0 ∧ exec (.wdsamp rd ra rb) t' = .next u
end

