-- ==== Sys2Proof/Laws/Bits.lean ====
section
/-! SUPPORT. Bit patterns: two's complement both ways and as BitVec gives it, bit strings and bytes both ways, rounding. -/

namespace Sys2Proof.Machine

/-! ### Two's complement -/

/-- The integer a pattern stands for is the one BitVec gives it. -/
theorem sx_toNat {w : Nat} (r : BitVec w) (hw : 0 < w) : sx r.toNat w = r.toInt := by
  unfold sx
  rw [BitVec.toInt_eq_toNat_cond]
  have h2 : 2 ^ w = 2 * 2 ^ (w - 1) := by rw [← pow_succ']; congr 1; omega
  split <;> split <;> first | omega | (push_cast; rfl)

/-- The pattern of an integer is the one BitVec gives it. -/
theorem raw_eq_ofInt (n : Int) (w : Nat) : raw n w = (BitVec.ofInt w n).toNat := by
  unfold raw; rw [BitVec.toNat_ofInt]; norm_num

theorem raw_lt (n : Int) (w : Nat) : raw n w < 2 ^ w := by rw [raw_eq_ofInt]; exact (BitVec.ofInt w n).isLt

/-- An integer in range comes back from its pattern. -/
theorem sx_raw (n : Int) (w : Nat) (hw : 0 < w) (h1 : -2 ^ (w - 1) ≤ n) (h2 : n < 2 ^ (w - 1)) : sx (raw n w) w = n := by
  rw [raw_eq_ofInt, sx_toNat _ hw, BitVec.toInt_ofInt_eq_self hw h1 h2]

/-- A pattern comes back from the integer it stands for. -/
theorem raw_sx (r w : Nat) (hw : 0 < w) (h : r < 2 ^ w) : raw (sx r w) w = r := by
  have := sx_toNat (BitVec.ofNat w r) hw
  rw [BitVec.toNat_ofNat, Nat.mod_eq_of_lt h] at this
  rw [raw_eq_ofInt, this, BitVec.ofInt_toInt, BitVec.toNat_ofNat, Nat.mod_eq_of_lt h]

/-! ### Bit strings -/

@[simp] theorem bitsOf_length (n r : Nat) : (bitsOf n r).length = n := by
  induction n with
  | zero => rfl
  | succ n ih => simp [bitsOf, ih]

theorem bitsValFrom_append (acc : Nat) (xs ys : List Bool) :
    bitsValFrom acc (xs ++ ys) = bitsValFrom (bitsValFrom acc xs) ys := by
  induction xs generalizing acc with
  | nil => rfl
  | cons b r ih => exact ih _

/-- The value of a bit string after bits already read is those bits shifted, plus its own value. -/
theorem bitsValFrom_eq (acc : Nat) (xs : List Bool) : bitsValFrom acc xs = acc * 2 ^ xs.length + bitsVal xs := by
  unfold bitsVal
  induction xs generalizing acc with
  | nil => simp [bitsValFrom]
  | cons b r ih =>
    rw [bitsValFrom, ih, bitsValFrom, ih (2 * 0 + _)]
    simp only [List.length_cons, pow_succ]
    ring

theorem bitsVal_cons (b : Bool) (r : List Bool) : bitsVal (b :: r) = b.toNat * 2 ^ r.length + bitsVal r := by
  rw [bitsVal, bitsValFrom, bitsValFrom_eq]; simp

theorem bitsVal_lt (xs : List Bool) : bitsVal xs < 2 ^ xs.length := by
  induction xs with
  | nil => simp [bitsVal, bitsValFrom]
  | cons b r ih =>
    rw [bitsVal_cons, List.length_cons, pow_succ]
    cases b <;> simp <;> omega

/-- The `n` bits of an integer below `2^n` have its value. -/
theorem bitsVal_bitsOf (n r : Nat) : bitsVal (bitsOf n r) = r % 2 ^ n := by
  induction n with
  | zero => simp [bitsOf, bitsVal, bitsValFrom, Nat.mod_one]
  | succ n ih =>
    rw [bitsOf, bitsVal_cons, ih, bitsOf_length, Nat.testBit_eq_decide_div_mod_eq, Nat.mod_pow_succ]
    have : r / 2 ^ n % 2 = 0 ∨ r / 2 ^ n % 2 = 1 := by omega
    rcases this with h | h
    · simp [h]
    · simp [h]; omega

/-- A bit string comes back from its value. -/
theorem bitsOf_bitsVal (xs : List Bool) : bitsOf xs.length (bitsVal xs) = xs := by
  have key : ∀ (n : Nat) (ys : List Bool) (k : Nat), ys.length = n →
      bitsOf n (k * 2 ^ n + bitsVal ys) = ys := by
    intro n
    induction n with
    | zero => intro ys k h; simp [List.length_eq_zero_iff.1 h, bitsOf]
    | succ n ih =>
      intro ys k h
      match ys with
      | b :: r =>
        have hr : r.length = n := by simpa using h
        have hlt := bitsVal_lt r
        rw [hr] at hlt
        rw [bitsOf, bitsVal_cons, hr]
        congr 1
        · rw [Nat.testBit_eq_decide_div_mod_eq]
          rw [show k * 2 ^ (n + 1) + (b.toNat * 2 ^ n + bitsVal r) = (2 * k + b.toNat) * 2 ^ n + bitsVal r by ring]
          rw [Nat.add_comm, Nat.add_mul_div_right _ _ (by positivity), Nat.div_eq_of_lt hlt]
          cases b <;> simp
        · rw [show k * 2 ^ (n + 1) + (b.toNat * 2 ^ n + bitsVal r) = (2 * k + b.toNat) * 2 ^ n + bitsVal r by ring]
          exact ih r _ hr
  simpa using key xs.length xs 0 rfl

@[simp] theorem bitsOfBytes_length (bs : List Byte) : (bitsOfBytes bs).length = 8 * bs.length := by
  induction bs with
  | nil => rfl
  | cons b r ih =>
    have : bitsOfBytes (b :: r) = bitsOf 8 b.toNat ++ bitsOfBytes r := rfl
    rw [this, List.length_append, ih, bitsOf_length, List.length_cons]; omega

theorem bitsOfBytes_cons (b : Byte) (r : List Byte) : bitsOfBytes (b :: r) = bitsOf 8 b.toNat ++ bitsOfBytes r := rfl

theorem bitsOfBytes_append (bs cs : List Byte) : bitsOfBytes (bs ++ cs) = bitsOfBytes bs ++ bitsOfBytes cs := by
  simp [bitsOfBytes]

/-- Eight bits before the rest make one byte. -/
theorem bytesOfBits_append (xs ys : List Bool) (h : xs.length = 8) :
    bytesOfBits (xs ++ ys) = BitVec.ofNat 8 (bitsVal xs) :: bytesOfBits ys := by
  match xs, h with
  | [_, _, _, _, _, _, _, _], _ => rfl

/-- Bytes come back from their bits, whatever fewer than 8 bits follow. -/
theorem bytesOfBits_bitsOfBytes (bs : List Byte) (rest : List Bool) (h : rest.length < 8) :
    bytesOfBits (bitsOfBytes bs ++ rest) = bs := by
  induction bs with
  | nil =>
    match rest, h with
    | [], _ | [_], _ | [_, _], _ | [_, _, _], _ | [_, _, _, _], _ | [_, _, _, _, _], _ | [_, _, _, _, _, _], _
    | [_, _, _, _, _, _, _], _ => rfl
  | cons b r ih =>
    rw [bitsOfBytes_cons, List.append_assoc, bytesOfBits_append _ _ (bitsOf_length 8 _), ih, bitsVal_bitsOf]
    congr 1
    apply BitVec.eq_of_toNat_eq
    simpa using b.isLt

/-- A whole number of bytes of bits comes back from its bytes. -/
theorem bitsOfBytes_bytesOfBits (n : Nat) (xs : List Bool) (h : xs.length = 8 * n) : bitsOfBytes (bytesOfBits xs) = xs := by
  induction n generalizing xs with
  | zero => rw [List.length_eq_zero_iff.1 (by omega : xs.length = 0)]; rfl
  | succ n ih =>
    have h8 : (xs.take 8).length = 8 := by rw [List.length_take]; omega
    have hd : (xs.drop 8).length = 8 * n := by rw [List.length_drop]; omega
    conv_lhs => rw [← List.take_append_drop 8 xs, bytesOfBits_append _ _ h8, bitsOfBytes_cons, ih _ hd]
    have hlt := bitsVal_lt (xs.take 8)
    rw [h8] at hlt
    rw [BitVec.toNat_ofNat, Nat.mod_eq_of_lt hlt]
    have := bitsOf_bitsVal (xs.take 8)
    rw [h8] at this
    rw [this, List.take_append_drop]

theorem bytesOfBits_length (n : Nat) (xs : List Bool) (h : xs.length = 8 * n) : (bytesOfBits xs).length = n := by
  have := congrArg List.length (bitsOfBytes_bytesOfBits n xs h)
  rw [bitsOfBytes_length] at this
  omega

/-! ### Rounding -/

/-- The rounded quotient is within half of the divisor, and even where it is exactly half away. -/
theorem roundTie_spec (n : Int) (d : Nat) (hd : 0 < d) :
    (2 * (n - d * roundTie n d)).natAbs < d ∨ ((2 * (n - d * roundTie n d)).natAbs = d ∧ roundTie n d % 2 = 0) := by
  have hd' : (0 : Int) < d := by exact_mod_cast hd
  have h1 := Int.emod_nonneg n hd'.ne'
  have h2 := Int.emod_lt_of_pos n hd'
  have h3 : (d : Int) * (n / d) + n % d = n := Int.mul_ediv_add_emod n d
  have e0 : 2 * (n - d * (n / (d : Int))) = 2 * (n % d) := by
    have : n - d * (n / (d : Int)) = n % d := by omega
    rw [this]
  have e1 : 2 * (n - d * (n / (d : Int) + 1)) = 2 * (n % d) - 2 * d := by
    have : n - d * (n / (d : Int) + 1) = n % d - d := by rw [mul_add, mul_one]; omega
    rw [this]; ring
  simp only [roundTie]
  split
  · rw [e0]; left; omega
  · split
    · rw [e1]; left; omega
    · split <;> rename_i h <;> simp only [Config.roundTie, decide_eq_true_eq] at h
      · rw [e1]; right; omega
      · rw [e0]; right; omega

end Sys2Proof.Machine
end

