-- ==== Sys2Proof/Laws/State.lean ====
section
/-! SUPPORT. One lemma per field per update of State: no later proof unfolds a record update. -/

namespace Sys2Proof.Machine

/-! ### A register write -/

@[simp] theorem State.status_writeX (s : State) (i : Reg) (v : Word) : (s.writeX i v).status = s.status := by
  unfold State.writeX; split <;> rfl
@[simp] theorem State.ctrl_writeX (s : State) (i : Reg) (v : Word) : (s.writeX i v).ctrl = s.ctrl := by
  unfold State.writeX; split <;> rfl
@[simp] theorem State.errc_writeX (s : State) (i : Reg) (v : Word) : (s.writeX i v).errc = s.errc := by
  unfold State.writeX; split <;> rfl
@[simp] theorem State.errinfo0_writeX (s : State) (i : Reg) (v : Word) : (s.writeX i v).errinfo0 = s.errinfo0 := by
  unfold State.writeX; split <;> rfl
@[simp] theorem State.errinfo1_writeX (s : State) (i : Reg) (v : Word) : (s.writeX i v).errinfo1 = s.errinfo1 := by
  unfold State.writeX; split <;> rfl
@[simp] theorem State.errinfo2_writeX (s : State) (i : Reg) (v : Word) : (s.writeX i v).errinfo2 = s.errinfo2 := by
  unfold State.writeX; split <;> rfl
@[simp] theorem State.f_writeX (s : State) (i : Reg) (v : Word) : (s.writeX i v).f = s.f := by
  unfold State.writeX; split <;> rfl
@[simp] theorem State.tb_writeX (s : State) (i : Reg) (v : Word) : (s.writeX i v).tb = s.tb := by
  unfold State.writeX; split <;> rfl
@[simp] theorem State.sb_writeX (s : State) (i : Reg) (v : Word) : (s.writeX i v).sb = s.sb := by
  unfold State.writeX; split <;> rfl
@[simp] theorem State.wd_writeX (s : State) (i : Reg) (v : Word) : (s.writeX i v).wd = s.wd := by
  unfold State.writeX; split <;> rfl
@[simp] theorem State.bd_writeX (s : State) (i : Reg) (v : Word) : (s.writeX i v).bd = s.bd := by
  unfold State.writeX; split <;> rfl
@[simp] theorem State.moves_writeX (s : State) (i : Reg) (v : Word) : (s.writeX i v).moves = s.moves := by
  unfold State.writeX; split <;> rfl
@[simp] theorem State.seen_writeX (s : State) (i : Reg) (v : Word) : (s.writeX i v).seen = s.seen := by
  unfold State.writeX; split <;> rfl

/-! ### A raise -/

@[simp] theorem State.x_withError (s : State) (e : ErrData) : (s.withError e).x = s.x := rfl
@[simp] theorem State.status_withError (s : State) (e : ErrData) : (s.withError e).status = s.status.failure (errCode e.kind) := rfl
@[simp] theorem State.ctrl_withError (s : State) (e : ErrData) : (s.withError e).ctrl = s.ctrl := rfl
@[simp] theorem State.errc_withError (s : State) (e : ErrData) : (s.withError e).errc = errcWord e := rfl
@[simp] theorem State.errinfo0_withError (s : State) (e : ErrData) : (s.withError e).errinfo0 = e.i0 := rfl
@[simp] theorem State.errinfo1_withError (s : State) (e : ErrData) : (s.withError e).errinfo1 = e.i1 := rfl
@[simp] theorem State.errinfo2_withError (s : State) (e : ErrData) : (s.withError e).errinfo2 = e.i2 := rfl
@[simp] theorem State.f_withError (s : State) (e : ErrData) : (s.withError e).f = s.f := rfl
@[simp] theorem State.tb_withError (s : State) (e : ErrData) : (s.withError e).tb = s.tb := rfl
@[simp] theorem State.sb_withError (s : State) (e : ErrData) : (s.withError e).sb = s.sb := rfl
@[simp] theorem State.wd_withError (s : State) (e : ErrData) : (s.withError e).wd = s.wd := rfl
@[simp] theorem State.bd_withError (s : State) (e : ErrData) : (s.withError e).bd = s.bd := rfl
@[simp] theorem State.moves_withError (s : State) (e : ErrData) : (s.withError e).moves = s.moves := rfl
@[simp] theorem State.seen_withError (s : State) (e : ErrData) : (s.withError e).seen = s.seen := rfl

/-! ### A command that ends without a raise -/

@[simp] theorem State.x_done (s : State) : (s.done).x = s.x := rfl
@[simp] theorem State.status_done (s : State) : (s.done).status = s.status.success := rfl
@[simp] theorem State.ctrl_done (s : State) : (s.done).ctrl = s.ctrl := rfl
@[simp] theorem State.errc_done (s : State) : (s.done).errc = s.errc := rfl
@[simp] theorem State.errinfo0_done (s : State) : (s.done).errinfo0 = s.errinfo0 := rfl
@[simp] theorem State.errinfo1_done (s : State) : (s.done).errinfo1 = s.errinfo1 := rfl
@[simp] theorem State.errinfo2_done (s : State) : (s.done).errinfo2 = s.errinfo2 := rfl
@[simp] theorem State.f_done (s : State) : (s.done).f = s.f := rfl
@[simp] theorem State.tb_done (s : State) : (s.done).tb = s.tb := rfl
@[simp] theorem State.sb_done (s : State) : (s.done).sb = s.sb := rfl
@[simp] theorem State.wd_done (s : State) : (s.done).wd = s.wd := rfl
@[simp] theorem State.bd_done (s : State) : (s.done).bd = s.bd := rfl
@[simp] theorem State.moves_done (s : State) : (s.done).moves = s.moves := rfl
@[simp] theorem State.seen_done (s : State) : (s.done).seen = s.seen := rfl

/-! ### The acknowledgement of an error -/

@[simp] theorem State.x_ackError (s : State) : (s.ackError).x = s.x := rfl
@[simp] theorem State.status_ackError (s : State) : (s.ackError).status = { s.status with err := false } := rfl
@[simp] theorem State.ctrl_ackError (s : State) : (s.ackError).ctrl = s.ctrl := rfl
@[simp] theorem State.errc_ackError (s : State) : (s.ackError).errc = 0 := rfl
@[simp] theorem State.errinfo0_ackError (s : State) : (s.ackError).errinfo0 = 0 := rfl
@[simp] theorem State.errinfo1_ackError (s : State) : (s.ackError).errinfo1 = 0 := rfl
@[simp] theorem State.errinfo2_ackError (s : State) : (s.ackError).errinfo2 = 0 := rfl
@[simp] theorem State.f_ackError (s : State) : (s.ackError).f = s.f := rfl
@[simp] theorem State.tb_ackError (s : State) : (s.ackError).tb = s.tb := rfl
@[simp] theorem State.sb_ackError (s : State) : (s.ackError).sb = s.sb := rfl
@[simp] theorem State.wd_ackError (s : State) : (s.ackError).wd = s.wd := rfl
@[simp] theorem State.bd_ackError (s : State) : (s.ackError).bd = s.bd := rfl
@[simp] theorem State.moves_ackError (s : State) : (s.ackError).moves = s.moves := rfl
@[simp] theorem State.seen_ackError (s : State) : (s.ackError).seen = s.seen := rfl

/-! ### Reset -/

@[simp] theorem State.x_resetMachine (s : State) : (s.resetMachine).x = State.reset.x := rfl
@[simp] theorem State.status_resetMachine (s : State) : (s.resetMachine).status = State.reset.status := rfl
@[simp] theorem State.ctrl_resetMachine (s : State) : (s.resetMachine).ctrl = State.reset.ctrl := rfl
@[simp] theorem State.errc_resetMachine (s : State) : (s.resetMachine).errc = State.reset.errc := rfl
@[simp] theorem State.errinfo0_resetMachine (s : State) : (s.resetMachine).errinfo0 = State.reset.errinfo0 := rfl
@[simp] theorem State.errinfo1_resetMachine (s : State) : (s.resetMachine).errinfo1 = State.reset.errinfo1 := rfl
@[simp] theorem State.errinfo2_resetMachine (s : State) : (s.resetMachine).errinfo2 = State.reset.errinfo2 := rfl
@[simp] theorem State.f_resetMachine (s : State) : (s.resetMachine).f = State.reset.f := rfl
@[simp] theorem State.tb_resetMachine (s : State) : (s.resetMachine).tb = State.reset.tb := rfl
@[simp] theorem State.sb_resetMachine (s : State) : (s.resetMachine).sb = State.reset.sb := rfl
@[simp] theorem State.wd_resetMachine (s : State) : (s.resetMachine).wd = State.reset.wd := rfl
@[simp] theorem State.bd_resetMachine (s : State) : (s.resetMachine).bd = State.reset.bd := rfl
@[simp] theorem State.moves_resetMachine (s : State) : (s.resetMachine).moves = s.moves := rfl
@[simp] theorem State.seen_resetMachine (s : State) : (s.resetMachine).seen = s.seen := rfl

/-! ### A buffer write -/

@[simp] theorem State.x_setBuf (s : State) (b : Buf) (v : Buffer) : (s.setBuf b v).x = s.x := by
  cases b <;> rfl
@[simp] theorem State.status_setBuf (s : State) (b : Buf) (v : Buffer) : (s.setBuf b v).status = s.status := by
  cases b <;> rfl
@[simp] theorem State.ctrl_setBuf (s : State) (b : Buf) (v : Buffer) : (s.setBuf b v).ctrl = s.ctrl := by
  cases b <;> rfl
@[simp] theorem State.errc_setBuf (s : State) (b : Buf) (v : Buffer) : (s.setBuf b v).errc = s.errc := by
  cases b <;> rfl
@[simp] theorem State.errinfo0_setBuf (s : State) (b : Buf) (v : Buffer) : (s.setBuf b v).errinfo0 = s.errinfo0 := by
  cases b <;> rfl
@[simp] theorem State.errinfo1_setBuf (s : State) (b : Buf) (v : Buffer) : (s.setBuf b v).errinfo1 = s.errinfo1 := by
  cases b <;> rfl
@[simp] theorem State.errinfo2_setBuf (s : State) (b : Buf) (v : Buffer) : (s.setBuf b v).errinfo2 = s.errinfo2 := by
  cases b <;> rfl
@[simp] theorem State.f_setBuf (s : State) (b : Buf) (v : Buffer) : (s.setBuf b v).f = s.f := by
  cases b <;> rfl
@[simp] theorem State.tb_setBuf (s : State) (b : Buf) (v : Buffer) : (s.setBuf b v).tb = if b = .tb then v else s.tb := by
  cases b <;> rfl
@[simp] theorem State.sb_setBuf (s : State) (b : Buf) (v : Buffer) : (s.setBuf b v).sb = if b = .sb then v else s.sb := by
  cases b <;> rfl
@[simp] theorem State.wd_setBuf (s : State) (b : Buf) (v : Buffer) : (s.setBuf b v).wd = s.wd := by
  cases b <;> rfl
@[simp] theorem State.bd_setBuf (s : State) (b : Buf) (v : Buffer) : (s.setBuf b v).bd = s.bd := by
  cases b <;> rfl
@[simp] theorem State.moves_setBuf (s : State) (b : Buf) (v : Buffer) : (s.setBuf b v).moves = s.moves := by
  cases b <;> rfl
@[simp] theorem State.seen_setBuf (s : State) (b : Buf) (v : Buffer) : (s.setBuf b v).seen = s.seen := by
  cases b <;> rfl

/-! ### A read at the ports -/

@[simp] theorem State.x_hostReadX (s : State) (i : Reg) : (s.hostReadX i).x = s.x := rfl
@[simp] theorem State.status_hostReadX (s : State) (i : Reg) : (s.hostReadX i).status = s.status := rfl
@[simp] theorem State.ctrl_hostReadX (s : State) (i : Reg) : (s.hostReadX i).ctrl = s.ctrl := rfl
@[simp] theorem State.errc_hostReadX (s : State) (i : Reg) : (s.hostReadX i).errc = s.errc := rfl
@[simp] theorem State.errinfo0_hostReadX (s : State) (i : Reg) : (s.hostReadX i).errinfo0 = s.errinfo0 := rfl
@[simp] theorem State.errinfo1_hostReadX (s : State) (i : Reg) : (s.hostReadX i).errinfo1 = s.errinfo1 := rfl
@[simp] theorem State.errinfo2_hostReadX (s : State) (i : Reg) : (s.hostReadX i).errinfo2 = s.errinfo2 := rfl
@[simp] theorem State.f_hostReadX (s : State) (i : Reg) : (s.hostReadX i).f = s.f := rfl
@[simp] theorem State.tb_hostReadX (s : State) (i : Reg) : (s.hostReadX i).tb = s.tb := rfl
@[simp] theorem State.sb_hostReadX (s : State) (i : Reg) : (s.hostReadX i).sb = s.sb := rfl
@[simp] theorem State.wd_hostReadX (s : State) (i : Reg) : (s.hostReadX i).wd = s.wd := rfl
@[simp] theorem State.bd_hostReadX (s : State) (i : Reg) : (s.hostReadX i).bd = s.bd := rfl
@[simp] theorem State.moves_hostReadX (s : State) (i : Reg) : (s.hostReadX i).moves = s.moves := rfl
@[simp] theorem State.seen_hostReadX (s : State) (i : Reg) : (s.hostReadX i).seen = .x i (s.readX i) :: s.seen := rfl

/-! ### A read of STATUS at the ports -/

@[simp] theorem State.x_hostReadStatus (s : State) : (s.hostReadStatus).x = s.x := rfl
@[simp] theorem State.status_hostReadStatus (s : State) : (s.hostReadStatus).status = s.status := rfl
@[simp] theorem State.ctrl_hostReadStatus (s : State) : (s.hostReadStatus).ctrl = s.ctrl := rfl
@[simp] theorem State.errc_hostReadStatus (s : State) : (s.hostReadStatus).errc = s.errc := rfl
@[simp] theorem State.errinfo0_hostReadStatus (s : State) : (s.hostReadStatus).errinfo0 = s.errinfo0 := rfl
@[simp] theorem State.errinfo1_hostReadStatus (s : State) : (s.hostReadStatus).errinfo1 = s.errinfo1 := rfl
@[simp] theorem State.errinfo2_hostReadStatus (s : State) : (s.hostReadStatus).errinfo2 = s.errinfo2 := rfl
@[simp] theorem State.f_hostReadStatus (s : State) : (s.hostReadStatus).f = s.f := rfl
@[simp] theorem State.tb_hostReadStatus (s : State) : (s.hostReadStatus).tb = s.tb := rfl
@[simp] theorem State.sb_hostReadStatus (s : State) : (s.hostReadStatus).sb = s.sb := rfl
@[simp] theorem State.wd_hostReadStatus (s : State) : (s.hostReadStatus).wd = s.wd := rfl
@[simp] theorem State.bd_hostReadStatus (s : State) : (s.hostReadStatus).bd = s.bd := rfl
@[simp] theorem State.moves_hostReadStatus (s : State) : (s.hostReadStatus).moves = s.moves := rfl
@[simp] theorem State.seen_hostReadStatus (s : State) : (s.hostReadStatus).seen = .status (statusWord s) (irq s) :: s.seen := rfl

/-! ### A word placed for the next step -/

@[simp] theorem State.x_withFetchWord (s : State) (nbits w : Nat) : (s.withFetchWord nbits w).x = s.x := rfl
@[simp] theorem State.status_withFetchWord (s : State) (nbits w : Nat) : (s.withFetchWord nbits w).status = s.status := rfl
@[simp] theorem State.ctrl_withFetchWord (s : State) (nbits w : Nat) : (s.withFetchWord nbits w).ctrl = s.ctrl := rfl
@[simp] theorem State.errc_withFetchWord (s : State) (nbits w : Nat) : (s.withFetchWord nbits w).errc = s.errc := rfl
@[simp] theorem State.errinfo0_withFetchWord (s : State) (nbits w : Nat) : (s.withFetchWord nbits w).errinfo0 = s.errinfo0 := rfl
@[simp] theorem State.errinfo1_withFetchWord (s : State) (nbits w : Nat) : (s.withFetchWord nbits w).errinfo1 = s.errinfo1 := rfl
@[simp] theorem State.errinfo2_withFetchWord (s : State) (nbits w : Nat) : (s.withFetchWord nbits w).errinfo2 = s.errinfo2 := rfl
@[simp] theorem State.f_withFetchWord (s : State) (nbits w : Nat) : (s.withFetchWord nbits w).f = s.f := rfl
@[simp] theorem State.tb_withFetchWord (s : State) (nbits w : Nat) : (s.withFetchWord nbits w).tb = s.tb := rfl
@[simp] theorem State.sb_withFetchWord (s : State) (nbits w : Nat) : (s.withFetchWord nbits w).sb = s.sb := rfl
@[simp] theorem State.wd_withFetchWord (s : State) (nbits w : Nat) : (s.withFetchWord nbits w).wd = s.wd := rfl
@[simp] theorem State.bd_withFetchWord (s : State) (nbits w : Nat) : (s.withFetchWord nbits w).bd = s.bd := rfl
@[simp] theorem State.moves_withFetchWord (s : State) (nbits w : Nat) : (s.withFetchWord nbits w).moves = .issue (BitVec.ofNat 32 (w % 2 ^ nbits)) :: s.moves := rfl
@[simp] theorem State.seen_withFetchWord (s : State) (nbits w : Nat) : (s.withFetchWord nbits w).seen = s.seen := rfl

/-! ### The STATUS fields a command leaves -/

@[simp] theorem Status.busy_success (st : Status) : (st.success).busy = false := rfl
@[simp] theorem Status.err_success (st : Status) : (st.success).err = st.err := rfl
@[simp] theorem Status.last_success (st : Status) : (st.success).last = 0 := rfl
@[simp] theorem Status.wdini_success (st : Status) : (st.success).wdini = st.wdini := rfl
@[simp] theorem Status.wdrdy_success (st : Status) : (st.success).wdrdy = st.wdrdy := rfl
@[simp] theorem Status.wdovr_success (st : Status) : (st.success).wdovr = st.wdovr := rfl
@[simp] theorem Status.busy_failure (st : Status) (k : BitVec 4) : (st.failure k).busy = false := rfl
@[simp] theorem Status.err_failure (st : Status) (k : BitVec 4) : (st.failure k).err = true := rfl
@[simp] theorem Status.last_failure (st : Status) (k : BitVec 4) : (st.failure k).last = k := rfl
@[simp] theorem Status.wdini_failure (st : Status) (k : BitVec 4) : (st.failure k).wdini = st.wdini := rfl
@[simp] theorem Status.wdrdy_failure (st : Status) (k : BitVec 4) : (st.failure k).wdrdy = st.wdrdy := rfl
@[simp] theorem Status.wdovr_failure (st : Status) (k : BitVec 4) : (st.failure k).wdovr = st.wdovr := rfl

/-! ### Reading a register after an update that writes none -/

@[simp] theorem State.readX_withError (s : State) (e : ErrData) (r : Reg) : (s.withError e).readX r = s.readX r := rfl
@[simp] theorem State.readX_done (s : State) (r : Reg) : s.done.readX r = s.readX r := rfl
@[simp] theorem State.readX_ackError (s : State) (r : Reg) : s.ackError.readX r = s.readX r := rfl
@[simp] theorem State.readX_setBuf (s : State) (b : Buf) (v : Buffer) (r : Reg) : (s.setBuf b v).readX r = s.readX r := by
  cases b <;> rfl

end Sys2Proof.Machine
end

