-- ==== Sys2Proof/Laws/Ops.lean ====
section
/-! SUPPORT. What each shared operation does, said once: registers, the table file, the buffer selection, raising an error and
completing a command. -/

namespace Sys2Proof.Machine

/-! ### Ending a command -/

/-- A raise answers the state with the error recorded and nothing else. -/
@[simp] theorem raise_eq_next (s t : State) (e : ErrData) : raise s e = .next t ↔ t = s.withError e := by
  simp only [raise, Host.Outcome.next.injEq]; exact eq_comm

/-- A completed command answers what it wrote, with LAST 0. -/
@[simp] theorem complete_eq_next (s t : State) : complete s = .next t ↔ t = s.done := by
  simp only [complete, Host.Outcome.next.injEq]; exact eq_comm

@[simp] theorem raise_ne_refused (s : State) (e : ErrData) (r : Refusal) : raise s e ≠ .refused r := by simp [raise]

@[simp] theorem complete_ne_refused (s : State) (r : Refusal) : complete s ≠ .refused r := by simp [complete]

/-- No raise leaves LAST 0. -/
theorem errCode_ne_zero (k : ErrKind) : errCode k ≠ 0 := by cases k <;> decide

/-- KIND, the low four bits of the ERRC of a raise, is the kind's code. -/
theorem errcWord_kind (e : ErrData) : (errcWord e).extractLsb' 0 4 = errCode e.kind := by
  apply BitVec.eq_of_toNat_eq
  have h : (errCode e.kind).toNat < 16 := (errCode e.kind).isLt
  simp only [errcWord, BitVec.extractLsb'_toNat, BitVec.toNat_ofNat, Nat.shiftRight_zero]
  omega

/-! ### Registers -/

/-- `x0` reads 0. -/
@[simp] theorem State.readX_zero (s : State) : s.readX 0 = 0 := rfl

/-- Reading a register after a register write: the written register has the value, unless it is `x0`. -/
theorem State.readX_writeX (s : State) (i r : Reg) (v : Word) :
    (s.writeX i v).readX r = if r = 0 then 0 else if r = i then v else s.readX r := by
  unfold State.readX State.writeX
  by_cases hr : r = 0
  · simp [hr]
  · by_cases hi : i = 0
    · subst hi; simp [hr]
    · by_cases h : r = i
      · subst h; simp [hr]
      · have : (i : Nat) ≠ r := fun e => h (Fin.ext e.symm)
        simp [hr, hi, h, Vector.getElem_set_ne _ _ this]

/-- A register write changes no other register's storage. -/
theorem State.x_writeX_zero (s : State) (v : Word) : s.writeX 0 v = s := rfl

/-- The stored `x[0]` is never written. -/
theorem State.x_zero_writeX (s : State) (i : Reg) (v : Word) : (s.writeX i v).x[0] = s.x[0] := by
  unfold State.writeX
  split
  · rfl
  · rename_i h
    have : (i : Nat) ≠ 0 := fun e => h (Fin.ext e)
    simp [Vector.getElem_set_ne _ _ this]

/-- A register write is a write of the field `x`. -/
theorem State.writeX_eq (s : State) (i : Reg) (v : Word) : s.writeX i v = { s with x := (s.writeX i v).x } := by
  unfold State.writeX; split <;> rfl

/-! ### The table file -/

/-- Reading an entry after a table-file write. -/
theorem TableFile.get_put (f : TableFile) (k j : Nat) (v : Word) (hk : k < Config.nfid) :
    (f.put k v).get j = if j = k then v else f.get j := by
  unfold TableFile.get TableFile.put
  rw [Vector.getElem?_setIfInBounds]
  split
  · subst_vars; simp
  · rename_i h; simp [Ne.symm h]

/-- No entry is above 36. -/
theorem TableFile.get_of_ge (f : TableFile) (k : Nat) (hk : Config.nfid ≤ k) : f.get k = 0 := by
  unfold TableFile.get
  rw [Vector.getElem?_eq_none hk]; rfl

/-- A table file is its entries. -/
theorem TableFile.ext_get (f g : TableFile) (h : ∀ k, k < Config.nfid → f.get k = g.get k) : f = g := by
  apply Vector.ext
  intro k hk
  have := h k hk
  simpa [TableFile.get, hk] using this

/-- The default entries: 5 for `version`, 0 for every other. -/
theorem TableFile.get_default (k : Nat) : TableFile.default.get k = if k = 0 then 5 else 0 := by
  by_cases hk : k < Config.nfid
  · unfold TableFile.get TableFile.default
    rw [Vector.getElem?_eq_getElem hk]
    by_cases h : k = 0
    · subst h; simp
    · rw [Option.getD_some, Vector.getElem_set_ne _ _ (Ne.symm h)]; simp [h]
  · rw [TableFile.get_of_ge _ _ (by omega)]
    rw [if_neg (by rintro rfl; exact hk (by decide))]

/-! ### The selected buffer -/

@[simp] theorem State.buf_setBuf_self (s : State) (b : Buf) (v : Buffer) : (s.setBuf b v).buf b = v := by cases b <;> rfl

theorem State.buf_setBuf_ne (s : State) (b c : Buf) (v : Buffer) (h : c ≠ b) : (s.setBuf b v).buf c = s.buf c := by
  cases b <;> cases c <;> first | rfl | exact absurd rfl h

@[simp] theorem State.buf_done (s : State) (b : Buf) : s.done.buf b = s.buf b := by cases b <;> rfl

@[simp] theorem State.buf_withError (s : State) (e : ErrData) (b : Buf) : (s.withError e).buf b = s.buf b := by
  cases b <;> rfl

@[simp] theorem State.buf_writeX (s : State) (i : Reg) (v : Word) (b : Buf) : (s.writeX i v).buf b = s.buf b := by
  cases b <;> simp [State.buf]

end Sys2Proof.Machine
end

