-- ==== Sys2Proof/Laws/Commands.lean ====
section
/-! SUPPORT. What each command can answer, said once: an error recorded in the state before it, or the named pieces of state
written and LAST 0. -/

namespace Sys2Proof.Machine

variable {s t : State}

/-! ### Commands that write one register -/

theorem execLi_cases {rd : Reg} {simm : Int} (h : execLi rd simm s = .next t) : ∃ v, t = (s.writeX rd v).done :=
  ⟨_, (complete_eq_next _ _).1 h⟩

theorem execMkdec_cases {rd ra : Reg} {e : Int} (h : execMkdec rd ra e s = .next t) :
    (∃ e, t = s.withError e) ∨ ∃ v, t = (s.writeX rd v).done := by
  simp only [execMkdec] at h
  (repeat' split at h) <;> simp only [raise_eq_next, complete_eq_next] at h
  all_goals first | exact .inl ⟨_, h⟩ | exact .inr ⟨_, h⟩

theorem execRdsr_cases {rd : Reg} {sr : Nat} (h : execRdsr rd sr s = .next t) :
    (∃ e, t = s.withError e) ∨ ∃ v, t = (s.writeX rd v).done := by
  simp only [execRdsr] at h
  (repeat' split at h) <;> simp only [raise_eq_next, complete_eq_next] at h
  all_goals first | exact .inl ⟨_, h⟩ | exact .inr ⟨_, h⟩

theorem execLdb_cases {rd ra : Reg} {b : Buf} {off : Nat} (h : execLdb rd ra b off s = .next t) :
    (∃ e, t = s.withError e) ∨ ∃ v, t = (s.writeX rd v).done := by
  simp only [execLdb] at h
  (repeat' split at h) <;> simp only [raise_eq_next, complete_eq_next] at h
  all_goals first | exact .inl ⟨_, h⟩ | exact .inr ⟨_, h⟩

theorem execLenb_cases {rd : Reg} {b : Buf} (h : execLenb rd b s = .next t) : ∃ v, t = (s.writeX rd v).done :=
  ⟨_, (complete_eq_next _ _).1 h⟩

theorem execFix_cases {rd ra rb : Reg} {bits : Nat} {sg : Bool} (h : execFix rd ra rb bits sg s = .next t) :
    (∃ e, t = s.withError e) ∨ ∃ v, t = (s.writeX rd v).done := by
  simp only [execFix] at h
  (repeat' split at h) <;> simp only [raise_eq_next, complete_eq_next] at h
  all_goals first | exact .inl ⟨_, h⟩ | exact .inr ⟨_, h⟩

theorem execUnfix_cases {rd ra rb : Reg} {bits : Nat} {sg : Bool} (h : execUnfix rd ra rb bits sg s = .next t) :
    (∃ e, t = s.withError e) ∨ ∃ v, t = (s.writeX rd v).done := by
  simp only [execUnfix] at h
  (repeat' split at h) <;> simp only [raise_eq_next, complete_eq_next] at h
  all_goals first | exact .inl ⟨_, h⟩ | exact .inr ⟨_, h⟩

theorem execF12enc_cases {rd ra : Reg} (h : execF12enc rd ra s = .next t) :
    (∃ e, t = s.withError e) ∨ ∃ v, t = (s.writeX rd v).done := by
  simp only [execF12enc] at h
  (repeat' split at h) <;> simp only [raise_eq_next, complete_eq_next] at h
  all_goals first | exact .inl ⟨_, h⟩ | exact .inr ⟨_, h⟩

theorem execF12dec_cases {rd ra : Reg} (h : execF12dec rd ra s = .next t) : ∃ v, t = (s.writeX rd v).done :=
  ⟨_, (complete_eq_next _ _).1 h⟩

theorem execD16enc_cases {rd ra : Reg} (h : execD16enc rd ra s = .next t) :
    (∃ e, t = s.withError e) ∨ ∃ v, t = (s.writeX rd v).done := by
  simp only [execD16enc] at h
  (repeat' split at h) <;> simp only [raise_eq_next, complete_eq_next] at h
  all_goals first | exact .inl ⟨_, h⟩ | exact .inr ⟨_, h⟩

theorem execD16dec_cases {rd ra : Reg} (h : execD16dec rd ra s = .next t) : ∃ v, t = (s.writeX rd v).done :=
  ⟨_, (complete_eq_next _ _).1 h⟩

theorem execS10_cases {rd ra : Reg} (h : execS10 rd ra s = .next t) : ∃ v, t = (s.writeX rd v).done :=
  ⟨_, (complete_eq_next _ _).1 h⟩

theorem execQpack_cases {rd ra : Reg} (h : execQpack rd ra s = .next t) :
    (∃ e, t = s.withError e) ∨ ∃ v, t = (s.writeX rd v).done := by
  simp only [execQpack] at h
  (repeat' split at h) <;> simp only [raise_eq_next, complete_eq_next] at h
  all_goals first | exact .inl ⟨_, h⟩ | exact .inr ⟨_, h⟩

theorem execQunpack_cases {rd ra : Reg} (h : execQunpack rd ra s = .next t) : ∃ v, t = (s.writeX rd v).done :=
  ⟨_, (complete_eq_next _ _).1 h⟩

theorem execCrc8_cases {rd ra : Reg} (h : execCrc8 rd ra s = .next t) :
    (∃ e, t = s.withError e) ∨ ∃ v, t = (s.writeX rd v).done := by
  simp only [execCrc8] at h
  (repeat' split at h) <;> simp only [raise_eq_next, complete_eq_next] at h
  all_goals first | exact .inl ⟨_, h⟩ | exact .inr ⟨_, h⟩

theorem execCrc16_cases {rd ra : Reg} (h : execCrc16 rd ra s = .next t) :
    (∃ e, t = s.withError e) ∨ ∃ v, t = (s.writeX rd v).done := by
  simp only [execCrc16] at h
  (repeat' split at h) <;> simp only [raise_eq_next, complete_eq_next] at h
  all_goals first | exact .inl ⟨_, h⟩ | exact .inr ⟨_, h⟩

theorem execTget_cases {rd : Reg} {fid : Nat} (h : execTget rd fid s = .next t) :
    (∃ e, t = s.withError e) ∨ ∃ v, t = (s.writeX rd v).done := by
  simp only [execTget] at h
  (repeat' split at h) <;> simp only [raise_eq_next, complete_eq_next] at h
  all_goals first | exact .inl ⟨_, h⟩ | exact .inr ⟨_, h⟩

/-! ### The system commands -/

theorem execNop_cases (h : execNop s = .next t) : t = s.done := (complete_eq_next _ _).1 h

theorem execClrerr_cases (h : execClrerr s = .next t) : t = s.ackError.done := (complete_eq_next _ _).1 h

theorem execSrst_cases (h : execSrst s = .next t) : t = s.resetMachine.done := (complete_eq_next _ _).1 h

theorem execWrsr_cases {ra : Reg} {sr : Nat} (h : execWrsr ra sr s = .next t) :
    (∃ e, t = s.withError e) ∨ t = State.done { s with ctrl := (s.readX ra).setWidth 2 } := by
  simp only [execWrsr] at h
  (repeat' split at h) <;> simp only [raise_eq_next, complete_eq_next] at h
  all_goals first | exact .inl ⟨_, h⟩ | exact .inr h

/-! ### The buffer commands -/

theorem execClrb_cases {b : Buf} (h : execClrb b s = .next t) : t = (s.setBuf b Buffer.empty).done :=
  (complete_eq_next _ _).1 h

theorem execPushb_cases {ra : Reg} {b : Buf} (h : execPushb ra b s = .next t) :
    (∃ e, t = s.withError e) ∨
      (s.buf b).len ≠ bufCap b ∧
        t = (s.setBuf b ⟨(s.buf b).mem.write (s.buf b).len ((s.readX ra).setWidth 8), (s.buf b).len + 1⟩).done := by
  simp only [execPushb] at h
  split at h <;> simp only [raise_eq_next, complete_eq_next] at h
  · exact .inl ⟨_, h⟩
  · exact .inr ⟨‹_›, h⟩

theorem execStb_cases {ra rb : Reg} {b : Buf} {off : Nat} (h : execStb ra rb b off s = .next t) :
    (∃ e, t = s.withError e) ∨
      bufIndex s ra off < (s.buf b).len ∧
        t = (s.setBuf b ⟨(s.buf b).mem.write (bufIndex s ra off) ((s.readX rb).setWidth 8), (s.buf b).len⟩).done := by
  simp only [execStb] at h
  split at h <;> simp only [raise_eq_next, complete_eq_next] at h
  · exact .inl ⟨_, h⟩
  · exact .inr ⟨by omega, h⟩

/-! ### The bit stuffer, CRC framing -/

theorem execStuff_cases (h : execStuff s = .next t) :
    (∃ e, t = s.withError e) ∨ ∃ out, out.length ≤ Config.sbCap ∧ t = State.done { s with sb := Buffer.ofBytes out } := by
  simp only [execStuff] at h
  split at h <;> simp only [raise_eq_next, complete_eq_next] at h
  · exact .inl ⟨_, h⟩
  · exact .inr ⟨_, by omega, h⟩

theorem execUnstuff_cases (h : execUnstuff s = .next t) :
    (∃ e, t = s.withError e) ∨ ∃ out, out.length ≤ Config.tbCap ∧ t = State.done { s with tb := Buffer.ofBytes out } := by
  simp only [execUnstuff] at h
  (repeat' split at h) <;> simp only [raise_eq_next, complete_eq_next] at h
  all_goals first | exact .inl ⟨_, h⟩ | exact .inr ⟨_, by omega, h⟩

theorem execFrgen_cases (h : execFrgen s = .next t) :
    (∃ e, t = s.withError e) ∨
      ∃ v, s.tb.len = Config.bodyLen v ∧
        t = State.done { s with tb :=
          ⟨s.tb.mem.writeBytes (Config.bodyLen v) (checksumBytes v s.tb.mem), Config.frameLen v⟩ } := by
  simp only [execFrgen] at h
  (repeat' split at h) <;> simp only [raise_eq_next, complete_eq_next] at h
  all_goals first | exact .inl ⟨_, h⟩ | exact .inr ⟨_, by omega, h⟩

theorem execFrchk_cases (h : execFrchk s = .next t) :
    (∃ e, t = s.withError e) ∨
      ∃ v, Config.frameLen v ≤ s.tb.len ∧
        t = State.done { s with tb := ⟨s.tb.mem.clear (Config.bodyLen v) s.tb.len, Config.bodyLen v⟩ } := by
  simp only [execFrchk] at h
  (repeat' split at h) <;> simp only [raise_eq_next, complete_eq_next] at h
  all_goals first | exact .inl ⟨_, h⟩ | exact .inr ⟨_, by omega, h⟩

/-! ### The table codec -/

theorem execEncode_cases {v : Nat} (h : execEncode v s = .next t) :
    (∃ e, encodeBody v s.f = .error (.error e) ∧ t = s.withError e) ∨
      ∃ body, encodeBody v s.f = .ok body ∧ t = State.done { s with tb := Buffer.ofBytes body } := by
  simp only [execEncode] at h
  split at h
  · exact .inr ⟨_, ‹_›, (complete_eq_next _ _).1 h⟩
  · exact .inl ⟨_, ‹_›, (raise_eq_next _ _ _).1 h⟩
  · cases h

theorem execDecode_cases (h : execDecode s = .next t) :
    (∃ e, t = s.withError e) ∨ ∃ g, t = State.done { s with f := g } := by
  simp only [execDecode] at h
  (repeat' split at h) <;> first | cases h; done | simp only [raise_eq_next, complete_eq_next] at h
  all_goals first | exact .inl ⟨_, h⟩ | exact .inr ⟨_, h⟩

theorem execTset_cases {ra : Reg} {fid : Nat} (h : execTset ra fid s = .next t) :
    (∃ e, t = s.withError e) ∨ fid ≤ 36 ∧ t = State.done { s with f := s.f.put fid (s.readX ra) } := by
  simp only [execTset] at h
  split at h <;> simp only [raise_eq_next, complete_eq_next] at h
  · exact .inl ⟨_, h⟩
  · exact .inr ⟨by omega, h⟩

theorem execTdef_cases (h : execTdef s = .next t) : t = State.done { s with f := TableFile.default } :=
  (complete_eq_next _ _).1 h

/-! ### The waveform decoder -/

theorem execWdinit_cases {ra rb : Reg} (h : execWdinit ra rb s = .next t) :
    (∃ e, t = s.withError e) ∨
      wdRefuses (s.readX ra) (s.readX rb) = false ∧
        t = State.done { s with
          wd := wdConfigured (s.readX ra) (s.readX rb), bd := Bd.reset
          status := { s.status with wdini := true, wdrdy := false, wdovr := false } } := by
  simp only [execWdinit] at h
  split at h <;> simp only [raise_eq_next, complete_eq_next] at h
  · exact .inl ⟨_, h⟩
  · rename_i hw
    exact .inr ⟨by simpa using hw, h⟩

theorem execWdsamp_cases {rd ra rb : Reg} (h : execWdsamp rd ra rb s = .next t) :
    (∃ e, t = s.withError e) ∨
      s.status.wdini = true ∧ stale s.wd (s.readX ra).toNat = true ∧ t = (s.writeX rd 0).done ∨
      s.status.wdini = true ∧ stale s.wd (s.readX ra).toNat = false ∧
        ∃ r, r = addSample s ⟨(s.readX ra).toNat, amplitude (s.readX rb)⟩ ∧ t = (r.1.writeX rd r.2.word).done := by
  simp only [execWdsamp] at h
  (repeat' split at h) <;> simp only [raise_eq_next, complete_eq_next] at h
  · exact .inl ⟨_, h⟩
  · exact .inr (.inl ⟨by simpa using ‹¬ s.status.wdini = false›, ‹_›, h⟩)
  · exact .inr (.inr ⟨by simpa using ‹¬ s.status.wdini = false›, by simpa using ‹¬ stale _ _ = true›, _, rfl, h⟩)

theorem execWdgetb_cases {rd : Reg} (h : execWdgetb rd s = .next t) :
    ∃ v, t = (State.writeX { s with status := { s.status with wdrdy := false } } rd v).done := by
  simp only [execWdgetb] at h
  split at h <;> simp only [complete_eq_next] at h
  · exact ⟨_, h⟩
  · refine ⟨0xFFFFFFFFFFFFFFFF, h.trans ?_⟩
    have : { s.status with wdrdy := false } = s.status := by
      rw [show false = s.status.wdrdy by simpa using ‹¬ s.status.wdrdy = true›]
    rw [this]

end Sys2Proof.Machine
end

