-- ==== Sys2Proof/Laws/Memory.lean ====
section
/-! SUPPORT. The byte buffers' memory: every operation keeps the canonical form, what a read gives after each, and equal reads
make equal memories. -/

namespace Sys2Proof.Machine

/-! ### The canonical form -/

/-- Every listed index is above `a`. -/
def Memory.above (a : Nat) (m : Memory) : Prop := ∀ c ∈ m, a < c.1

theorem Memory.wf_cons (c : Host.Cell) (m : Memory) :
    Memory.wf (c :: m) = true ↔ c.2 ≠ 0 ∧ Memory.above c.1 m ∧ Memory.wf m = true := by
  simp [Memory.wf, Memory.above, and_assoc]

theorem Memory.wf_nil : Memory.wf [] = true := rfl

/-- An index below every listed one reads 0. -/
theorem Memory.read_of_above (m : Memory) (a : Nat) (h : Memory.above a m) : Memory.read m a = 0 := by
  induction m with
  | nil => rfl
  | cons c r ih =>
    have hc : a < c.1 := h c (List.mem_cons_self ..)
    rw [Memory.read, if_neg (by omega)]
    exact ih fun d hd => h d (List.mem_cons_of_mem _ hd)

theorem Memory.above_mono {a b : Nat} {m : Memory} (hab : a ≤ b) (h : Memory.above b m) : Memory.above a m :=
  fun c hc => lt_of_le_of_lt hab (h c hc)

/-! ### Writing a byte -/

theorem Memory.mem_write {m : Memory} {a : Nat} {v : Byte} {c : Host.Cell} (h : c ∈ m.write a v) :
    c = (a, v) ∨ c ∈ m := by
  induction m with
  | nil =>
    unfold Memory.write at h
    split at h <;> simp_all
  | cons d r ih =>
    unfold Memory.write at h
    split at h
    · split at h <;> simp_all
    · split at h
      · split at h
        · exact .inr (List.mem_cons_of_mem _ h)
        · rcases List.mem_cons.1 h with h | h
          · exact .inl h
          · exact .inr (List.mem_cons_of_mem _ h)
      · rcases List.mem_cons.1 h with h | h
        · exact .inr (h ▸ List.mem_cons_self ..)
        · rcases ih h with h | h
          · exact .inl h
          · exact .inr (List.mem_cons_of_mem _ h)

/-- A write keeps the canonical form. -/
theorem Memory.write_wf (m : Memory) (a : Nat) (v : Byte) (h : m.wf = true) : (m.write a v).wf = true := by
  induction m with
  | nil =>
    unfold Memory.write
    split <;> simp_all [Memory.wf]
  | cons c r ih =>
    obtain ⟨hc, hab, hr⟩ := (Memory.wf_cons c r).1 h
    unfold Memory.write
    split
    · split
      · exact h
      · rename_i hlt hv
        exact (Memory.wf_cons _ _).2 ⟨hv, fun d hd => by
          rcases List.mem_cons.1 hd with rfl | hd
          · exact hlt
          · exact lt_trans hlt (hab d hd), h⟩
    · split
      · split
        · exact hr
        · rename_i _ he hv
          exact (Memory.wf_cons _ _).2 ⟨hv, fun d hd => by simpa [he] using hab d hd, hr⟩
      · rename_i hlt hne
        refine (Memory.wf_cons _ _).2 ⟨hc, fun d hd => ?_, ih hr⟩
        rcases Memory.mem_write hd with rfl | hd
        · show c.1 < a
          omega
        · exact hab d hd

/-- A read after a write gives the value written, and every other index as before. -/
theorem Memory.read_write (m : Memory) (a b : Nat) (v : Byte) (h : m.wf = true) :
    (m.write a v).read b = if b = a then v else m.read b := by
  induction m with
  | nil =>
    unfold Memory.write
    by_cases hv : v = 0
    · simp [hv, Memory.read]
    · rw [if_neg hv]
      by_cases hb : b = a
      · simp [hb, Memory.read]
      · simp [hb, Ne.symm hb, Memory.read]
  | cons c r ih =>
    obtain ⟨_, hab, hr⟩ := (Memory.wf_cons c r).1 h
    unfold Memory.write
    split
    · rename_i hlt
      have h0 : Memory.read (c :: r) a = 0 := Memory.read_of_above _ _ fun d hd => by
        rcases List.mem_cons.1 hd with rfl | hd
        · exact hlt
        · exact lt_trans hlt (hab d hd)
      split
      · rename_i hv
        by_cases hb : b = a
        · subst hb; simp [hv, h0]
        · simp [hb]
      · by_cases hb : b = a
        · subst hb; simp [Memory.read]
        · rw [Memory.read, if_neg (Ne.symm hb), if_neg hb]
    · split
      · rename_i _ he
        have h0 : Memory.read r a = 0 := Memory.read_of_above _ _ (he ▸ hab)
        split
        · rename_i hv
          by_cases hb : b = a
          · subst hb; simp [hv, h0]
          · rw [if_neg hb, Memory.read, if_neg (by omega)]
        · by_cases hb : b = a
          · subst hb; simp [Memory.read]
          · rw [Memory.read, if_neg (Ne.symm hb), if_neg hb, Memory.read, if_neg (by omega)]
      · rename_i hlt hne
        have hca : c.1 ≠ a := by omega
        by_cases hb : c.1 = b
        · rw [Memory.read, if_pos hb, if_neg (by omega), Memory.read, if_pos hb]
        · rw [Memory.read, if_neg hb, ih hr, Memory.read, if_neg hb]

/-! ### Zeroing a range, writing bytes in a row -/

theorem Memory.filter_wf (m : Memory) (p : Host.Cell → Bool) (h : m.wf = true) : Memory.wf (m.filter p) = true := by
  induction m with
  | nil => rfl
  | cons c r ih =>
    obtain ⟨hc, hab, hr⟩ := (Memory.wf_cons c r).1 h
    rw [List.filter_cons]
    split
    · exact (Memory.wf_cons _ _).2 ⟨hc, fun d hd => hab d (List.mem_of_mem_filter hd), ih hr⟩
    · exact ih hr

/-- Zeroing a range keeps the canonical form. -/
theorem Memory.clear_wf (m : Memory) (lo hi : Nat) (h : m.wf = true) : (m.clear lo hi).wf = true :=
  Memory.filter_wf m _ h

/-- After zeroing a range its bytes read 0 and every other as before. -/
theorem Memory.read_clear (m : Memory) (lo hi a : Nat) :
    (m.clear lo hi).read a = if lo ≤ a ∧ a < hi then 0 else m.read a := by
  induction m with
  | nil => simp [Memory.clear, Memory.read]
  | cons c r ih =>
    have hstep : Memory.clear (c :: r) lo hi =
        if lo ≤ c.1 ∧ c.1 < hi then Memory.clear r lo hi else c :: Memory.clear r lo hi := by
      unfold Memory.clear
      rw [List.filter_cons]
      by_cases hc : lo ≤ c.1 ∧ c.1 < hi
      · simp [hc.1, hc.2]
      · rw [if_neg hc, if_pos]
        simp only [Bool.not_eq_true', Bool.and_eq_false_iff, decide_eq_false_iff_not]
        omega
    rw [hstep]
    by_cases hc : lo ≤ c.1 ∧ c.1 < hi
    · rw [if_pos hc, ih]
      by_cases ha : c.1 = a
      · rw [if_pos (ha ▸ hc), if_pos (ha ▸ hc)]
      · rw [show Memory.read (c :: r) a = Memory.read r a by rw [Memory.read, if_neg ha]]
    · rw [if_neg hc, Memory.read, Memory.read, ih]
      by_cases ha : c.1 = a
      · rw [if_pos ha, if_pos ha, if_neg (ha ▸ hc)]
      · rw [if_neg ha, if_neg ha]

/-- Writing bytes in a row keeps the canonical form. -/
theorem Memory.writeBytes_wf (m : Memory) (a : Nat) (bs : List Byte) (h : m.wf = true) : (m.writeBytes a bs).wf = true := by
  induction bs generalizing m a with
  | nil => exact h
  | cons b r ih => exact ih _ _ (Memory.write_wf m a b h)

/-- After writing bytes from `a` on, the byte at `i` is the one written there, or as before. -/
theorem Memory.read_writeBytes (m : Memory) (a i : Nat) (bs : List Byte) (h : m.wf = true) :
    (m.writeBytes a bs).read i = if a ≤ i ∧ i < a + bs.length then bs.getD (i - a) 0 else m.read i := by
  induction bs generalizing m a with
  | nil => simp [Memory.writeBytes, show ¬ (a ≤ i ∧ i < a) by omega]
  | cons b r ih =>
    rw [Memory.writeBytes, ih _ _ (Memory.write_wf m a b h), Memory.read_write m a i b h]
    by_cases h1 : i = a
    · subst h1; simp
    · by_cases h2 : a + 1 ≤ i ∧ i < a + 1 + r.length
      · have h3 : a ≤ i ∧ i < a + (b :: r).length := by simp only [List.length_cons]; omega
        rw [if_pos h2, if_pos h3, show i - a = i - (a + 1) + 1 by omega, List.getD_cons_succ]
      · have h3 : ¬ (a ≤ i ∧ i < a + (b :: r).length) := by simp only [List.length_cons]; omega
        rw [if_neg h2, if_neg h3, if_neg h1]

theorem Memory.mem_writeBytes {m : Memory} {a : Nat} {bs : List Byte} {c : Host.Cell} (h : c ∈ m.writeBytes a bs) :
    c ∈ m ∨ (a ≤ c.1 ∧ c.1 < a + bs.length) := by
  induction bs generalizing m a with
  | nil => exact .inl h
  | cons b r ih =>
    rcases ih h with h | h
    · rcases Memory.mem_write h with rfl | h
      · right; simp
      · exact .inl h
    · right; simp only [List.length_cons]; omega

/-! ### A memory from a list of bytes -/

theorem Memory.mem_ofBytes {a : Nat} {bs : List Byte} {c : Host.Cell} (h : c ∈ Memory.ofBytes a bs) :
    a ≤ c.1 ∧ c.1 < a + bs.length ∧ c.2 ≠ 0 := by
  induction bs generalizing a with
  | nil => simp [Memory.ofBytes] at h
  | cons b r ih =>
    unfold Memory.ofBytes at h
    simp only [List.length_cons]
    split at h
    · have := ih h; exact ⟨by omega, by omega, this.2.2⟩
    · rcases List.mem_cons.1 h with rfl | h
      · simp_all
      · have := ih h; exact ⟨by omega, by omega, this.2.2⟩

/-- A memory made from bytes is canonical. -/
theorem Memory.ofBytes_wf (a : Nat) (bs : List Byte) : (Memory.ofBytes a bs).wf = true := by
  induction bs generalizing a with
  | nil => rfl
  | cons b r ih =>
    unfold Memory.ofBytes
    split
    · exact ih _
    · rename_i hb
      exact (Memory.wf_cons _ _).2 ⟨hb, fun c hc => by have := Memory.mem_ofBytes hc; show a < c.1; omega, ih _⟩

/-- A memory made from bytes holds them in order and zeros elsewhere. -/
theorem Memory.read_ofBytes (a i : Nat) (bs : List Byte) :
    (Memory.ofBytes a bs).read i = if a ≤ i then bs.getD (i - a) 0 else 0 := by
  induction bs generalizing a with
  | nil => simp [Memory.ofBytes, Memory.read]
  | cons b r ih =>
    have below : ¬ a + 1 ≤ i → Memory.read (Memory.ofBytes (a + 1) r) i = 0 := fun h => by rw [ih, if_neg h]
    have head : Memory.read (Memory.ofBytes a (b :: r)) i = if i = a then b else Memory.read (Memory.ofBytes (a + 1) r) i := by
      by_cases hb : b = 0
      · rw [Memory.ofBytes, if_pos hb]
        by_cases hi : i = a
        · rw [if_pos hi, below (by omega), hb]
        · rw [if_neg hi]
      · rw [Memory.ofBytes, if_neg hb, Memory.read]
        by_cases hi : i = a
        · rw [if_pos hi, if_pos hi.symm]
        · rw [if_neg hi, if_neg (Ne.symm hi)]
    rw [head]
    rcases Nat.lt_trichotomy i a with h | h | h
    · rw [if_neg (by omega), if_neg (by omega)]; exact below (by omega)
    · subst h; simp
    · rw [if_neg (by omega), ih, if_pos (by omega), if_pos (by omega), show i - a = i - (a + 1) + 1 by omega,
        List.getD_cons_succ]

/-! ### Equal reads, equal memories -/

/-- Two canonical memories that read alike are equal. -/
theorem Memory.ext_read (m n : Memory) (hm : m.wf = true) (hn : n.wf = true) (h : ∀ a, m.read a = n.read a) : m = n := by
  induction m generalizing n with
  | nil =>
    cases n with
    | nil => rfl
    | cons d r =>
      have hd := ((Memory.wf_cons d r).1 hn).1
      have := h d.1
      simp [Memory.read] at this
      exact absurd this.symm hd
  | cons c r ih =>
    obtain ⟨hc, hab, hr⟩ := (Memory.wf_cons c r).1 hm
    cases n with
    | nil =>
      have := h c.1
      simp [Memory.read] at this
      exact absurd this hc
    | cons d q =>
      obtain ⟨hd, hdb, hq⟩ := (Memory.wf_cons d q).1 hn
      have read_c : Memory.read (c :: r) c.1 = c.2 := by rw [Memory.read, if_pos rfl]
      have read_d : Memory.read (d :: q) d.1 = d.2 := by rw [Memory.read, if_pos rfl]
      have key : c.1 = d.1 := by
        rcases Nat.lt_trichotomy c.1 d.1 with hlt | he | hlt
        · have := h c.1
          rw [read_c, Memory.read_of_above (d :: q) c.1 fun e he => by
            rcases List.mem_cons.1 he with rfl | he
            · exact hlt
            · exact lt_trans hlt (hdb e he)] at this
          exact absurd this hc
        · exact he
        · have := h d.1
          rw [read_d, Memory.read_of_above (c :: r) d.1 fun e he => by
            rcases List.mem_cons.1 he with rfl | he
            · exact hlt
            · exact lt_trans hlt (hab e he)] at this
          exact absurd this.symm hd
      have hv : c.2 = d.2 := by rw [← read_c, h, key, read_d]
      have tail : r = q := by
        apply ih q hr hq
        intro a
        by_cases ha : c.1 = a
        · rw [Memory.read_of_above r a (ha ▸ hab), Memory.read_of_above q a (ha ▸ key ▸ hdb)]
        · have := h a
          rwa [Memory.read, if_neg ha, Memory.read, if_neg (key ▸ ha)] at this
      rw [tail, Prod.ext key hv]

/-! ### Buffers -/

theorem Buffer.wf_iff (cap : Nat) (b : Buffer) :
    b.wf cap = true ↔ b.mem.wf = true ∧ b.len ≤ cap ∧ ∀ c ∈ b.mem, c.1 < b.len := by
  simp [Buffer.wf, and_assoc]

/-- A byte at or above the length reads 0. -/
theorem Buffer.read_of_ge (cap : Nat) (b : Buffer) (h : b.wf cap = true) (a : Nat) (ha : b.len ≤ a) : b.mem.read a = 0 := by
  obtain ⟨_, _, hb⟩ := (Buffer.wf_iff cap b).1 h
  revert hb
  generalize b.mem = m
  intro hb
  induction m with
  | nil => rfl
  | cons c r ih =>
    have : c.1 < b.len := hb c (List.mem_cons_self ..)
    rw [Memory.read, if_neg (by omega)]
    exact ih fun d hd => hb d (List.mem_cons_of_mem _ hd)

/-- Two buffers of one length that read alike below it are equal. -/
theorem Buffer.ext_read (cap : Nat) (b d : Buffer) (hb : b.wf cap = true) (hd : d.wf cap = true) (hl : b.len = d.len)
    (h : ∀ a, a < b.len → b.mem.read a = d.mem.read a) : b = d := by
  have hm : b.mem = d.mem := by
    apply Memory.ext_read _ _ ((Buffer.wf_iff cap b).1 hb).1 ((Buffer.wf_iff cap d).1 hd).1
    intro a
    by_cases ha : a < b.len
    · exact h a ha
    · rw [Buffer.read_of_ge cap b hb a (by omega), Buffer.read_of_ge cap d hd a (by omega)]
  cases b; cases d; simp_all

/-- The empty buffer is as every command leaves a buffer. -/
theorem Buffer.empty_wf (cap : Nat) : Buffer.empty.wf cap = true := by simp [Buffer.wf, Buffer.empty, Memory.wf]

/-- A buffer made from bytes that fit is as every command leaves one. -/
theorem Buffer.ofBytes_wf (cap : Nat) (bs : List Byte) (h : bs.length ≤ cap) : (Buffer.ofBytes bs).wf cap = true :=
  (Buffer.wf_iff _ _).2 ⟨Memory.ofBytes_wf _ _, h, fun c hc => by
    have := Memory.mem_ofBytes hc; show c.1 < bs.length; omega⟩

/-- Appending a byte keeps a buffer that is not full as every command leaves one. -/
theorem Buffer.append_wf (cap : Nat) (b : Buffer) (v : Byte) (h : b.wf cap = true) (hl : b.len < cap) :
    Buffer.wf cap ⟨b.mem.write b.len v, b.len + 1⟩ = true := by
  obtain ⟨hm, _, hc⟩ := (Buffer.wf_iff cap b).1 h
  refine (Buffer.wf_iff _ _).2 ⟨Memory.write_wf _ _ _ hm, hl, fun c hc' => ?_⟩
  show c.1 < b.len + 1
  rcases Memory.mem_write hc' with rfl | hc'
  · show b.len < b.len + 1
    omega
  · exact lt_of_lt_of_le (hc c hc') (Nat.le_succ _)

/-- Overwriting a byte below the length keeps a buffer as every command leaves one. -/
theorem Buffer.overwrite_wf (cap : Nat) (b : Buffer) (a : Nat) (v : Byte) (h : b.wf cap = true) (ha : a < b.len) :
    Buffer.wf cap ⟨b.mem.write a v, b.len⟩ = true := by
  obtain ⟨hm, hl, hc⟩ := (Buffer.wf_iff cap b).1 h
  refine (Buffer.wf_iff _ _).2 ⟨Memory.write_wf _ _ _ hm, hl, fun c hc' => ?_⟩
  rcases Memory.mem_write hc' with rfl | hc'
  · exact ha
  · exact hc c hc'

/-- Bytes written at the end of a buffer that has room keep it as every command leaves one. -/
theorem Buffer.extend_wf (cap : Nat) (b : Buffer) (bs : List Byte) (h : b.wf cap = true) (hl : b.len + bs.length ≤ cap) :
    Buffer.wf cap ⟨b.mem.writeBytes b.len bs, b.len + bs.length⟩ = true := by
  obtain ⟨hm, _, hc⟩ := (Buffer.wf_iff cap b).1 h
  refine (Buffer.wf_iff _ _).2 ⟨Memory.writeBytes_wf _ _ _ hm, hl, fun c hc' => ?_⟩
  show c.1 < b.len + bs.length
  rcases Memory.mem_writeBytes hc' with h1 | h1
  · exact lt_of_lt_of_le (hc c h1) (Nat.le_add_right _ _)
  · exact h1.2

/-- Cutting a buffer at `n`, the bytes from there on zeroed, keeps it as every command leaves one. -/
theorem Buffer.truncate_wf (cap : Nat) (b : Buffer) (n : Nat) (h : b.wf cap = true) (hn : n ≤ b.len) :
    Buffer.wf cap ⟨b.mem.clear n b.len, n⟩ = true := by
  obtain ⟨hm, hl, hc⟩ := (Buffer.wf_iff cap b).1 h
  refine (Buffer.wf_iff _ _).2 ⟨Memory.clear_wf _ _ _ hm, le_trans hn hl, fun c hc' => ?_⟩
  have h1 := hc c (List.mem_of_mem_filter hc')
  have h2 := List.of_mem_filter hc'
  show c.1 < n
  simp at h2
  omega

/-- The bytes of a buffer made from bytes. -/
theorem Buffer.bytes_ofBytes (bs : List Byte) : (Buffer.ofBytes bs).bytes = bs := by
  apply List.ext_getElem
  · simp [Buffer.bytes, Buffer.ofBytes, Memory.bytes]
  · intro i h1 h2
    simp [Buffer.bytes, Buffer.ofBytes, Memory.bytes, Memory.read_ofBytes, h2]

/-- A buffer is the one made from its bytes. -/
theorem Buffer.ofBytes_bytes (cap : Nat) (b : Buffer) (h : b.wf cap = true) : Buffer.ofBytes b.bytes = b := by
  have hl : b.bytes.length = b.len := by simp [Buffer.bytes, Memory.bytes]
  refine Buffer.ext_read cap _ _ (Buffer.ofBytes_wf _ _ ?_) h hl fun a ha => ?_
  · rw [hl]; exact ((Buffer.wf_iff cap b).1 h).2.1
  · have ha' : a < b.len := by rw [← hl]; exact ha
    show (Memory.ofBytes 0 b.bytes).read a = _
    rw [Memory.read_ofBytes]
    simp [Buffer.bytes, Memory.bytes, ha']

/-- The machine right after reset has its buffers in the canonical form. -/
theorem State.reset_wf : State.reset.tb.wf Config.tbCap = true ∧ State.reset.sb.wf Config.sbCap = true := by decide

end Sys2Proof.Machine
end

