-- ==== Sys2Proof/Laws/Numeric.lean ====
section
/-! SUPPORT. The numeric codec against the rationals of the statements: DEC words, exact rounding, the fixed-point count. -/

namespace Sys2Proof.Machine

/-! ### DEC words -/

theorem slice_eq (w : Word) (lo n : Nat) : slice w lo n = (w.extractLsb' lo n).toNat := by
  simp [slice, Nat.shiftRight_eq_div_pow]

theorem mant_eq (w : Word) : mant w = decMantissa w := by
  rw [mant, slice_eq, sx_toNat _ (by decide)]; rfl

theorem expo_eq (w : Word) : expo w = decExponent w := by
  rw [expo, slice_eq, sx_toNat _ (by decide)]; rfl

theorem dec_eq (m e : Int) : dec m e = decWord m e := by
  unfold dec decWord
  rw [raw_eq_ofInt, raw_eq_ofInt]
  show BitVec.ofNat 64 _ = _
  apply BitVec.eq_of_toNat_eq
  have h1 := (BitVec.ofInt 56 m).isLt
  have h2 := (BitVec.ofInt 8 e).isLt
  rw [BitVec.toNat_append, BitVec.toNat_ofNat, Nat.shiftLeft_eq, Nat.mod_eq_of_lt (by omega),
    Nat.mul_comm _ (2 ^ 8), ← Nat.two_pow_add_eq_or_of_lt h2]
  omega

/-- A mantissa of 56 signed bits comes back from its DEC word. -/
theorem decMantissa_decWord (m e : Int) (h1 : -2 ^ 55 ≤ m) (h2 : m < 2 ^ 55) : decMantissa (decWord m e) = m := by
  unfold decMantissa decWord
  rw [show BitVec.extractLsb' 8 56 (BitVec.ofInt 56 m ++ BitVec.ofInt 8 e) = BitVec.ofInt 56 m from
    BitVec.extractLsb'_append_eq_left]
  exact BitVec.toInt_ofInt_eq_self (by decide) h1 h2

/-- An exponent of 8 signed bits comes back from its DEC word. -/
theorem decExponent_decWord (m e : Int) (h1 : -128 ≤ e) (h2 : e ≤ 127) : decExponent (decWord m e) = e := by
  unfold decExponent decWord
  rw [show BitVec.extractLsb' 0 8 (BitVec.ofInt 56 m ++ BitVec.ofInt 8 e) = BitVec.ofInt 8 e from
    BitVec.extractLsb'_append_eq_right]
  exact BitVec.toInt_ofInt_eq_self (by decide) h1 (by omega)

theorem decVal_decWord (m e : Int) (h1 : -2 ^ 55 ≤ m) (h2 : m < 2 ^ 55) (h3 : -128 ≤ e) (h4 : e ≤ 127) :
    decVal (decWord m e) = m * 10 ^ e := by
  rw [decVal, decMantissa_decWord m e h1 h2, decExponent_decWord m e h3 h4]

theorem decMantissa_range (w : Word) : -2 ^ 55 ≤ decMantissa w ∧ decMantissa w < 2 ^ 55 :=
  ⟨BitVec.le_toInt _, BitVec.toInt_lt⟩

theorem decExponent_range (w : Word) : -128 ≤ decExponent w ∧ decExponent w ≤ 127 := by
  have h1 : -2 ^ 7 ≤ decExponent w := BitVec.le_toInt _
  have h2 : decExponent w < 2 ^ 7 := BitVec.toInt_lt
  constructor <;> omega

/-- A DEC is zero exactly when its mantissa is. -/
theorem decVal_eq_zero (w : Word) : decVal w = 0 ↔ decMantissa w = 0 := by
  unfold decVal
  have : (10 : ℚ) ^ decExponent w ≠ 0 := by positivity
  simp [this]

/-! ### Rounding -/

/-- The integer rounding is the rational one. -/
theorem roundTie_roundsTo (n : Int) (d : Nat) (hd : 0 < d) : RoundsTo ((n : ℚ) / d) (roundTie n d) := by
  have hq : (0 : ℚ) < d := by exact_mod_cast hd
  have key : (n : ℚ) / d - roundTie n d = ((2 * (n - d * roundTie n d) : Int) : ℚ) / (2 * d) := by
    push_cast; field_simp
  have habs : |(n : ℚ) / d - roundTie n d| = ((2 * (n - d * roundTie n d)).natAbs : ℚ) / (2 * d) := by
    rw [key, abs_div, abs_of_pos (show (0 : ℚ) < 2 * d by positivity), Nat.cast_natAbs, Int.cast_abs]
  rcases roundTie_spec n d hd with h | ⟨h, he⟩
  · left
    rw [habs, div_lt_div_iff₀ (by positivity) (by norm_num)]
    have : ((2 * (n - d * roundTie n d)).natAbs : ℚ) < d := by exact_mod_cast h
    linarith
  · right
    refine ⟨?_, Int.even_iff.2 he⟩
    rw [habs, h]; field_simp

/-- A rational rounds to one integer only. -/
theorem RoundsTo.unique {q : ℚ} {m n : Int} (hm : RoundsTo q m) (hn : RoundsTo q n) : m = n := by
  have bound : ∀ k : Int, RoundsTo q k → |q - k| ≤ 1 / 2 := fun k hk => hk.elim le_of_lt fun h => h.1.le
  have h1 := abs_le.1 (bound m hm)
  have h2 := abs_le.1 (bound n hn)
  by_contra hne
  have step : ∀ a b : Int, RoundsTo q a → RoundsTo q b → a < b → False := by
    intro a b ha hb hab
    have ha' := abs_le.1 (bound a ha)
    have hb' := abs_le.1 (bound b hb)
    have h3 : (a : ℚ) + 1 ≤ b := by exact_mod_cast hab
    have ea : q - a = 1 / 2 := by linarith
    have eb : q - b = -(1 / 2) := by linarith
    have ha2 : Even a := by
      rcases ha with h | h
      · rw [ea] at h; norm_num at h
      · exact h.2
    have hb2 : Even b := by
      rcases hb with h | h
      · rw [eb] at h; norm_num at h
      · exact h.2
    have : b = a + 1 := by
      have : (b : ℚ) = a + 1 := by linarith
      exact_mod_cast this
    subst this
    rw [Int.even_iff] at ha2 hb2
    omega
  rcases lt_or_gt_of_ne hne with h | h
  · exact step m n hm hn h
  · exact step n m hn hm h

/-- Rounding after a shift by a power of ten is exact, whatever the exponent. -/
theorem roundTie10_roundsTo (m k : Int) (d : Nat) (hd : 0 < d) :
    RoundsTo ((m : ℚ) * 10 ^ k / d) (roundTie10 m k d) := by
  unfold roundTie10
  split
  · rename_i h
    have := roundTie_roundsTo (m * 10 ^ k.toNat) d hd
    have e : ((m * 10 ^ k.toNat : Int) : ℚ) = (m : ℚ) * 10 ^ k := by
      push_cast
      rw [← zpow_natCast, Int.toNat_of_nonneg h]
    rwa [e] at this
  · rename_i h
    have hd' : 0 < d * 10 ^ (-k).toNat := by positivity
    have := roundTie_roundsTo m _ hd'
    have e : (m : ℚ) / ((d * 10 ^ (-k).toNat : Nat) : ℚ) = (m : ℚ) * 10 ^ k / d := by
      push_cast
      rw [← zpow_natCast, Int.toNat_of_nonneg (by omega), zpow_neg]
      field_simp
    rwa [e] at this

/-- The count of a fixed-point field is the rounded quotient of value and scale. -/
theorem fixCount_roundsTo (value : Word) (ms : Nat) (es : Int) (hm : 0 < ms) :
    RoundsTo (decVal value / (ms * 10 ^ es)) (fixCount value ms es) := by
  have := roundTie10_roundsTo (mant value) (expo value - es) ms hm
  have e : (mant value : ℚ) * 10 ^ (expo value - es) / ms = decVal value / (ms * 10 ^ es) := by
    rw [mant_eq, expo_eq, decVal, zpow_sub₀ (by norm_num)]
    field_simp
  rwa [e] at this

/-- A count is some integer exactly when it is in range, and then it is the rounded quotient. -/
theorem fixOf_eq_some (value : Word) (bits : Nat) (sg : Bool) (ms : Nat) (es n : Int) :
    fixOf value bits sg ms es = some n ↔ n = fixCount value ms es ∧ fixLo bits sg ≤ n ∧ n ≤ fixHi bits sg := by
  unfold fixOf
  simp only
  split
  · rename_i h
    constructor
    · intro h'; simp at h'
    · rintro ⟨rfl, h1, h2⟩; omega
  · rename_i h
    constructor
    · intro h'
      rw [Option.some.injEq] at h'
      subst h'
      exact ⟨rfl, by omega, by omega⟩
    · rintro ⟨rfl, _, _⟩; rfl

theorem fixOf_eq_none (value : Word) (bits : Nat) (sg : Bool) (ms : Nat) (es : Int) :
    fixOf value bits sg ms es = none ↔ fixCount value ms es < fixLo bits sg ∨ fixHi bits sg < fixCount value ms es := by
  unfold fixOf
  simp only
  split <;> simp_all

/-- The exact comparison of a DEC with an integer. -/
theorem decLe_iff (m e : Int) (k : Nat) : decLe m e k = true ↔ (m : ℚ) * 10 ^ e ≤ k := by
  unfold decLe
  split
  · rename_i h
    have e' : (m : ℚ) * 10 ^ e = ((m * 10 ^ e.toNat : Int) : ℚ) := by
      push_cast; rw [← zpow_natCast, Int.toNat_of_nonneg h]
    rw [decide_eq_true_iff, e']
    constructor
    · intro h'; exact_mod_cast h'
    · intro h'; exact_mod_cast h'
  · rename_i h
    have e' : (m : ℚ) * 10 ^ e = (m : ℚ) / ((10 ^ (-e).toNat : Nat) : ℚ) := by
      push_cast; rw [← zpow_natCast, Int.toNat_of_nonneg (by omega), zpow_neg]; field_simp
    rw [decide_eq_true_iff, e', div_le_iff₀ (by positivity)]
    constructor
    · intro h'; exact_mod_cast h'
    · intro h'; exact_mod_cast h'

/-! ### The second round trip (43_table_codec.md R204; log entry 12) -/

theorem roundTie_mul (n : Int) (d : Nat) (hd : 0 < d) : roundTie (n * d) d = n := by
  have h : (d : Int) ≠ 0 := by omega
  simp [roundTie, Int.mul_ediv_cancel _ h, hd]

/-- A fixed-point count, decoded, encodes to the same count: these fields keep their bits. -/
theorem fixOf_dec {n es : Int} {bits ms : Nat} {sg : Bool} (hb : bits ≤ 32) (h1 : 1 ≤ ms) (h2 : ms < 2 ^ 23)
    (he1 : -128 ≤ es) (he2 : es ≤ 127) (hlo : fixLo bits sg ≤ n) (hhi : n ≤ fixHi bits sg) :
    fixOf (dec (n * ms) es) bits sg ms es = some n := by
  have hp : (2 : Int) ^ bits ≤ 2 ^ 32 := pow_le_pow_right₀ (by norm_num) hb
  have hp' : (2 : Int) ^ (bits - 1) ≤ 2 ^ 32 := pow_le_pow_right₀ (by norm_num) (by omega)
  have hn : -2 ^ 32 ≤ n ∧ n < 2 ^ 32 := by
    unfold fixLo at hlo
    unfold fixHi at hhi
    cases sg <;> simp at hlo hhi <;> omega
  have hm : -2 ^ 55 ≤ n * ms ∧ n * ms < 2 ^ 55 := by
    have hms : (0 : Int) < ms ∧ (ms : Int) < 2 ^ 23 := by constructor <;> (norm_cast)
    have h3 := mul_le_mul_of_nonneg_right hn.1 hms.1.le
    have h4 := mul_lt_mul_of_pos_right hn.2 hms.1
    constructor <;> omega
  rw [fixOf_eq_some]
  refine ⟨?_, hlo, hhi⟩
  rw [fixCount, mant_eq, expo_eq, dec_eq, decMantissa_decWord _ _ hm.1 hm.2, decExponent_decWord _ _ he1 he2, sub_self]
  simp [roundTie10, roundTie_mul n ms h1]

theorem roundTie_one (n : Int) : roundTie n 1 = n := by simp [roundTie]

theorem roundTie10_one (m : Int) (k : Nat) : roundTie10 m k 1 = m * 10 ^ k := by
  simp [roundTie10, roundTie_one]

/-- The code of a value float12 can decode: the least exponent at which its mantissa fits, with no rounding. -/
theorem f12enc_decodable {m e c : Nat} (hm : m ≤ 511) (h : f12enc m e = some c) :
    ∃ k ≤ e, k < 8 ∧ c = m * 10 ^ (e - k) * 8 + k ∧ m * 10 ^ (e - k) ≤ 511 ∧ (∀ j < k, 511 < m * 10 ^ (e - j)) ∧
      m * 10 ^ e ≤ Config.f12Max := by
  have hr : ∀ j ≤ e, roundTie10 m (e - j) 1 = ((m * 10 ^ (e - j) : Nat) : Int) := fun j hj => by
    rw [show (e : Int) - j = ((e - j : Nat) : Int) by omega, roundTie10_one]; push_cast; rfl
  unfold f12enc at h
  split at h
  · simp at h
  · rename_i hle
    obtain ⟨k, hk, rfl⟩ := Option.map_eq_some_iff.1 h
    rw [List.find?_range_eq_some] at hk
    obtain ⟨hfit, hk8, hmin⟩ := hk
    rw [List.mem_range] at hk8
    have hke : k ≤ e := by
      by_contra hlt
      have := hmin e (by omega)
      rw [hr e le_rfl] at this
      simp at this
      omega
    refine ⟨k, hke, hk8, by rw [hr k hke, Int.toNat_natCast], ?_, fun j hj => ?_, ?_⟩
    · rw [hr k hke] at hfit; exact_mod_cast of_decide_eq_true hfit
    · have := hmin j hj
      rw [hr j (by omega)] at this
      rw [Bool.not_eq_true', decide_eq_false_iff_not] at this
      exact_mod_cast not_le.1 this
    · simp [decLe] at hle
      exact_mod_cast hle

/-- A value float12 can decode, encoded again, has a code of the same value: only the code may differ. -/
theorem f12enc_exact {m e c : Nat} (hm : m ≤ 511) (h : f12enc m e = some c) :
    c / 8 * 10 ^ (c % 8) = m * 10 ^ e := by
  obtain ⟨k, hke, hk8, rfl, -⟩ := f12enc_decodable hm h
  rw [show (m * 10 ^ (e - k) * 8 + k) / 8 = m * 10 ^ (e - k) by omega,
    show (m * 10 ^ (e - k) * 8 + k) % 8 = k by omega, mul_assoc, ← pow_add, Nat.sub_add_cancel hke]

/-- From the second encoding on the float12 code stays. -/
theorem f12enc_again {m e c : Nat} (hm : m ≤ 511) (h : f12enc m e = some c) : f12enc (c / 8 : Nat) (c % 8 : Nat) = some c := by
  have hv := f12enc_exact hm h
  obtain ⟨k, hke, hk8, hc, hfit, hmin, hmax⟩ := f12enc_decodable hm h
  have h8 : c / 8 = m * 10 ^ (e - k) := by omega
  have hk : c % 8 = k := by omega
  rw [h8, hk] at hv ⊢
  have hr : ∀ j ≤ k, roundTie10 (m * 10 ^ (e - k) : Nat) (k - j) 1 = ((m * 10 ^ (e - j) : Nat) : Int) := fun j hj => by
    rw [show (k : Int) - j = ((k - j : Nat) : Int) by omega, roundTie10_one, show e - j = e - k + (k - j) by omega, pow_add]
    push_cast; ring
  have hle : decLe (m * 10 ^ (e - k) : Nat) k Config.f12Max = true := by
    simp only [decLe, Int.natCast_nonneg, if_true, Int.toNat_natCast, decide_eq_true_eq]
    exact_mod_cast hv ▸ hmax
  have hfind : ((List.range 8).find? fun (j : Nat) => decide (roundTie10 (m * 10 ^ (e - k) : Nat) (k - j) 1 ≤ 511)) = some k := by
    rw [List.find?_range_eq_some]
    refine ⟨?_, List.mem_range.2 hk8, fun j hj => ?_⟩
    · rw [hr k le_rfl]; exact decide_eq_true (by exact_mod_cast hfit)
    · rw [hr j hj.le]; rw [Bool.not_eq_true', decide_eq_false_iff_not, not_le]; exact_mod_cast hmin j hj
  rw [f12enc, if_neg (by rw [hle]; simp only [not_or, not_lt, Bool.true_eq_false, not_false_eq_true, and_true]; exact Int.natCast_nonneg _), hfind, Option.map_some, hr k le_rfl, Int.toNat_natCast, hc]

/-- The code of a value decimal16 can decode: the least exponent at which its mantissa fits, with no rounding. -/
theorem d16enc_decodable {m e : Int} {c : Nat} (hm : m.natAbs ≤ 1023) (h1 : -16 ≤ e) (h2 : e ≤ 15) (h : d16enc m e = some c) :
    ∃ i : Nat, i < 32 ∧ ∃ d : Nat, e - ((i : Int) - 16) = d ∧ c = d16Code (m * 10 ^ d) ((i : Int) - 16) ∧ (m * 10 ^ d).natAbs ≤ 1023 ∧
      ∀ j < i, 1023 < (m * 10 ^ (e - ((j : Int) - 16)).toNat).natAbs := by
  have hr : ∀ j : Nat, (j : Int) - 16 ≤ e → roundTie10 m (e - ((j : Int) - 16)) 1 = m * 10 ^ (e - ((j : Int) - 16)).toNat :=
    fun j hj => by
      obtain ⟨d, hd⟩ := Int.eq_ofNat_of_zero_le (show 0 ≤ e - ((j : Int) - 16) by omega)
      rw [hd, roundTie10_one]; rfl
  unfold d16enc d16Exponents at h
  obtain ⟨k, hk, rfl⟩ := Option.map_eq_some_iff.1 h
  rw [List.find?_map] at hk
  obtain ⟨i, hi, rfl⟩ := Option.map_eq_some_iff.1 hk
  rw [List.find?_range_eq_some] at hi
  obtain ⟨hfit, hi32, hmin⟩ := hi
  rw [List.mem_range] at hi32
  have hie : (i : Int) - 16 ≤ e := by
    by_contra hlt
    have := hmin (e + 16).toNat (by omega)
    simp only [Function.comp_apply] at this
    rw [show e - (((e + 16).toNat : Nat) - 16 : Int) = (0 : Nat) by omega, roundTie10_one] at this
    simp at this
    omega
  obtain ⟨d, hd⟩ := Int.eq_ofNat_of_zero_le (show 0 ≤ e - ((i : Int) - 16) by omega)
  simp only [Function.comp_apply, hd, roundTie10_one, decide_eq_true_eq] at hfit ⊢
  refine ⟨i, hi32, d, hd, rfl, hfit, fun j hj => ?_⟩
  have := hmin j hj
  simp only [Function.comp_apply] at this
  rw [hr j (by omega)] at this
  simpa using this

/-- A code of decimal16 read back: its mantissa and its exponent, a mantissa of 0 with exponent 0. -/
theorem d16Code_fields {m e : Int} (hm : m.natAbs ≤ 1023) (h1 : -16 ≤ e) (h2 : e ≤ 15) :
    sx (d16Code m e / 32) 11 = m ∧ sx (d16Code m e % 32) 5 = if m = 0 then 0 else e := by
  unfold d16Code
  split
  · rename_i h0; subst h0; decide
  · have l2 := raw_lt e 5
    rw [show (raw m 11 * 32 + raw e 5) / 32 = raw m 11 by omega, show (raw m 11 * 32 + raw e 5) % 32 = raw e 5 by omega]
    exact ⟨sx_raw _ 11 (by decide) (by omega) (by omega), sx_raw _ 5 (by decide) (by omega) (by omega)⟩

/-- The same for decimal16: a value it can decode, encoded again, has a code of the same value. -/
theorem d16enc_exact {m e : Int} {c : Nat} (hm : m.natAbs ≤ 1023) (h1 : -16 ≤ e) (h2 : e ≤ 15) (h : d16enc m e = some c) :
    decVal (d16dec c) = m * 10 ^ e := by
  obtain ⟨i, hi, d, hd, rfl, hfit, -⟩ := d16enc_decodable hm h1 h2 h
  obtain ⟨f1, f2⟩ := d16Code_fields (e := (i : Int) - 16) hfit (by omega) (by omega)
  have hb : -16 ≤ (if m * 10 ^ d = 0 then 0 else (i : Int) - 16) ∧ (if m * 10 ^ d = 0 then 0 else (i : Int) - 16) ≤ 15 := by
    split <;> omega
  rw [d16dec, f1, f2, dec_eq, decVal_decWord _ _ (by omega) (by omega) (by omega) (by omega),
    show e = (d : Int) + ((i : Int) - 16) by omega, zpow_add₀ (by norm_num), zpow_natCast, ← mul_assoc]
  push_cast
  split <;> rename_i h0
  · have : (m : ℚ) * 10 ^ d = 0 := by exact_mod_cast h0
    simp [this]
  · rfl

/-- From the second encoding on the decimal16 code stays. -/
theorem d16enc_again {m e : Int} {c : Nat} (hm : m.natAbs ≤ 1023) (h1 : -16 ≤ e) (h2 : e ≤ 15) (h : d16enc m e = some c) :
    d16enc (sx (c / 32) 11) (sx (c % 32) 5) = some c := by
  obtain ⟨i, hi, d, hd, rfl, hfit, hmin⟩ := d16enc_decodable hm h1 h2 h
  obtain ⟨f1, f2⟩ := d16Code_fields (e := (i : Int) - 16) hfit (by omega) (by omega)
  rw [f1, f2]
  split
  · rename_i h0; rw [h0, d16Code, if_pos rfl]; decide
  · have hfind : (List.range 32).find? ((fun k : Int => decide ((roundTie10 (m * 10 ^ d) ((i : Int) - 16 - k) 1).natAbs ≤ 1023)) ∘
        fun k : Nat => (k : Int) - 16) = some i := by
      rw [List.find?_range_eq_some]
      refine ⟨?_, List.mem_range.2 hi, fun j hj => ?_⟩
      · rw [Function.comp_apply, sub_self]
        exact decide_eq_true (by rw [show (0 : Int) = (0 : Nat) from rfl, roundTie10_one, pow_zero, mul_one]; exact hfit)
      · have := hmin j hj
        rw [show (e - ((j : Int) - 16)).toNat = d + (i - j) by omega, pow_add, ← mul_assoc] at this
        rw [Function.comp_apply, show (i : Int) - 16 - ((j : Int) - 16) = ((i - j : Nat) : Int) by omega, roundTie10_one]
        simpa using this
    rw [d16enc, d16Exponents, List.find?_map, hfind]
    rw [Option.map_some, Option.map_some, sub_self, show (0 : Int) = (0 : Nat) from rfl, roundTie10_one, pow_zero, mul_one]

end Sys2Proof.Machine
end

