-- ==== Sys2Proof/Laws/PerInstr.lean ====
section
/-! SUPPORT. Statements for all commands, one lemma per constructor: the OP field of a command's word is its opcode, and the opcode
is one of the map of 30_encoding.md R72. -/

namespace Sys2Proof.Laws

/-- The low byte of a command word is the opcode it was built with. -/
theorem cmdWord_op (op : Nat) (rd ra rb : Reg) (imm : Nat) (h : op < 256) : (cmdWord op rd ra rb imm).toNat % 256 = op := by
  unfold cmdWord
  rw [BitVec.toNat_ofNat]
  omega

/-- The opcodes of 30_encoding.md R72. -/
def opcodes : List Nat :=
  [ 0x00, 0x01, 0x02, 0x03, 0x04, 0x05, 0x06, 0x10, 0x11, 0x12, 0x13, 0x14, 0x20, 0x21, 0x22, 0x23, 0x24, 0x25, 0x26, 0x27, 0x28,
    0x30, 0x31, 0x38, 0x39, 0x3A, 0x3B, 0x40, 0x41, 0x42, 0x43, 0x44, 0x50, 0x51, 0x52 ]

/-- The OP field of the word of `i` is the opcode of `i`, one of the map. -/
def OpcodeField.Statement (i : Instr) : Prop := (encode i).toNat % 256 = opcode i ∧ opcode i ∈ opcodes

theorem OpcodeField.nop : OpcodeField.Statement .nop :=
  ⟨cmdWord_op 0x00 _ _ _ _ (by decide), (by decide : 0x00 ∈ opcodes)⟩

theorem OpcodeField.clrerr : OpcodeField.Statement .clrerr :=
  ⟨cmdWord_op 0x01 _ _ _ _ (by decide), (by decide : 0x01 ∈ opcodes)⟩

theorem OpcodeField.srst : OpcodeField.Statement .srst :=
  ⟨cmdWord_op 0x02 _ _ _ _ (by decide), (by decide : 0x02 ∈ opcodes)⟩

theorem OpcodeField.li (rd : Reg) (simm : Int) : OpcodeField.Statement (.li rd simm) :=
  ⟨cmdWord_op 0x03 _ _ _ _ (by decide), (by decide : 0x03 ∈ opcodes)⟩

theorem OpcodeField.mkdec (rd ra : Reg) (e : Int) : OpcodeField.Statement (.mkdec rd ra e) :=
  ⟨cmdWord_op 0x04 _ _ _ _ (by decide), (by decide : 0x04 ∈ opcodes)⟩

theorem OpcodeField.rdsr (rd : Reg) (sr : Nat) : OpcodeField.Statement (.rdsr rd sr) :=
  ⟨cmdWord_op 0x05 _ _ _ _ (by decide), (by decide : 0x05 ∈ opcodes)⟩

theorem OpcodeField.wrsr (ra : Reg) (sr : Nat) : OpcodeField.Statement (.wrsr ra sr) :=
  ⟨cmdWord_op 0x06 _ _ _ _ (by decide), (by decide : 0x06 ∈ opcodes)⟩

theorem OpcodeField.clrb (b : Buf) : OpcodeField.Statement (.clrb b) :=
  ⟨cmdWord_op 0x10 _ _ _ _ (by decide), (by decide : 0x10 ∈ opcodes)⟩

theorem OpcodeField.pushb (ra : Reg) (b : Buf) : OpcodeField.Statement (.pushb ra b) :=
  ⟨cmdWord_op 0x11 _ _ _ _ (by decide), (by decide : 0x11 ∈ opcodes)⟩

theorem OpcodeField.ldb (rd ra : Reg) (b : Buf) (off : Nat) : OpcodeField.Statement (.ldb rd ra b off) :=
  ⟨cmdWord_op 0x12 _ _ _ _ (by decide), (by decide : 0x12 ∈ opcodes)⟩

theorem OpcodeField.stb (ra rb : Reg) (b : Buf) (off : Nat) : OpcodeField.Statement (.stb ra rb b off) :=
  ⟨cmdWord_op 0x13 _ _ _ _ (by decide), (by decide : 0x13 ∈ opcodes)⟩

theorem OpcodeField.lenb (rd : Reg) (b : Buf) : OpcodeField.Statement (.lenb rd b) :=
  ⟨cmdWord_op 0x14 _ _ _ _ (by decide), (by decide : 0x14 ∈ opcodes)⟩

theorem OpcodeField.fix (rd ra rb : Reg) (bits : Nat) (sg : Bool) : OpcodeField.Statement (.fix rd ra rb bits sg) :=
  ⟨cmdWord_op 0x20 _ _ _ _ (by decide), (by decide : 0x20 ∈ opcodes)⟩

theorem OpcodeField.unfix (rd ra rb : Reg) (bits : Nat) (sg : Bool) : OpcodeField.Statement (.unfix rd ra rb bits sg) :=
  ⟨cmdWord_op 0x21 _ _ _ _ (by decide), (by decide : 0x21 ∈ opcodes)⟩

theorem OpcodeField.f12enc (rd ra : Reg) : OpcodeField.Statement (.f12enc rd ra) :=
  ⟨cmdWord_op 0x22 _ _ _ _ (by decide), (by decide : 0x22 ∈ opcodes)⟩

theorem OpcodeField.f12dec (rd ra : Reg) : OpcodeField.Statement (.f12dec rd ra) :=
  ⟨cmdWord_op 0x23 _ _ _ _ (by decide), (by decide : 0x23 ∈ opcodes)⟩

theorem OpcodeField.d16enc (rd ra : Reg) : OpcodeField.Statement (.d16enc rd ra) :=
  ⟨cmdWord_op 0x24 _ _ _ _ (by decide), (by decide : 0x24 ∈ opcodes)⟩

theorem OpcodeField.d16dec (rd ra : Reg) : OpcodeField.Statement (.d16dec rd ra) :=
  ⟨cmdWord_op 0x25 _ _ _ _ (by decide), (by decide : 0x25 ∈ opcodes)⟩

theorem OpcodeField.s10 (rd ra : Reg) : OpcodeField.Statement (.s10 rd ra) :=
  ⟨cmdWord_op 0x26 _ _ _ _ (by decide), (by decide : 0x26 ∈ opcodes)⟩

theorem OpcodeField.qpack (rd ra : Reg) : OpcodeField.Statement (.qpack rd ra) :=
  ⟨cmdWord_op 0x27 _ _ _ _ (by decide), (by decide : 0x27 ∈ opcodes)⟩

theorem OpcodeField.qunpack (rd ra : Reg) : OpcodeField.Statement (.qunpack rd ra) :=
  ⟨cmdWord_op 0x28 _ _ _ _ (by decide), (by decide : 0x28 ∈ opcodes)⟩

theorem OpcodeField.stuff : OpcodeField.Statement .stuff :=
  ⟨cmdWord_op 0x30 _ _ _ _ (by decide), (by decide : 0x30 ∈ opcodes)⟩

theorem OpcodeField.unstuff : OpcodeField.Statement .unstuff :=
  ⟨cmdWord_op 0x31 _ _ _ _ (by decide), (by decide : 0x31 ∈ opcodes)⟩

theorem OpcodeField.crc8 (rd ra : Reg) : OpcodeField.Statement (.crc8 rd ra) :=
  ⟨cmdWord_op 0x38 _ _ _ _ (by decide), (by decide : 0x38 ∈ opcodes)⟩

theorem OpcodeField.crc16 (rd ra : Reg) : OpcodeField.Statement (.crc16 rd ra) :=
  ⟨cmdWord_op 0x39 _ _ _ _ (by decide), (by decide : 0x39 ∈ opcodes)⟩

theorem OpcodeField.frgen : OpcodeField.Statement .frgen :=
  ⟨cmdWord_op 0x3A _ _ _ _ (by decide), (by decide : 0x3A ∈ opcodes)⟩

theorem OpcodeField.frchk : OpcodeField.Statement .frchk :=
  ⟨cmdWord_op 0x3B _ _ _ _ (by decide), (by decide : 0x3B ∈ opcodes)⟩

theorem OpcodeField.encode (v : Nat) : OpcodeField.Statement (.encode v) :=
  ⟨cmdWord_op 0x40 _ _ _ _ (by decide), (by decide : 0x40 ∈ opcodes)⟩

theorem OpcodeField.decode : OpcodeField.Statement .decode :=
  ⟨cmdWord_op 0x41 _ _ _ _ (by decide), (by decide : 0x41 ∈ opcodes)⟩

theorem OpcodeField.tget (rd : Reg) (fid : Nat) : OpcodeField.Statement (.tget rd fid) :=
  ⟨cmdWord_op 0x42 _ _ _ _ (by decide), (by decide : 0x42 ∈ opcodes)⟩

theorem OpcodeField.tset (ra : Reg) (fid : Nat) : OpcodeField.Statement (.tset ra fid) :=
  ⟨cmdWord_op 0x43 _ _ _ _ (by decide), (by decide : 0x43 ∈ opcodes)⟩

theorem OpcodeField.tdef : OpcodeField.Statement .tdef :=
  ⟨cmdWord_op 0x44 _ _ _ _ (by decide), (by decide : 0x44 ∈ opcodes)⟩

theorem OpcodeField.wdinit (ra rb : Reg) : OpcodeField.Statement (.wdinit ra rb) :=
  ⟨cmdWord_op 0x50 _ _ _ _ (by decide), (by decide : 0x50 ∈ opcodes)⟩

theorem OpcodeField.wdsamp (rd ra rb : Reg) : OpcodeField.Statement (.wdsamp rd ra rb) :=
  ⟨cmdWord_op 0x51 _ _ _ _ (by decide), (by decide : 0x51 ∈ opcodes)⟩

theorem OpcodeField.wdgetb (rd : Reg) : OpcodeField.Statement (.wdgetb rd) :=
  ⟨cmdWord_op 0x52 _ _ _ _ (by decide), (by decide : 0x52 ∈ opcodes)⟩

end Sys2Proof.Laws
end

