-- ==== Sys2Proof/Laws/Waveform.lean ====
section
/-! SUPPORT. The waveform decoder's shared operations: the window, the ByteDecoder, the two steps. Each lemma says once which
pieces of state the operation can change. -/

namespace Sys2Proof.Machine

/-! ### The window -/

/-- A sample entering the window changes the window and the sum. -/
theorem pushSample_eq (wd : Wd) (x : Sample) :
    pushSample wd x = { wd with win := windowAfter wd x, sum := (pushSample wd x).sum } := by
  unfold pushSample windowAfter
  split
  · rename_i old rest h
    split
    · simp [h]
    · rfl
  · rename_i h
    simp [h]

@[simp] theorem pushSample_win (wd : Wd) (x : Sample) : (pushSample wd x).win = windowAfter wd x := by
  rw [pushSample_eq]

@[simp] theorem pushSample_mode (wd : Wd) (x : Sample) : (pushSample wd x).mode = wd.mode := by
  rw [pushSample_eq]

/-- The sum stays the sum of the window. -/
theorem pushSample_sum (wd : Wd) (x : Sample) (h : wd.sum = (wd.win.map Sample.val).sum) :
    (pushSample wd x).sum = ((windowAfter wd x).map Sample.val).sum := by
  unfold pushSample windowAfter
  split
  · rename_i old rest hw
    rw [hw] at h
    split
    · simp [hw] at h ⊢
      omega
    · simp [hw] at h ⊢
      omega
  · rename_i hw
    simp [hw] at h ⊢
    omega

/-- So the decoder with the sample in its window is the one of the statements. -/
theorem pushSample_eq_windowed (wd : Wd) (x : Sample) (h : wd.sum = (wd.win.map Sample.val).sum) :
    pushSample wd x = windowed wd x := by
  rw [pushSample_eq, pushSample_sum wd x h]; rfl

theorem windowAfter_length (wd : Wd) (x : Sample) (h : wd.win.length ≤ wd.w.toNat) (hw : 1 ≤ wd.w.toNat) :
    (windowAfter wd x).length ≤ wd.w.toNat := by
  unfold windowAfter
  split <;> simp <;> omega

theorem windowAfter_getLast (wd : Wd) (x : Sample) : (windowAfter wd x).getLast? = some x := by
  unfold windowAfter; simp

theorem mem_windowAfter {wd : Wd} {x y : Sample} (h : y ∈ windowAfter wd x) : y = x ∨ y ∈ wd.win := by
  unfold windowAfter at h
  rcases List.mem_append.1 h with h | h
  · right
    split at h
    · exact List.mem_of_mem_tail h
    · exact h
  · left; simpa using h

/-- A window of rising timestamps keeps them rising when the new one is newer than the newest. -/
theorem windowAfter_rising (wd : Wd) (x : Sample) (h : wd.win.Pairwise (fun a b => a.ts < b.ts))
    (hx : ∀ y, wd.win.getLast? = some y → y.ts < x.ts) :
    (windowAfter wd x).Pairwise (fun a b => a.ts < b.ts) := by
  have all : ∀ y ∈ wd.win, y.ts < x.ts := by
    intro y hy
    have hne : wd.win ≠ [] := List.ne_nil_of_mem hy
    obtain ⟨l, z, hl⟩ : ∃ l z, wd.win = l ++ [z] := ⟨_, _, (List.dropLast_append_getLast hne).symm⟩
    have hz : z.ts < x.ts := hx z (by rw [hl]; simp)
    rw [hl] at hy h
    rcases List.mem_append.1 hy with hy | hy
    · exact lt_trans ((List.pairwise_append.1 h).2.2 y hy z (by simp)) hz
    · rw [List.mem_singleton.1 hy]; exact hz
  unfold windowAfter
  rw [List.pairwise_append]
  refine ⟨?_, List.pairwise_singleton _ _, fun y hy z hz => ?_⟩
  · split
    · exact h.sublist (List.tail_sublist _)
    · exact h
  · rw [List.mem_singleton.1 hz]
    apply all
    split at hy
    · exact List.mem_of_mem_tail hy
    · exact hy

/-- A sample is stale exactly when the newest pair of the window is not older. -/
theorem stale_eq_false (wd : Wd) (ts : Nat) :
    stale wd ts = false ↔ ∀ y, wd.win.getLast? = some y → y.ts < ts := by
  unfold stale
  split
  · rename_i y h; simp [h]
  · rename_i h; simp [h]

theorem amplitude_eq (w : Word) : amplitude w = (w.extractLsb' 0 32).toInt := by
  have h : slice w 0 32 = (w.extractLsb' 0 32).toNat := by simp [slice]
  unfold amplitude sx
  rw [h, BitVec.toInt_eq_toNat_cond]
  split <;> split <;> omega

/-! ### The ByteDecoder -/

/-- add_bit changes the ByteDecoder, the receive register, WDRDY and WDOVR. -/
theorem addBit_eq (s : State) (b : Bool) :
    (addBit s b).1 = { s with
      bd := (addBit s b).1.bd
      wd := { s.wd with rxbyte := (addBit s b).1.wd.rxbyte }
      status := { s.status with wdrdy := (addBit s b).1.status.wdrdy, wdovr := (addBit s b).1.status.wdovr } } := by
  unfold addBit
  split
  · rfl
  · split <;> rfl

/-- add_bit never reports a lock, and reports a byte only with WDRDY set. -/
theorem addBit_result (s : State) (b : Bool) :
    (addBit s b).2 = .nothing ∨ (addBit s b).2 = .byte ∧ (addBit s b).1.status.wdrdy = true := by
  unfold addBit
  split
  · exact .inl rfl
  · split
    · exact .inr ⟨rfl, rfl⟩
    · exact .inl rfl

theorem destuffBit_run_le (run : Nat) (b : Bool) (h : run ≤ 7) : (destuffBit run b).1 ≤ 7 := by
  unfold destuffBit
  split
  · simp
  · rename_i hr
    simp only [Config.stuffRun] at hr
    split
    · show run + 1 ≤ 7; omega
    · simp

/-! ### The two steps -/

/-- The seeking step changes nothing, or acquires lock and reports it. -/
theorem seekStep_cases (s : State) :
    seekStep s = (s, .nothing) ∨ ∃ d, seekScan s.wd = some d ∧ seekStep s = (acquireLock s d, .lock) := by
  unfold seekStep
  split
  · exact .inr ⟨_, ‹_›, rfl⟩
  · exact .inl rfl

/-- The locked step loses lock, sees no edge, an early edge, the edge that ends the start symbol, or the edge that ends a data
cell. -/
theorem lockedStep_cases (s : State) (ts : Nat) (a : Int) :
    (lockLost s.wd ts = true ∧ lockedStep s ts a = loseLock s) ∨
    (lockLost s.wd ts = false ∧ pol a s.wd.lsum s.wd.lcnt = s.wd.prevpol ∧ lockedStep s ts a = (s, .nothing)) ∨
    (lockLost s.wd ts = false ∧ pol a s.wd.lsum s.wd.lcnt ≠ s.wd.prevpol ∧ edgeIsEarly s.wd ts = true ∧
      lockedStep s ts a =
        ({ s with wd := { s.wd with prevpol := pol a s.wd.lsum s.wd.lcnt, last := ts, par := !s.wd.par } }, .nothing)) ∨
    (lockLost s.wd ts = false ∧ pol a s.wd.lsum s.wd.lcnt ≠ s.wd.prevpol ∧ edgeIsEarly s.wd ts = false ∧
      s.wd.skip = true ∧
      lockedStep s ts a =
        ({ s with wd := { s.wd with
            prevpol := pol a s.wd.lsum s.wd.lcnt, last := ts, start := ts, par := false, skip := false } }, .nothing)) ∨
    (lockLost s.wd ts = false ∧ pol a s.wd.lsum s.wd.lcnt ≠ s.wd.prevpol ∧ edgeIsEarly s.wd ts = false ∧
      s.wd.skip = false ∧
      lockedStep s ts a =
        addBit { s with wd := { s.wd with
          prevpol := pol a s.wd.lsum s.wd.lcnt, last := ts, start := ts, par := false } } s.wd.par) := by
  unfold lockedStep
  by_cases h1 : lockLost s.wd ts = true
  · simp [h1]
  · by_cases h2 : pol a s.wd.lsum s.wd.lcnt = s.wd.prevpol
    · simp [h1, h2]
    · by_cases h3 : edgeIsEarly s.wd ts = true
      · simp [h1, h2, h3]
      · by_cases h4 : s.wd.skip = true
        · simp [h1, h2, h3, h4]
        · simp [h1, h2, h3, h4]

/-- Losing lock goes back to SEEK, with the bit in flight delivered unless it is the start symbol's. -/
theorem loseLock_cases (s : State) :
    (s.wd.skip = true ∧ loseLock s = ({ s with wd := { s.wd with mode := .seek } }, .nothing)) ∨
    (s.wd.skip = false ∧
      loseLock s =
        ({ (addBit s s.wd.par).1 with wd := { (addBit s s.wd.par).1.wd with mode := .seek } }, (addBit s s.wd.par).2)) := by
  unfold loseLock
  cases h : s.wd.skip
  · exact .inr ⟨rfl, rfl⟩
  · exact .inl ⟨rfl, rfl⟩

/-- A sample changes the decoder, the ByteDecoder, WDRDY and WDOVR, and nothing else. -/
theorem addSample_eq (s : State) (x : Sample) :
    (addSample s x).1 = { s with
      wd := (addSample s x).1.wd, bd := (addSample s x).1.bd
      status := { s.status with
        wdrdy := (addSample s x).1.status.wdrdy, wdovr := (addSample s x).1.status.wdovr } } := by
  unfold addSample
  simp only
  split
  · rcases seekStep_cases { s with wd := pushSample s.wd x } with h | ⟨d, _, h⟩
    · rw [h]
    · rw [h]; rfl
  · rcases lockedStep_cases { s with wd := pushSample s.wd x } x.ts x.val with
      ⟨_, h⟩ | ⟨_, _, h⟩ | ⟨_, _, _, h⟩ | ⟨_, _, _, _, h⟩ | ⟨_, _, _, _, h⟩
    · rw [h]
      rcases loseLock_cases { s with wd := pushSample s.wd x } with ⟨_, h⟩ | ⟨_, h⟩
      · rw [h]
      · rw [h]; simp only; rw [addBit_eq]
    · rw [h]
    · rw [h]
    · rw [h]
    · rw [h, addBit_eq]

end Sys2Proof.Machine
end

