-- ==== Sys2Proof/Tests/Slice0.lean ====
section
/-! SUPPORT. Tests: ill-formed commands are refused, spec-written words decode, single commands do what the vectors of
95_test_vectors.md and 96_test_vectors_2.md say; and for every statement with hypotheses a state and operands that meet them. -/

namespace Sys2Proof.Tests

open Sys2Proof Sys2Proof.Machine

/-- The state a command leaves. -/
def run (i : Instr) (s : State) : State :=
  match exec i s with
  | .next t => t
  | _ => s

/-- The reset state with x registers set. -/
def regs (l : List (Reg × Word)) : State := l.foldl (fun s p => s.writeX p.1 p.2) State.reset

/-- The reset state with bytes in `TB`. -/
def tbState (bs : List Byte) : State := { State.reset with tb := Buffer.ofBytes bs }

/-- The reset state with bytes in `SB`. -/
def sbState (bs : List Byte) : State := { State.reset with sb := Buffer.ofBytes bs }

/-- The reset state with table-file entries set. -/
def table (l : List (Nat × Word)) : State :=
  { State.reset with f := l.foldl (fun f p => f.put p.1 p.2) TableFile.default }

/-- A version byte followed by zeros. -/
def zeroBody (v : Byte) (n : Nat) : List Byte := v :: List.replicate (n - 1) 0

/-! ### Ill-formed commands are refused -/

theorem test_wf_li : (Instr.li 1 2048).wellFormed = false ∧ (Instr.li 1 (-2049)).wellFormed = false := by decide
theorem test_wf_mkdec : (Instr.mkdec 1 2 128).wellFormed = false ∧ (Instr.mkdec 1 2 (-129)).wellFormed = false := by decide
theorem test_wf_rdsr : (Instr.rdsr 1 4096).wellFormed = false := by decide
theorem test_wf_wrsr : (Instr.wrsr 1 4096).wellFormed = false := by decide
theorem test_wf_ldb : (Instr.ldb 1 2 .tb 256).wellFormed = false := by decide
theorem test_wf_stb : (Instr.stb 1 2 .sb 256).wellFormed = false := by decide
theorem test_wf_fix : (Instr.fix 1 2 3 64 true).wellFormed = false := by decide
theorem test_wf_unfix : (Instr.unfix 1 2 3 64 false).wellFormed = false := by decide
theorem test_wf_encode : (Instr.encode 256).wellFormed = false := by decide
theorem test_wf_tget : (Instr.tget 1 64).wellFormed = false := by decide
theorem test_wf_tset : (Instr.tset 1 64).wellFormed = false := by decide

/-! ### Command words (95_test_vectors.md section 2): every constructor -/

theorem test_decode_system :
    decode 0x00000000 = .ok .nop ∧ decode 0x00000001 = .ok .clrerr ∧ decode 0x00000002 = .ok .srst ∧
    decode 0x3E800103 = .ok (.li 1 1000) ∧ decode 0x80000103 = .ok (.li 1 (-2048)) ∧
    decode 0x0FF01204 = .ok (.mkdec 2 1 (-1)) ∧ decode 0x07F01204 = .ok (.mkdec 2 1 127) ∧
    decode 0x00C00305 = .ok (.rdsr 3 12) ∧ decode 0x00101006 = .ok (.wrsr 1 1) := by decide

theorem test_decode_buffer :
    decode 0x80000010 = .ok (.clrb .sb) ∧ decode 0x00001011 = .ok (.pushb 1 .tb) ∧
    decode 0x00201212 = .ok (.ldb 2 1 .tb 2) ∧ decode 0x80130013 = .ok (.stb 0 3 .sb 1) ∧
    decode 0x80000414 = .ok (.lenb 4 .sb) := by decide

theorem test_decode_numeric :
    decode 0x04821320 = .ok (.fix 3 1 2 8 true) ∧ decode 0x01021321 = .ok (.unfix 3 1 2 16 false) ∧
    decode 0x00001222 = .ok (.f12enc 2 1) ∧ decode 0x00001223 = .ok (.f12dec 2 1) ∧
    decode 0x00001224 = .ok (.d16enc 2 1) ∧ decode 0x00001225 = .ok (.d16dec 2 1) ∧
    decode 0x00001226 = .ok (.s10 2 1) ∧ decode 0x00001227 = .ok (.qpack 2 1) ∧
    decode 0x00001228 = .ok (.qunpack 2 1) := by decide

theorem test_decode_stream :
    decode 0x00000030 = .ok .stuff ∧ decode 0x00000031 = .ok .unstuff ∧ decode 0x00001238 = .ok (.crc8 2 1) ∧
    decode 0x00001239 = .ok (.crc16 2 1) ∧ decode 0x0000003A = .ok .frgen ∧ decode 0x0000003B = .ok .frchk := by decide

theorem test_decode_table :
    decode 0x00500040 = .ok (.encode 5) ∧ decode 0x00000041 = .ok .decode ∧ decode 0x02400142 = .ok (.tget 1 36) ∧
    decode 0x00801043 = .ok (.tset 1 8) ∧ decode 0x00000044 = .ok .tdef := by decide

theorem test_decode_waveform :
    decode 0x00021050 = .ok (.wdinit 1 2) ∧ decode 0x00076351 = .ok (.wdsamp 3 6 7) ∧
    decode 0x00000552 = .ok (.wdgetb 5) := by decide

/-- Words that are no command (95_test_vectors.md section 2). -/
theorem test_decode_refuses :
    decode 0xFFFFFFFF = .error .undefinedOpcode ∧ decode 0x00000107 = .error .undefinedOpcode ∧
    decode 0x00000115 = .error .undefinedOpcode ∧ decode 0x00000053 = .error .undefinedOpcode ∧
    decode 0x00000100 = .error .unusedNonzero ∧ decode 0x00100030 = .error .unusedNonzero ∧
    decode 0x00001010 = .error .unusedNonzero ∧ decode 0x08000320 = .error .unusedNonzero ∧
    decode 0x00010005 = .error .unusedNonzero ∧ decode 0x04000142 = .error .unusedNonzero ∧
    decode 0x00100552 = .error .unusedNonzero := by decide

/-! ### One command each -/

/-- NOP leaves LAST 0; CLRERR after an error leaves STATUS 0 (96_test_vectors_2.md section 8). -/
theorem test_nop_clrerr :
    statusWord (run .nop (run .unstuff State.reset)) = 0x0002 ∧
      statusWord (run .clrerr (run .unstuff State.reset)) = 0 := by decide

theorem test_srst : (run .srst (regs [(1, 7)])).readX 1 = 0 := by decide

/-- R255 to R262: the rows of section 8.1. -/
theorem test_li : (run (.li 1 (-2048)) State.reset).readX 1 = 0xFFFFFFFFFFFFF800 := by decide
theorem test_li_x0 : (run (.li 0 5) State.reset).readX 0 = 0 := by decide
theorem test_mkdec : (run (.mkdec 2 1 (-128)) (regs [(1, 0xFF80000000000000)])).readX 2 = 0x8000000000000080 := by decide
theorem test_mkdec_wide : (run (.mkdec 2 1 0) (regs [(1, 0x0080000000000000)])).errc = 0x3F079 := by decide
theorem test_rdsr : (run (.rdsr 3 7) State.reset).readX 3 = 0x0000025510005040 := by decide
theorem test_rdsr_reserved : statusWord (run (.rdsr 3 13) State.reset) = 0x0026 := by decide
theorem test_wrsr : (run (.wrsr 1 1) (regs [(1, 0xFFFFFFFFFFFFFFFF)])).ctrl = 3 := by decide
theorem test_wrsr_readonly : (run (.wrsr 1 6) (regs [(1, 1)])).errc = 0x3F059 := by decide

/-- R264 to R268: the rows of section 8.2. -/
theorem test_clrb : (run (.clrb .tb) (tbState [5, 6])).tb = ⟨[], 0⟩ := by decide
theorem test_pushb :
    (run (.pushb 1 .tb) (regs [(1, 0x105)])).tb = ⟨[(0, 5)], 1⟩ ∧
      (run (.pushb 1 .sb) (regs [(1, 0x1FF)])).sb = ⟨[(0, 0xFF)], 1⟩ := by decide
theorem test_ldb : (run (.ldb 2 0 .tb 2) (tbState [0x05, 0x12, 0x34])).readX 2 = 0x34 := by decide
theorem test_ldb_no_wrap :
    (run (.ldb 2 1 .tb 1) ((tbState [0x05, 0x12, 0x34]).writeX 1 0xFFFFFFFFFFFFFFFF)).errc = 0x3F00A := by decide
theorem test_stb :
    (run (.stb 1 3 .tb 0) (((tbState [7, 7, 7]).writeX 1 2).writeX 3 0x1EE)).tb.bytes = [0x07, 0x07, 0xEE] := by decide
theorem test_lenb : (run (.lenb 4 .tb) (tbState [0x05, 0x12, 0x34])).readX 4 = 3 := by decide

/-- Sections 3.1 and 3.2: a tie of an even count, an exponent beyond 64-bit integers, a signed field. -/
theorem test_fix : (run (.fix 3 1 2 8 true) (regs [(1, 0xFFFFFFFFFFFAFBFE), (2, 0x1FF)])).readX 3 = 0xFFFFFFFFFFFFFF80 := by
  decide
theorem test_fix_scale : (run (.fix 3 1 2 8 false) (regs [(1, 0x114), (2, 0x112)])).readX 3 = 0x64 := by decide
theorem test_unfix : (run (.unfix 3 1 2 8 true) (regs [(1, 0x1FE), (2, 0x1FF)])).readX 3 = 0xFFFFFFFFFFFFFEFF := by decide
theorem test_unfix_widest :
    (run (.unfix 3 1 2 32 true) (regs [(1, 0x80000000), (2, 0x7FFFFF00)])).readX 3 = 0xC000008000000000 := by decide

/-- Sections 3.3 to 3.6. -/
theorem test_f12enc : (run (.f12enc 2 1) (regs [(1, 0x13FBFF)])).readX 2 = 0x199 := by decide
theorem test_f12enc_negative : (run (.f12enc 2 1) (regs [(1, 0xFFFFFFFFFFFFFFFD)])).errinfo2 = 0x107 := by decide
/-- R204's last sentence does not follow from R107 and R112: 511.5 has the float12 code 51 × 10^1, and that value, 510, the code
510 × 10^0; 1023.5 has the decimal16 code 102 × 10^1, and that value, 1020, the code 1020 × 10^0 (log entry 12). -/
theorem test_compact_second_code :
    f12enc 5115 (-1) = some 0x199 ∧ f12dec 0x199 = dec 51 1 ∧ f12enc 51 1 = some (510 * 8) ∧
    d16enc 10235 (-1) = some 0x0CC1 ∧ d16dec 0x0CC1 = dec 102 1 ∧ d16enc 102 1 = some (1020 * 32) := by decide
theorem test_f12dec : (run (.f12dec 2 1) (regs [(1, 0x1FF9)])).readX 2 = 0x1FF01 := by decide
theorem test_d16enc : (run (.d16enc 2 1) (regs [(1, 0x27FBFF)])).readX 2 = 0x0CC1 := by decide
theorem test_d16enc_top : (run (.d16enc 2 1) (regs [(1, 0x4000F)])).errinfo1 = 0xFFFFFFFFFFFC010F := by decide
theorem test_d16dec : (run (.d16dec 2 1) (regs [(1, 0x8010)])).readX 2 = 0xFFFFFFFFFFFC00F0 := by decide

/-- Sections 3.7 and 3.8. -/
theorem test_s10 : (run (.s10 2 1) (regs [(1, 0x201)])).readX 2 = 0xFFFFFFFFFFFFFE01 := by decide
theorem test_qpack : (run (.qpack 2 1) (regs [(1, 0xFF9C00640019FFFD)])).readX 2 = 0xFF4191939C := by decide
theorem test_qpack_lane : (run (.qpack 2 1) (regs [(1, 0x0000020000000000)])).errc = 0x3F021 := by decide
theorem test_qunpack : (run (.qunpack 2 1) (regs [(1, 0xAB0000000001)])).readX 2 = 0x0001000000000000 := by decide

/-- Section 4. -/
theorem test_stuff : (run .stuff (tbState [0x05, 0xFF])).sb.bytes = [0xFF, 0x05, 0xFD, 0x80] := by decide
theorem test_unstuff : (run .unstuff (sbState [0xFF, 0xFF, 0xFF])).tb.bytes = [0xFF] := by decide
theorem test_unstuff_start : (run .unstuff (sbState [0x7F, 0x00])).errinfo0 = 0x7F := by decide

/-- Sections 5.1 to 5.4. -/
theorem test_crc8 : (run (.crc8 2 1) ((tbState [0x01, 0x02]).writeX 1 2)).readX 2 = 0x65 := by decide +kernel
theorem test_crc16 : (run (.crc16 2 1) ((tbState [0x01, 0x02]).writeX 1 2)).readX 2 = 0xE181 := by decide +kernel
theorem test_frgen : (run .frgen (tbState (zeroBody 2 33))).tb.mem = [(0, 2), (34, 0x8C)] := by decide +kernel
theorem test_frgen_length : (run .frgen (tbState (zeroBody 1 29))).errinfo0 = 0x1E := by decide +kernel
theorem test_frchk : (run .frchk (tbState (zeroBody 5 43 ++ [0x52, 0x8A]))).tb = ⟨[(0, 5)], 43⟩ := by decide +kernel
theorem test_frchk_mismatch : (run .frchk (tbState (zeroBody 5 43 ++ [0x52, 0x8B]))).errinfo1 = 0x528B := by decide +kernel

/-- Sections 6.4 to 6.6. -/
theorem test_encode : (run (.encode 5) (table [(13, 0x1FFFE)])).tb.mem = [(0, 5), (27, 0x7F), (28, 0xC0)] := by
  decide +kernel
theorem test_encode_range : (run (.encode 5) (table [(16, 0xFFFFFFFFFFFDFFFE)])).errc = 0x0D0001 := by decide +kernel
theorem test_decode_body :
    (run .decode (tbState (zeroBody 1 11 ++ 0x30 :: 0 :: [0x1F, 0x5E, 0xC1, 0x9D] ++ List.replicate 13 0))).f.get 23 =
      0xFFFFFFFFFFFE0CFD := by decide +kernel
theorem test_decode_type :
    (run .decode (tbState (zeroBody 3 11 ++ 0x07 :: List.replicate 21 0))).errc = 0x4024 := by decide +kernel
theorem test_tget : (run (.tget 1 0) State.reset).readX 1 = 5 := by decide
theorem test_tget_reserved : (run (.tget 1 37) State.reset).errc = 0x3F039 := by decide
theorem test_tset : (run (.tset 1 7) (regs [(1, 0x3E8FF)])).f.get 7 = 0x3E8FF := by decide
theorem test_tdef : (run .tdef (table [(0, 3), (7, 1)])).f = TableFile.default := by decide

/-- Sections 7.1 and 7.4. -/
theorem test_wdinit :
    (run (.wdinit 1 2) (regs [(1, 9600), (2, 1000000)])).wd = { Wd.reset with
      fs := 9600, tps := 1000000, w := 270, maxdur := 25000, ts12 := 125, pmin := 1042 } := by decide +kernel
theorem test_wdinit_window : (run (.wdinit 1 2) (regs [(1, 145636), (2, 145636)])).errc = 0x3F069 := by decide
theorem test_wdsamp_uninitialised : statusWord (run (.wdsamp 3 6 7) State.reset) = 0x002E := by decide
theorem test_wdgetb_none : (run (.wdgetb 5) State.reset).readX 5 = 0xFFFFFFFFFFFFFFFF := by decide

/-! ### A state and operands that meet the hypotheses of each statement, at the ends of each clause's range -/

theorem witness_DecodeOfEncode :
    (Instr.li 15 (-2048)).wellFormed = true ∧ (Instr.li 15 2047).wellFormed = true ∧ (Instr.mkdec 1 2 (-128)).wellFormed = true ∧
    (Instr.rdsr 1 4095).wellFormed = true ∧ (Instr.stb 1 2 .sb 255).wellFormed = true ∧
    (Instr.fix 1 2 3 63 true).wellFormed = true ∧ (Instr.encode 255).wellFormed = true ∧
    (Instr.tset 1 63).wellFormed = true := by decide

theorem witness_DecodeAcceptsOnlyEncodings : decode 0xFFF00103 = .ok (.li 1 (-1)) := by decide

theorem witness_StepRunsDecodedCommand :
    { State.reset with moves := [.issue 0x00021050] }.moves = .issue 0x00021050 :: [] ∧
      decode 0x00021050 = .ok (.wdinit 1 2) ∧ decode 0x00000107 = .error .undefinedOpcode := by decide

theorem witness_WithFetchWordRunsCommand : (Instr.wdsamp 15 15 15).wellFormed = true ∧ (Instr.li 1 (-1)).wellFormed = true := by
  decide

theorem witness_StepTakesOneMove :
    ∀ m ∈ [[], [.writeX 1 5], [.writeX 0 5], [.readX 1], [.readStatus], [.reset], [HostMove.issue 0x00000107]],
      ∃ t, step { State.reset with moves := m } = .next t := by
  intro m hm
  fin_cases hm <;> exact ⟨_, rfl⟩

theorem witness_FailingCommandChangesOnlyErrorState :
    State.reset.status.busy = false ∧
      ∃ t, exec (.tget 1 37) State.reset = .next t ∧ t.status.last ≠ 0 := ⟨rfl, _, rfl, by decide⟩

theorem witness_SucceedingCommandKeepsErrorRegisters :
    (∃ t, exec (.tget 1 36) (run .unstuff State.reset) = .next t ∧ t.status.last = 0 ∧ t.status.err = true) ∧
      ∃ t, exec .clrerr (run .unstuff State.reset) = .next t ∧ t.status.last = 0 ∧ t.status.err = false :=
  ⟨⟨_, rfl, by decide, by decide⟩, _, rfl, by decide, by decide⟩

theorem witness_CommandsRaiseOnlyTheirKinds : ∃ t, exec .unstuff State.reset = .next t ∧ t.status.last = 5 :=
  ⟨_, rfl, by decide⟩

theorem witness_ErrorsDoNotAlterLaterCommands :
    (∀ rd sr, Instr.rdsr 1 6 = .rdsr rd sr → sr ∉ [0, 2, 3, 4, 5]) ∧
      SameButErrors State.reset (run .unstuff State.reset) ∧ run .unstuff State.reset ≠ State.reset := by
  refine ⟨?_, by unfold SameButErrors; decide, by decide⟩
  rintro rd sr h
  cases h
  decide

theorem witness_LiWritesImmediate : (-2048 : Int) ≤ -2048 ∧ (2047 : Int) ≤ 2047 := by decide

/-- The two clauses of MKDEC at their ends: ±2^55 and one beyond. -/
theorem witness_MkdecPacksDecimal :
    ((regs [(1, 0xFF80000000000000)]).readX 1).toInt = -36028797018963968 ∧
    ((regs [(1, 0x007FFFFFFFFFFFFF)]).readX 1).toInt = 36028797018963967 ∧
    ((regs [(1, 0xFF7FFFFFFFFFFFFF)]).readX 1).toInt = -36028797018963969 ∧
    ((regs [(1, 0x0080000000000000)]).readX 1).toInt = 36028797018963968 ∧ (2 : Int) ^ 55 = 36028797018963968 := by decide

theorem witness_RdsrReadsSystemRegister :
    (run (.rdsr 3 0) (run .unstuff State.reset)).readX 3 = 0x0016 ∧ (run (.rdsr 3 12) State.reset).status.last = 0 ∧
      (run (.rdsr 3 13) State.reset).errc = 0x3F049 := by decide

theorem witness_WrsrWritesOnlyCtrl :
    (run (.wrsr 1 13) State.reset).errc = 0x3F049 ∧ (run (.wrsr 1 1) State.reset).status.last = 0 ∧
      (run (.wrsr 1 12) State.reset).errc = 0x3F059 ∧ (run (.wrsr 1 0) State.reset).errc = 0x3F059 := by decide

/-- PUSHB at 63 and at 64 bytes. -/
theorem witness_PushbAppendsByte :
    (∀ n ∈ [0, 63, 64], ((tbState (List.replicate n 7)).buf .tb).wf (bufCap .tb) = true) ∧
      ((tbState (List.replicate 63 7)).buf .tb).len < bufCap .tb ∧
      ¬ ((tbState (List.replicate 64 7)).buf .tb).len < bufCap .tb := by decide +kernel

theorem witness_LdbReadsByte :
    ((regs [(1, 1)]).readX 1).toNat + 1 < ((tbState [7, 7, 7]).buf .tb).len ∧
      ¬ ((regs [(1, 2)]).readX 1).toNat + 1 < ((tbState [7, 7, 7]).buf .tb).len := by decide

theorem witness_StbOverwritesByte :
    ((tbState [7, 7, 7]).buf .tb).wf (bufCap .tb) = true ∧
      bufIndex ((tbState [7, 7, 7]).writeX 1 1) 1 1 < ((tbState [7, 7, 7]).buf .tb).len ∧
      ¬ bufIndex ((tbState [7, 7, 7]).writeX 1 2) 1 1 < ((tbState [7, 7, 7]).buf .tb).len := by decide

theorem decVal_of {w : Word} {m e : Int} (hm : decMantissa w = m) (he : decExponent w = e) : decVal w = m * 10 ^ e := by
  rw [decVal, hm, he]

/-- FIX at both ends of a signed byte, at a tie and beyond: -128.5, 127.4, -128.6, 127.5. -/
theorem witness_FixRoundsToNearestEven :
    (decMantissa (0x100 : Word) = 1 ∧ decMantissa (0x7FFFFF00 : Word) = 2 ^ 23 - 1) ∧
    (RoundsTo (decVal 0xFFFFFFFFFFFAFBFF / decVal 0x100) (-128) ∧ fixLo 8 true ≤ -128 ∧ -128 ≤ fixHi 8 true) ∧
    (RoundsTo (decVal 0x4FAFF / decVal 0x100) 127 ∧ fixLo 8 true ≤ 127 ∧ 127 ≤ fixHi 8 true) ∧
    (RoundsTo (decVal 0xFFFFFFFFFFFAFAFF / decVal 0x100) (-129) ∧ ¬ fixLo 8 true ≤ -129) ∧
    RoundsTo (decVal 0x4FBFF / decVal 0x100) 128 ∧ ¬ 128 ≤ fixHi 8 true := by
  have h1 : decVal 0x100 = 1 := by rw [decVal_of (m := 1) (e := 0) (by decide) (by decide)]; norm_num
  have h2 : decVal 0xFFFFFFFFFFFAFBFF = -128.5 := by
    rw [decVal_of (m := -1285) (e := -1) (by decide) (by decide)]; norm_num
  have h3 : decVal 0x4FAFF = 127.4 := by rw [decVal_of (m := 1274) (e := -1) (by decide) (by decide)]; norm_num
  have h4 : decVal 0xFFFFFFFFFFFAFAFF = -128.6 := by
    rw [decVal_of (m := -1286) (e := -1) (by decide) (by decide)]; norm_num
  have h5 : decVal 0x4FBFF = 127.5 := by rw [decVal_of (m := 1275) (e := -1) (by decide) (by decide)]; norm_num
  rw [h1, h2, h3, h4, h5]
  refine ⟨by decide, ⟨Or.inr ⟨?_, by decide⟩, by decide⟩, ⟨Or.inl ?_, by decide⟩, ⟨Or.inl ?_, by decide⟩,
    Or.inr ⟨?_, by decide⟩, by decide⟩ <;> norm_num [abs_of_pos, abs_of_neg]

/-- FIX and UNFIX at the widths 0 and 33 and at the scale mantissas 0 and 2^23 (95_test_vectors.md section 3.1). -/
theorem witness_FixRoundsToNearestEven_refusals :
    (run (.fix 3 1 2 0 true) (regs [(1, 0x100), (2, 0x100)])).errc = 0x3F019 ∧
    (run (.fix 3 1 2 33 true) (regs [(1, 0x100), (2, 0x100)])).errc = 0x3F019 ∧
    (run (.fix 3 1 2 8 false) (regs [(1, 0x100), (2, 0)])).errc = 0x3F029 ∧
    (run (.unfix 3 1 2 8 false) (regs [(1, 0x100), (2, 0x80000000)])).errc = 0x3F029 := by decide

/-- UNFIX at the widest field and scale, signed and unsigned. -/
theorem witness_UnfixIsExact :
    decMantissa ((regs [(2, 0x7FFFFF00)]).readX 2) = 2 ^ 23 - 1 ∧
      (((regs [(1, 0xFFFFFFFF)]).readX 1).setWidth 32).toNat = 4294967295 ∧
      (((regs [(1, 0x80000000)]).readX 1).setWidth 32).toInt = -2147483648 ∧
      (((regs [(1, 1)]).readX 1).setWidth 1).toInt = -1 := by decide

theorem witness_FixThenUnfixIsWithinHalfStep :
    (3 : Reg) ≠ 0 ∧ (3 : Reg) ≠ 2 ∧ (4 : Reg) ≠ 0 ∧
      (run (.fix 3 1 2 8 true) (regs [(1, 0xFFFFFFFFFFFAFBFE), (2, 0x1FF)])).status.last = 0 := by decide

/-- float12 at 0 and 10^7, and just outside. -/
theorem witness_F12encTakesLeastExponent :
    (0 ≤ decVal 0 ∧ decVal 0 ≤ 10 ^ 7) ∧ (0 ≤ decVal 0x107 ∧ decVal 0x107 ≤ 10 ^ 7) ∧ ¬ 0 ≤ decVal 0xFFFFFFFFFFFFFFFD ∧
      ¬ decVal 0x98968100 ≤ 10 ^ 7 := by
  rw [decVal_of (w := 0) (m := 0) (e := 0) (by decide) (by decide), decVal_of (w := 0x107) (m := 1) (e := 7) (by decide) (by decide),
    decVal_of (w := 0xFFFFFFFFFFFFFFFD) (m := -1) (e := -3) (by decide) (by decide),
    decVal_of (w := 0x98968100) (m := 10000001) (e := 0) (by decide) (by decide)]
  norm_num

/-- decimal16 at 1023.4 × 10^15 and at 1023.5 × 10^15, a tie that rounds out of range. -/
theorem witness_D16encTakesLeastExponent :
    (RoundsTo (decVal 0x27FA0E / 10 ^ 15) 1023 ∧ |(1023 : Int)| ≤ 1023) ∧
      RoundsTo (decVal 0x27FB0E / 10 ^ 15) 1024 ∧ ¬ |(1024 : Int)| ≤ 1023 := by
  have h1 : decVal 0x27FA0E = 10234 * 10 ^ 14 := by
    rw [decVal_of (m := 10234) (e := 14) (by decide) (by decide)]; norm_num
  have h2 : decVal 0x27FB0E = 10235 * 10 ^ 14 := by
    rw [decVal_of (m := 10235) (e := 14) (by decide) (by decide)]; norm_num
  rw [h1, h2]
  refine ⟨⟨Or.inl ?_, by decide⟩, Or.inr ⟨?_, by decide⟩, by decide⟩ <;> norm_num [abs_of_pos, abs_of_neg]

theorem witness_CompactFormatsAccuracy :
    f12enc (mant 0x13FBFF) (expo 0x13FBFF) = some 0x199 ∧ f12enc (mant 0x4B00) (expo 0x4B00) = some 0x258 ∧
      d16enc (mant 0x27FBFF) (expo 0x27FBFF) = some 0x0CC1 ∧ d16enc (mant 0x1F0) (expo 0x1F0) = some 0x0030 ∧
      d16enc (mant 0x1EC) (expo 0x1EC) = some 0 := by decide

/-- QPACK: all four lanes at an end of their range; lane 0, or lane 3 alone, out of it. -/
theorem witness_QpackPacksLanes :
    (∀ i, i < 4 → -512 ≤ ((0xFE0001FFFE0001FF : Word).extractLsb' (16 * i) 16).toInt ∧
      ((0xFE0001FFFE0001FF : Word).extractLsb' (16 * i) 16).toInt ≤ 511) ∧
    ((0xFDFF : Word).extractLsb' 0 16).toInt < -512 ∧
    511 < ((0x0200000000000000 : Word).extractLsb' 48 16).toInt ∧
    ∀ k, k < 3 → ((0x0200000000000000 : Word).extractLsb' (16 * k) 16).toInt = 0 := by decide

theorem witness_QunpackInvertsQpack : quadFits (-512) = true ∧ quadFits 511 = true ∧ 2 ^ 40 - 1 < 2 ^ 40 := by decide

theorem witness_StuffFillsStreamBuffer :
    (tbState []).tb.wf 64 = true ∧ (tbState (List.replicate 64 0xFF)).tb.wf 64 = true := by decide +kernel

/-- UNSTUFF: an empty buffer, a wrong first byte, 65 bytes out, 64 bytes out. -/
theorem witness_UnstuffReadsStreamBuffer :
    (sbState []).sb.len = 0 ∧ (sbState [0xFE]).sb.mem.read 0 ≠ 0xFF ∧
      64 < (unstuff (sbState (0xFF :: List.replicate 65 0)).sb.bytes.tail).length ∧
      (run .unstuff (sbState (0xFF :: List.replicate 64 0))).tb = ⟨[], 64⟩ := by decide +kernel

theorem witness_CrcCommandsReadPrefix :
    ((regs [(1, 2)]).readX 1).toNat ≤ (tbState [1, 2]).tb.len ∧ ¬ ((regs [(1, 3)]).readX 1).toNat ≤ (tbState [1, 2]).tb.len := by
  decide

/-- FRGEN: version 0, a body one byte short or long, a body of versions 1, 3 and 9. -/
theorem witness_FrgenAppendsChecksum :
    (∀ n ∈ [29, 30, 31], (tbState (zeroBody 1 n)).tb.wf 64 = true) ∧
      (run .frgen (tbState (zeroBody 0 30))).errc = 0x14 ∧ (run .frgen (tbState (zeroBody 1 31))).errinfo1 = 31 ∧
      (run .frgen (tbState (zeroBody 1 30))).tb.len = 31 ∧ (run .frgen (tbState (zeroBody 3 33))).tb.len = 35 ∧
      (run .frgen (tbState (zeroBody 9 43))).tb.len = 45 := by decide +kernel

/-- FRCHK: a frame one byte short, a checksum that differs, a frame with bytes after it. -/
theorem witness_FrchkValidatesAndStrips :
    (∀ n ∈ [44, 45, 64], (tbState (zeroBody 5 n)).tb.wf 64 = true) ∧ (run .frchk State.reset).errc = 0x3F002 ∧
      (run .frchk (tbState (zeroBody 0 45))).errc = 0x14 ∧ (run .frchk (tbState (zeroBody 5 44))).errinfo0 = 45 ∧
      (run .frchk (tbState (zeroBody 5 45))).errc = 0x3F003 ∧
      (run .frchk (tbState (zeroBody 5 43 ++ [0x52, 0x8A, 7]))).tb = ⟨[(0, 5)], 43⟩ := by decide +kernel

theorem witness_FrgenThenFrchkRestores :
    (tbState (zeroBody 1 30)).tb.wf 64 = true ∧ (tbState (zeroBody 1 30)).tb.mem.read 0 ≠ 0 ∧
      (tbState (zeroBody 1 30)).tb.len = Config.bodyLen ((tbState (zeroBody 1 30)).tb.mem.read 0).toNat := by decide +kernel

/-- A change of the second byte of a body, and of its last. -/
theorem witness_OneByteCorruptionIsCaught :
    ∀ off ∈ [1, 29], 1 ≤ bufIndex (tbState (zeroBody 1 30)) 0 off ∧
      bufIndex (tbState (zeroBody 1 30)) 0 off < (tbState (zeroBody 1 30)).tb.len ∧
      ((regs [(2, 0x180)]).readX 2).extractLsb' 0 8 ≠ (tbState (zeroBody 1 30)).tb.mem.read off := by decide +kernel

theorem witness_TableFileAccess :
    (run (.tset 1 36) (regs [(1, 9)])).f.get 36 = 9 ∧ (run (.tset 1 37) (regs [(1, 9)])).errc = 0x3F039 := by decide

theorem witness_LayoutIsWellFormed : hdrTab 1 = some 0 ∧ blkTab 1 0 = some 35 ∧ hdrTab 5 = some 27 ∧ blkTab 5 6 = some 94 := by
  decide

theorem decVal_zero : decVal 0 = 0 := by rw [decVal_of (m := 0) (e := 0) (by decide) (by decide)]; norm_num

/-- A descriptor word whose field the default table fits. -/
def fitsDefault (v : Nat) (w : Word32) : Bool :=
  (entriesOf w).all (fun k => k = 0 || TableFile.default.get k == 0) &&
    (kindOf w == some .int || !(entriesOf w).contains 0) &&
    (if (descOf w).fid = 0 then decide (v < 2 ^ (descOf w).n) else true)

theorem wordFits_default {v : Nat} {w : Word32} (h : fitsDefault v w = true) : WordFits v TableFile.default w := by
  have hz : ∀ k ∈ entriesOf w, k ≠ 0 → TableFile.default.get k = 0 := by
    intro k hk h0
    simp only [fitsDefault, Bool.and_eq_true, List.all_eq_true] at h
    simpa [h0] using h.1.1 k hk
  have hn : kindOf w ≠ some .int → ∀ k ∈ entriesOf w, k ≠ 0 := by
    intro hi k hk h0
    subst h0
    simp [fitsDefault, hi, hk] at h
  have hc : ∀ (x : Word) (n : Nat) (sg : Bool) (q : ℚ), x = 0 → CountFits x n sg q := by
    rintro x n sg q rfl
    refine ⟨0, Or.inl ?_, ?_, ?_⟩
    · rw [decVal_zero]; norm_num
    · unfold fixLo; split <;> simp
    · unfold fixHi; split
      · have : (1 : Int) ≤ 2 ^ (n - 1) := one_le_pow₀ (by norm_num)
        omega
      · have : (1 : Int) ≤ 2 ^ n := one_le_pow₀ (by norm_num)
        omega
  have hint : (descOf w).fid = 0 → v < 2 ^ (descOf w).n := by
    intro h0
    simp only [fitsDefault, h0, Bool.and_eq_true] at h
    simpa using h.2
  unfold WordFits
  unfold entriesOf at hz hn
  rcases hk : kindOf w with _ | k
  · simp
  · rw [hk] at hz hn
    cases k
    · simp
    · have := fun h0 : (descOf w).fid ≠ 0 => hz _ (by simp) h0
      by_cases h0 : (descOf w).fid = 0
      · simpa [h0] using hint h0
      · simp [h0, this h0]
    · exact hc _ _ _ _ (hz _ (by simp) (hn (by simp) _ (by simp)))
    · exact hc _ _ _ _ (hz _ (by simp) (hn (by simp) _ (by simp)))
    · have := hz (descOf w).fid (by simp) (hn (by simp) _ (by simp))
      simp only [this, decVal_zero]
      norm_num
    · have := hz (descOf w).fid (by simp) (hn (by simp) _ (by simp))
      refine ⟨0, Or.inl ?_, by norm_num⟩
      rw [this, decVal_zero]; norm_num
    · simp
    · simp
    · show ∀ i, i < 4 → CountFits (TableFile.default.get ((descOf w).fid + i)) 10 true (descOf w).scale
      intro i hi
      refine hc _ _ _ _ (hz _ ?_ (hn (by simp) _ ?_)) <;>
      · have : i = 0 ∨ i = 1 ∨ i = 2 ∨ i = 3 := by omega
        rcases this with rfl | rfl | rfl | rfl <;> simp
    · simp

/-- The default table, at the lowest and the highest version. -/
theorem witness_EncodeWritesBody : Encodable 1 State.reset.f ∧ Encodable 5 State.reset.f := by
  have hf : State.reset.f = TableFile.default := rfl
  have h5 : TableFile.default.get 5 = 0 := by decide
  have h6 : TableFile.default.get 6 = 0 := by decide
  have h4 : TableFile.default.get 4 = 0 := by decide
  rw [hf]
  constructor <;>
  · refine ⟨by norm_num, by norm_num, by rw [h4]; decide, ?_, ?_, ?_, ?_⟩
    · intro _; decide
    · intro _; rw [h5, h6, decVal_zero]; simp
    · rw [h4]; intro h; exact absurd h (by decide)
    · rw [h4]
      intro w hw
      refine wordFits_default (List.all_eq_true.mp ?_ w hw)
      decide +kernel

/-- ENCODE's refusals in their order (43_table_codec.md R191), and a table it takes. -/
theorem witness_EncodeRefusesInOrder :
    (run (.encode 0) State.reset).errc = 0x14 ∧ (run (.encode 6) State.reset).errc = 0x14 ∧
    (run (.encode 3) (table [(4, 7)])).errc = 0x4024 ∧
    (run (.encode 3) (table [(2, 0x4142434445000000)])).errinfo0 = 5 ∧
    (run (.encode 3) (table [(2, 0x4142434400000000)])).status.last = 0 ∧
    (run (.encode 1) (table [(5, 0x4B00), (6, 0x6400)])).errc = 0x5044 ∧
    (run (.encode 1) (table [(6, 0x6400)])).errc = 0x6044 := by decide +kernel

/-- The same for the NTC form; a resistance of 0 × 10^3 passes version 1 (96_test_vectors_2.md sections 6.3, 6.4). -/
theorem witness_EncodeRefusesInOrder_ntc :
    (run (.encode 3) (table [(4, 5), (30, 0x200), (31, 0x200)])).errc = 0x1E054 ∧
    (run (.encode 3) (table [(4, 5), (31, 0x200)])).errc = 0x1F054 ∧
    (run (.encode 4) (table [(4, 5), (32, 0x271000)])).errc = 0x20054 ∧
    (run (.encode 1) (table [(6, 0x3)])).status.last = 0 := by decide +kernel

/-- The command answers a next state. -/
def runs (i : Instr) (s : State) : Bool :=
  match exec i s with
  | .next _ => true
  | _ => false

theorem exec_eq_run {i : Instr} {s : State} (h : runs i s = true) : exec i s = .next (run i s) := by
  unfold runs at h
  unfold run
  split at h
  · simp_all
  · simp at h

theorem witness_EncodeNamesFirstMisfit :
    ∃ t, exec (.encode 5) (table [(7, 0x10000FF)]) = .next t ∧ t.status.last = 1 :=
  ⟨_, exec_eq_run (by decide +kernel), by decide +kernel⟩

/-- The last value of a quad does not fit (96_test_vectors_2.md section 6.5 has the second). -/
theorem witness_EncodeNamesFirstMisfit_quad :
    ∃ t, exec (.encode 5) (table [(16, 0x200FE)]) = .next t ∧ t.status.last = 1 ∧ t.errc = 0x0D0001 :=
  ⟨_, exec_eq_run (by decide +kernel), by decide +kernel, by decide +kernel⟩

/-- DECODE of an empty buffer, of versions 0 and 6, of a body one byte short, of sensor types 7 and 6. -/
theorem witness_DecodeReadsBody :
    (run .decode State.reset).errc = 0x3F002 ∧ (run .decode (tbState (zeroBody 0 30))).errc = 0x14 ∧
    (run .decode (tbState (zeroBody 6 43))).errc = 0x14 ∧ (run .decode (tbState (zeroBody 1 29))).errinfo0 = 30 ∧
    (run .decode (tbState (zeroBody 1 11 ++ 0x70 :: List.replicate 18 0))).errc = 0x4024 ∧
    codedSensorType 1 (tbState (zeroBody 1 11 ++ 0x60 :: List.replicate 18 0)).tb.mem = 6 ∧
    (run .decode (tbState (zeroBody 1 11 ++ 0x60 :: List.replicate 18 0))).f.get 4 = 6 := by decide +kernel

theorem witness_EncodeThenDecodeRestoresTable : ∃ t, exec (.encode 5) State.reset = .next t ∧ t.status.last = 0 :=
  ⟨_, exec_eq_run (by decide +kernel), by decide +kernel⟩

theorem witness_SecondEncodeGivesSameBody :
    ∃ t u w, exec (.encode 1) State.reset = .next t ∧ t.status.last = 0 ∧ exec .decode t = .next u ∧
      exec (.encode 1) u = .next w :=
  ⟨_, _, _, exec_eq_run (by decide +kernel), by decide +kernel, exec_eq_run (by decide +kernel),
    exec_eq_run (by decide +kernel)⟩

theorem witness_WdinitConfigures :
    (run (.wdinit 1 2) (regs [(1, 1), (2, 1)])).status.last = 0 ∧
    (run (.wdinit 1 2) (regs [(1, 0), (2, 9600)])).status.last = 9 ∧
    (run (.wdinit 1 2) (regs [(1, 9600), (2, 9599)])).status.last = 9 ∧
    (run (.wdinit 1 2) (regs [(1, 145635), (2, 145635)])).wd.w = 4096 ∧
    (run (.wdinit 1 2) (regs [(1, 145636), (2, 145636)])).status.last = 9 := by decide +kernel

/-- The decoder after WDINIT with 9600 and 9600 (96_test_vectors_2.md section 7.1). -/
def wd9600 : Wd := { Wd.reset with fs := 9600, tps := 9600, w := 270, maxdur := 240, ts12 := 2, pmin := 10 }

/-- The state with the timestamp and the amplitude of a sample in `x6` and `x7`. -/
def withSample (s : State) (x6 x7 : Word) : State := (s.writeX 6 x6).writeX 7 x7

/-- In SEEK: a quiet sample, then one sample each half cell of 10 ticks, so that 15 crossings lie at indices 2 to 16. -/
def seekBase : State :=
  { State.reset with
    wd := { wd9600 with
      win := ⟨0, -1000⟩ :: (List.range 16).map fun (k : Nat) => ⟨20 + 10 * k, if k % 2 = 0 then -1000 else 1000⟩
      sum := -1000 }
    status := { Status.reset with wdini := true } }

/-- In LOCKED at the moment of 96_test_vectors_2.md section 7.2: start 340, last edge 350, period 20, tolerance 5, and the
sum of R221 over the samples 81 to 350 (log entry 15). -/
def lockedBase : State :=
  { State.reset with
    wd := { wd9600 with
      win := [⟨349, -1000⟩, ⟨350, 1000⟩], sum := 0, mode := .locked, lsum := -110000, lcnt := 270, prevpol := true
      period := 20, tol := 5, start := 340, last := 350, par := true, skip := true }
    status := { Status.reset with wdini := true } }

/-- The SEEK state about to take a sample. -/
def seekState (x6 x7 : Word) : State := withSample seekBase x6 x7

/-- The LOCKED state about to take a sample, with its `wd.skip` and its ByteDecoder. -/
def lockedState (skip : Bool) (bd : Bd) (x6 x7 : Word) : State :=
  withSample { lockedBase with wd := { lockedBase.wd with skip := skip }, bd := bd } x6 x7

theorem inv_writeX {s : State} (h : s.Inv) (i : Reg) (v : Word) : (s.writeX i v).Inv := by
  unfold State.writeX
  split
  · exact h
  · rename_i hi
    have h0 : i.val ≠ 0 := fun e => hi (Fin.ext e)
    exact { h with zero := by simpa [Vector.getElem_set, h0] using h.zero }

theorem inv_bd_skip {s : State} (h : s.Inv) (hi : s.status.wdini = true) (skip : Bool) (bd : Bd)
    (hb : bd.nbits ≤ 7 ∧ bd.run ≤ 7 ∧ bd.byte.toNat < 2 ^ bd.nbits) :
    { s with wd := { s.wd with skip := skip }, bd := bd }.Inv :=
  { h with
    noSession := fun h' => absurd (hi.symm.trans h') (by decide)
    byteDecoder := hb }

theorem seekBase_inv : seekBase.Inv where
  zero := by decide
  idle := rfl
  tb := by decide
  sb := by decide
  lastCode := by decide
  kindCode := by decide
  acknowledged := fun _ => ⟨rfl, rfl, rfl, rfl, rfl⟩
  recorded := fun h => absurd h (by decide)
  lastRecorded := fun h => absurd rfl h
  noSession := fun h => absurd h (by decide)
  configured := fun _ => by decide
  window := by
    refine ⟨by decide, by decide +kernel, by decide +kernel, ?_⟩
    simp [seekBase, List.range_succ]
  lock := fun h => absurd h (by decide)
  byteDecoder := by decide

theorem lockedBase_inv : lockedBase.Inv where
  zero := by decide
  idle := rfl
  tb := by decide
  sb := by decide
  lastCode := by decide
  kindCode := by decide
  acknowledged := fun _ => ⟨rfl, rfl, rfl, rfl, rfl⟩
  recorded := fun h => absurd h (by decide)
  lastRecorded := fun h => absurd rfl h
  noSession := fun h => absurd h (by decide)
  configured := fun _ => by decide
  window := by
    refine ⟨by decide, by decide, by decide, ?_⟩
    simp [lockedBase]
  lock := fun _ =>
    ⟨rfl, by decide, by decide, by decide, by decide, ⟨⟨350, 1000⟩, rfl, by decide⟩, by decide, by decide, by
      simp [lockedBase]⟩
  byteDecoder := by decide

theorem seekState_inv (x6 x7 : Word) : (seekState x6 x7).Inv :=
  inv_writeX (inv_writeX seekBase_inv 6 x6) 7 x7

theorem lockedState_inv (skip : Bool) (bd : Bd) (x6 x7 : Word)
    (hb : bd.nbits ≤ 7 ∧ bd.run ≤ 7 ∧ bd.byte.toNat < 2 ^ bd.nbits) : (lockedState skip bd x6 x7).Inv :=
  inv_writeX (inv_writeX (inv_bd_skip lockedBase_inv rfl skip bd hb) 6 x6) 7 x7

theorem witness_InvariantKeptByEveryStep :
    (lockedState true Bd.reset 360 0).Inv ∧ ∃ t, step (lockedState true Bd.reset 360 0) = .next t :=
  ⟨lockedState_inv _ _ _ _ (by decide), _, rfl⟩

theorem witness_WdsampRefusesAndDrops :
    State.reset.status.wdini = false ∧ (lockedState true Bd.reset 350 0).status.wdini = true ∧
      (lockedState true Bd.reset 350 0).wd.win.getLast? = some ⟨350, 1000⟩ ∧
      ((lockedState true Bd.reset 350 0).readX 6).toNat ≤ 350 := by decide

/-- The sample just after the newest of the window, in SEEK with the window not full. -/
theorem witness_WdsampTakesSample :
    (seekState 171 0).Inv ∧ (seekState 171 0).status.wdini = true ∧
      ∀ y, (seekState 171 0).wd.win.getLast? = some y → y.ts < ((seekState 171 0).readX 6).toNat := by
  refine ⟨seekState_inv _ _, rfl, ?_⟩
  intro y hy
  rw [show (seekState 171 0).wd.win.getLast? = some ⟨170, 1000⟩ by decide +kernel] at hy
  cases hy
  decide

/-- The sample at 180 closes the start symbol: 16 crossings at 30, 40, …, 180. -/
theorem witness_LocksExactlyOnStartSymbol :
    (seekState 180 0xFFFFFC18).Inv ∧ (seekState 180 0xFFFFFC18).wd.mode = .seek ∧
      (run (.wdsamp 3 6 7) (seekState 180 0xFFFFFC18)).wd.mode = .locked ∧
      (run (.wdsamp 3 6 7) (seekState 180 0xFFFFFC18)).readX 3 = 0xFFFFFFFFFFFFFFFF ∧
      (run (.wdsamp 3 6 7) (seekState 171 0)).wd.mode = .seek :=
  ⟨seekState_inv _ _, rfl, by decide +kernel, by decide +kernel, by decide +kernel⟩

theorem witness_LocksExactlyOnStartSymbol_tests :
    StartSymbolAt (seekState 180 0xFFFFFC18).wd (run (.wdsamp 3 6 7) (seekState 180 0xFFFFFC18)).wd.win
      (run (.wdsamp 3 6 7) (seekState 180 0xFFFFFC18)).wd.sum (fun k => k.val + 2) := by
  have hw : (run (.wdsamp 3 6 7) (seekState 180 0xFFFFFC18)).wd.win =
      ⟨0, -1000⟩ :: (List.range 17).map fun (k : Nat) => (⟨20 + 10 * k, if k % 2 = 0 then -1000 else 1000⟩ : Sample) := by
    decide +kernel
  have hs : (run (.wdsamp 3 6 7) (seekState 180 0xFFFFFC18)).wd.sum = -2000 := by decide +kernel
  rw [hw, hs]
  generalize hwin : (⟨0, -1000⟩ :: (List.range 17).map fun (k : Nat) =>
    (⟨20 + 10 * k, if k % 2 = 0 then -1000 else 1000⟩ : Sample)) = win
  have hc : ∀ i, i < 18 → (CrossesAt win (-2000) i ↔ 2 ≤ i) := by
    intro i hi
    subst hwin
    interval_cases i <;> simp [CrossesAt, List.range_succ]
  have hl : win.length = 18 := by subst hwin; rfl
  have hx : ∀ i, CrossesAt win (-2000) i → i < 18 := by
    rintro i ⟨x, y, _, _, h, _⟩
    have h1 := (List.getElem?_eq_some_iff.mp h).1
    omega
  refine ⟨fun a b h => by simpa using h, fun k => (hc (k.val + 2) (by omega)).mpr (by omega), by rw [hl]; rfl, ?_, ?_, ?_,
    ?_, ?_, ?_⟩
  · intro i h
    have h1 := hx i h
    have h2 := (hc i h1).mp h
    exact Or.inl ⟨⟨i - 2, by omega⟩, by simp; omega⟩
  · subst hwin; decide +kernel
  · subst hwin; decide +kernel
  · subst hwin; decide +kernel
  · subst hwin; decide +kernel
  · intro i h h2
    have := (hc i (hx i h)).mp h
    simp at h2
    omega

/-- The five cases of a locked sample at their ends: lock lost at 431 and not at 430; no edge; an edge at 354, early, and at 355. -/
theorem witness_LockedSampleClassifiesEdge :
    (∀ skip ts a, (lockedState skip Bd.reset ts a).Inv) ∧
    (run (.wdsamp 3 6 7) (lockedState false Bd.reset 431 0)).wd.mode = .seek ∧
    (run (.wdsamp 3 6 7) (lockedState true Bd.reset 431 0)).bd = Bd.reset ∧
    (run (.wdsamp 3 6 7) (lockedState false Bd.reset 430 0)).wd.mode = .locked ∧
    (run (.wdsamp 3 6 7) (lockedState true Bd.reset 360 1000)).wd.last = 350 ∧
    (run (.wdsamp 3 6 7) (lockedState true Bd.reset 354 0xFFFFFC18)).wd.par = false ∧
    (run (.wdsamp 3 6 7) (lockedState true Bd.reset 355 0xFFFFFC18)).wd.skip = false ∧
    (run (.wdsamp 3 6 7) (lockedState false Bd.reset 355 0xFFFFFC18)).bd = ⟨1, 1, 1⟩ :=
  ⟨fun _ _ _ => lockedState_inv _ _ _ _ (by decide), by decide +kernel, by decide +kernel, by decide +kernel, by decide +kernel,
    by decide +kernel, by decide +kernel, by decide +kernel⟩

/-- The three things add_bit does: a stuffing bit dropped, a byte completed, a bit shifted in. -/
theorem witness_LockedSampleClassifiesEdge_bits :
    (lockedState false ⟨0x7F, 7, 7⟩ 355 0xFFFFFC18).Inv ∧ (lockedState false ⟨0x2A, 7, 0⟩ 355 0xFFFFFC18).Inv ∧
    (run (.wdsamp 3 6 7) (lockedState false ⟨0x7F, 7, 7⟩ 355 0xFFFFFC18)).bd = ⟨0x7F, 7, 0⟩ ∧
    (run (.wdsamp 3 6 7) (lockedState false ⟨0x2A, 7, 0⟩ 355 0xFFFFFC18)).wd.rxbyte = 0x55 ∧
    (run (.wdsamp 3 6 7) (lockedState false ⟨0x2A, 7, 0⟩ 355 0xFFFFFC18)).readX 3 = 1 :=
  ⟨lockedState_inv _ _ _ _ (by decide), lockedState_inv _ _ _ _ (by decide), by decide +kernel, by decide +kernel,
    by decide +kernel⟩

theorem witness_ByteDecoderIsTheUnstuffer : State.reset.bd = Bd.reset := rfl

/-- WDGETB with a byte waiting: it is taken, and WDOVR stays. -/
theorem witness_WdgetbTakesWaitingByte :
    (run (.wdgetb 5) { State.reset with
      wd := { wd9600 with rxbyte := 0xA7 }
      status := { Status.reset with wdini := true, wdrdy := true, wdovr := true } }).readX 5 = 0xA7 ∧
    statusWord (run (.wdgetb 5) { State.reset with
      wd := { wd9600 with rxbyte := 0xA7 }
      status := { Status.reset with wdini := true, wdrdy := true, wdovr := true } }) = 0x0240 := by decide

theorem witness_DecoderAndCodecAreDisjoint :
    (∃ t, exec (.wdgetb 5) State.reset = .next t) ∧ (∃ t, exec .tdef State.reset = .next t) ∧
      ∃ t, exec .srst State.reset = .next t := ⟨⟨_, rfl⟩, ⟨_, rfl⟩, _, rfl⟩

theorem witness_WdsampCommutesWithCodecCommands :
    isCodec (.tget 1 0) = true ∧ (∀ r ∈ registersOf (.tget 1 0), r ∉ [3, 6, 7]) ∧
      ∃ t u, exec (.wdsamp 3 6 7) (seekState 171 0) = .next t ∧ t.status.last = 0 ∧ exec (.tget 1 0) t = .next u ∧
        u.status.last = 0 :=
  ⟨rfl, by decide, _, _, exec_eq_run (by decide +kernel), by decide +kernel, exec_eq_run (by decide +kernel), by decide +kernel⟩

end Sys2Proof.Tests
end

section
/-! SUPPORT. The fields of STATUS as digits of its value (10_state.md R27), and the state after reset (R42). -/

namespace Sys2Proof.Machine

/-! ### STATUS (10_state.md R27) -/

/-- The sum of the fields of STATUS, each at its place, does not overflow. -/
theorem statusWord_toNat (s : State) :
    (statusWord s).toNat = s.status.busy.toNat + 2 * s.status.err.toNat + 4 * s.status.last.toNat
      + 64 * s.status.wdini.toNat + 128 * (wdlock s).toNat + 256 * s.status.wdrdy.toNat + 512 * s.status.wdovr.toNat := by
  have hlast := s.status.last.isLt
  have hbusy := Bool.toNat_le s.status.busy
  have herr := Bool.toNat_le s.status.err
  have hini := Bool.toNat_le s.status.wdini
  have hlock := Bool.toNat_le (wdlock s)
  have hrdy := Bool.toNat_le s.status.wdrdy
  have hovr := Bool.toNat_le s.status.wdovr
  rw [statusWord, BitVec.toNat_ofNat]
  omega

/-- A bit of a word, as a digit of its value. -/
theorem getLsbD_of_toNat {w : Nat} (v : BitVec w) (k : Nat) (b : Bool) (h : v.toNat / 2 ^ k % 2 = b.toNat) :
    v.getLsbD k = b := by
  rw [← BitVec.testBit_toNat, Nat.testBit_eq_decide_div_mod_eq, h]
  cases b <;> rfl

/-- A bit field of a word, as digits of its value. -/
theorem extractLsb'_of_toNat {w n : Nat} (v : BitVec w) (k : Nat) (u : BitVec n) (h : v.toNat / 2 ^ k % 2 ^ n = u.toNat) :
    v.extractLsb' k n = u := by
  apply BitVec.eq_of_toNat_eq
  rw [BitVec.extractLsb'_toNat, Nat.shiftRight_eq_div_pow, h]

theorem wdlock_eq_true (s : State) : wdlock s = true ↔ s.wd.mode = .locked := by simp [wdlock]

end Sys2Proof.Machine
end

section
/-! SUPPORT. The statements on STATUS and on the state after reset. -/

namespace Sys2Proof.Proofs

open Sys2Proof Sys2Proof.Machine

/-- Settles O15: each field is a digit, or a row of digits, of the sum that STATUS is. -/
theorem statusFieldsAndInterruptLine : Obligations.StatusFieldsAndInterruptLine := by
  intro s
  have hword := statusWord_toNat s
  have hlast := s.status.last.isLt
  have hbusy := Bool.toNat_le s.status.busy
  have herr := Bool.toNat_le s.status.err
  have hini := Bool.toNat_le s.status.wdini
  have hlock := Bool.toNat_le (wdlock s)
  have hrdy := Bool.toNat_le s.status.wdrdy
  have hovr := Bool.toNat_le s.status.wdovr
  have busy : (statusWord s).getLsbD 0 = s.status.busy := getLsbD_of_toNat _ _ _ (by omega)
  have err : (statusWord s).getLsbD 1 = s.status.err := getLsbD_of_toNat _ _ _ (by omega)
  have last : (statusWord s).extractLsb' 2 4 = s.status.last := extractLsb'_of_toNat _ _ _ (by omega)
  have wdini : (statusWord s).getLsbD 6 = s.status.wdini := getLsbD_of_toNat _ _ _ (by omega)
  have lock : (statusWord s).getLsbD 7 = wdlock s := getLsbD_of_toNat _ _ _ (by omega)
  have wdrdy : (statusWord s).getLsbD 8 = s.status.wdrdy := getLsbD_of_toNat _ _ _ (by omega)
  have wdovr : (statusWord s).getLsbD 9 = s.status.wdovr := getLsbD_of_toNat _ _ _ (by omega)
  have zeros : (statusWord s).extractLsb' 10 6 = 0 := extractLsb'_of_toNat _ _ _ (by simp; omega)
  refine ⟨busy, err, last, wdini, ?_, wdrdy, wdovr, zeros, ?_⟩
  · rw [lock, wdlock_eq_true]
  · rw [err, wdrdy, irq]

/-- Settles O14: the buffers and the window are empty, and no error, session or lock asks anything more. -/
theorem invariantAtReset : Obligations.InvariantAtReset where
  zero := by decide
  idle := rfl
  tb := State.reset_wf.1
  sb := State.reset_wf.2
  lastCode := by decide
  kindCode := by decide
  acknowledged := fun _ => ⟨rfl, rfl, rfl, rfl, rfl⟩
  recorded := fun h => absurd h (by decide)
  lastRecorded := fun h => absurd rfl h
  noSession := fun _ => ⟨rfl, rfl, rfl, rfl⟩
  configured := fun h => absurd h (by decide)
  window := ⟨by decide, rfl, .nil, fun _ h => absurd h List.not_mem_nil⟩
  lock := fun h => absurd h (by decide)
  byteDecoder := by decide

/-- Settles O7: SRST's LAST <- 0 changes nothing of the reset STATUS, so its state is the one the `rst` port leaves. -/
theorem resetValues : Obligations.ResetValues := by
  have readX (r : Reg) : State.reset.readX r = 0 := by simp [State.readX, State.reset]
  refine ⟨fun s => ⟨s.resetMachine, rfl, rfl, rfl⟩, readX, rfl, rfl, rfl, rfl, rfl, rfl,
    fun k _ => TableFile.get_default k, rfl, rfl, fun _ => rfl, fun _ => rfl, ?_⟩
  repeat' constructor

end Sys2Proof.Proofs
end

section
/-! SUPPORT. Every well-formed command decodes from its own word (30_encoding.md R70 to R73). -/

namespace Sys2Proof

open Machine (sx raw sx_raw raw_lt)

/-! ### The fields of a word built from fields -/

@[simp] theorem regOf_val (r : Reg) : regOf r.val = r := Fin.ext (Nat.mod_eq_of_lt r.isLt)

theorem opcode_lt (i : Instr) : opcode i < 256 := by
  cases i <;> simp [opcode]

/-- The fields of a command word are those it was built with. -/
theorem fields_cmdWord (op : Nat) (rd ra rb : Reg) (imm : Nat) (hop : op < 256) (himm : imm < 4096) :
    Fields.ofWord (cmdWord op rd ra rb imm) = ⟨op, rd, ra, rb, imm⟩ := by
  have hrd : rd.val < 16 := rd.isLt
  have hra : ra.val < 16 := ra.isLt
  have hrb : rb.val < 16 := rb.isLt
  have hword : (cmdWord op rd ra rb imm).toNat = op + 256 * rd.val + 4096 * ra.val + 65536 * rb.val + 1048576 * imm := by
    rw [cmdWord, BitVec.toNat_ofNat]
    omega
  simp only [Fields.ofWord, regOf, hword, Fields.mk.injEq, Fin.ext_iff]
  omega

/-- Decoding a word built from an opcode and fields is decoding the fields. -/
theorem decode_cmdWord (i : Instr) (rd ra rb : Reg) (imm : Nat) (himm : imm < 4096) :
    decode (cmdWord (opcode i) rd ra rb imm) = decodeFields ⟨opcode i, rd, ra, rb, imm⟩ := by
  rw [decode, fields_cmdWord _ rd ra rb imm (opcode_lt i) himm]

/-- A command is answered when the fields it does not use are zero. -/
theorem unused_ok (fields : List Nat) (i j : Instr) (hzero : ∀ n ∈ fields, n = 0) (hij : i = j) : unused fields i = .ok j := by
  subst hij
  rw [unused, if_pos]
  simpa using hzero

/-! ### The sub-fields of IMM (30_encoding.md R73) -/

theorem bufBit_lt (b : Buf) : bufBit b < 4096 := by cases b <;> decide

theorem bufOf_bufBit_add (b : Buf) (off : Nat) (hoff : off < 2048) : bufOf ((bufBit b + off) / 2048) = b := by
  cases b
  · rw [bufBit, bufOf, if_pos (by omega)]
  · rw [bufBit, bufOf, if_neg (by omega)]

theorem bufBit_add_mod (b : Buf) (off : Nat) (hoff : off < 2048) : (bufBit b + off) % 2048 = off := by
  cases b <;> simp only [bufBit] <;> omega

theorem bufBit_mod (b : Buf) : bufBit b % 2048 = 0 := bufBit_add_mod b 0 (by decide)

theorem bufOf_bufBit (b : Buf) : bufOf (bufBit b / 2048) = b := bufOf_bufBit_add b 0 (by decide)

/-- The byte offset of LDB and STB beside the bit that selects the buffer: IMM[7:0], with IMM[10:8] zero. -/
theorem bufBit_add_off (b : Buf) (off : Nat) (hoff : off < 256) :
    (bufBit b + off) % 256 = off ∧ (bufBit b + off) / 256 % 8 = 0 ∧ bufBit b + off < 4096 := by
  cases b <;> simp only [bufBit] <;> omega

/-- The fields of IMM in FIX and UNFIX come back from it. -/
theorem fixImm_fields (bits : Nat) (sg : Bool) (hbits : bits < 64) :
    fixImm bits sg % 64 = bits ∧ decide (fixImm bits sg / 64 % 2 = 1) = sg ∧ fixImm bits sg / 128 = 0 ∧
      fixImm bits sg < 4096 := by
  cases sg <;> simp [fixImm] <;> omega

/-! ### The commands -/

/-- Every well-formed command decodes from its own word. -/
theorem decode_encode (i : Instr) (h : i.wellFormed = true) : decode (encode i) = .ok i := by
  cases i with
  | nop | clrerr | srst | stuff | unstuff | frgen | frchk | decode | tdef => rfl
  | li rd simm =>
    have hr : -2048 ≤ simm ∧ simm ≤ 2047 := by simpa [Instr.wellFormed] using h
    have hsx : sx (raw simm 12) 12 = simm := sx_raw simm 12 (by decide) (by omega) (by omega)
    rw [encode, decode_cmdWord _ _ _ _ _ (raw_lt simm 12)]
    exact unused_ok _ _ _ (by simp) (by rw [hsx])
  | mkdec rd ra e =>
    have hr : -128 ≤ e ∧ e ≤ 127 := by simpa [Instr.wellFormed] using h
    have hlt : raw e 8 < 256 := raw_lt e 8
    have hsx : sx (raw e 8) 8 = e := sx_raw e 8 (by decide) (by omega) (by omega)
    rw [encode, decode_cmdWord _ _ _ _ _ (by omega)]
    exact unused_ok _ _ _ (by simpa using hlt) (by simp only [Nat.mod_eq_of_lt hlt, hsx])
  | rdsr r sr | wrsr r sr =>
    have hsr : sr < 4096 := by simpa [Instr.wellFormed] using h
    rw [encode, decode_cmdWord _ _ _ _ _ hsr]
    exact unused_ok _ _ _ (by simp) rfl
  | clrb b | pushb r b | lenb r b =>
    rw [encode, decode_cmdWord _ _ _ _ _ (bufBit_lt b)]
    exact unused_ok _ _ _ (by simp [bufBit_mod]) (by simp only [bufOf_bufBit])
  | ldb r q b off | stb r q b off =>
    have hoff : off < 256 := by simpa [Instr.wellFormed] using h
    obtain ⟨hmod, hdiv, hlt⟩ := bufBit_add_off b off hoff
    rw [encode, decode_cmdWord _ _ _ _ _ hlt]
    exact unused_ok _ _ _ (by simp [hdiv]) (by simp only [bufOf_bufBit_add b off (by omega), hmod])
  | fix rd ra rb bits sg | unfix rd ra rb bits sg =>
    obtain ⟨hbits, hsg, hhigh, hlt⟩ := fixImm_fields bits sg (by simpa [Instr.wellFormed] using h)
    rw [encode, decode_cmdWord _ _ _ _ _ hlt]
    exact unused_ok _ _ _ (by simp [hhigh]) (by simp only [hbits, hsg])
  | f12enc rd ra | f12dec rd ra | d16enc rd ra | d16dec rd ra | s10 rd ra | qpack rd ra | qunpack rd ra
  | crc8 rd ra | crc16 rd ra | wdinit rd ra =>
    rw [encode, decode_cmdWord _ _ _ _ _ (by decide)]
    exact unused_ok _ _ _ (by simp) rfl
  | wdsamp rd ra rb =>
    rw [encode, decode_cmdWord _ _ _ _ _ (by decide)]
    exact unused_ok _ _ _ (by simp) rfl
  | wdgetb rd =>
    rw [encode, decode_cmdWord _ _ _ _ _ (by decide)]
    exact unused_ok _ _ _ (by simp) rfl
  | encode v =>
    have hv : v < 256 := by simpa [Instr.wellFormed] using h
    rw [encode, decode_cmdWord _ _ _ _ _ (by omega)]
    exact unused_ok _ _ _ (by simpa using hv) (by simp only [Nat.mod_eq_of_lt hv])
  | tget r fid | tset r fid =>
    have hfid : fid < 64 := by simpa [Instr.wellFormed] using h
    rw [encode, decode_cmdWord _ _ _ _ _ (by omega)]
    exact unused_ok _ _ _ (by simpa using hfid) (by simp only [Nat.mod_eq_of_lt hfid])

end Sys2Proof

namespace Sys2Proof.Proofs

open Sys2Proof Sys2Proof.Machine

/-- A step of the state with a word placed is the issue of that word. -/
theorem step_withFetchWord (s : State) (w : Word32) : step (s.withFetchWord 32 w.toNat) = issue w s := by
  have hw : BitVec.ofNat 32 (w.toNat % 2 ^ 32) = w := by simp [Nat.mod_eq_of_lt w.isLt]
  rw [State.withFetchWord, hw]
  rfl

/-- The issue of a command's own word runs the command. -/
theorem issue_encode (i : Instr) (s : State) (h : i.wellFormed = true) : issue (encode i) s = exec i s := by
  rw [issue, decode_encode i h]

/-- Settles O5: the command decodes from its own word, which the step issues. -/
theorem withFetchWordRunsCommand : Obligations.WithFetchWordRunsCommand := by
  intro i s h
  rw [step_withFetchWord, issue_encode i s h]

end Sys2Proof.Proofs
end

section
/-! SUPPORT. What a command can answer, said once for all commands: an error recorded in the state before it, or one of the
writes of `Writes` and then LAST 0. -/

namespace Sys2Proof.Machine

/-- `Writes s i u`: a command `i` that ends without a raise can have written `u` over `s`, before LAST is set. -/
inductive Writes (s : State) : Instr → State → Prop where
  /-- a register, or nothing at all -/
  | register (i : Instr) (rd : Reg) (v : Word) : Writes s i (s.writeX rd v)
  /-- WRSR: CTRL -/
  | ctrl (ra : Reg) (sr : Nat) (c : BitVec 2) : Writes s (.wrsr ra sr) { s with ctrl := c }
  /-- a codec command: a buffer, left as every command leaves one (10_state.md R33) -/
  | buffer (i : Instr) (hi : isCodec i = true) (b : Buf) (v : Buffer)
      (hv : (s.buf b).wf (bufCap b) = true → v.wf (bufCap b) = true) :
      Writes s i (s.setBuf b v)
  /-- a codec command: the table file -/
  | table (i : Instr) (hi : isCodec i = true) (g : TableFile) : Writes s i { s with f := g }
  /-- CLRERR: the acknowledgement of an error -/
  | ack : Writes s .clrerr s.ackError
  /-- SRST: every piece of state -/
  | reset : Writes s .srst s.resetMachine
  /-- WDINIT: the decoder's configuration -/
  | configuration (ra rb : Reg) (h : wdRefuses (s.readX ra) (s.readX rb) = false) :
      Writes s (.wdinit ra rb) { s with
        wd := wdConfigured (s.readX ra) (s.readX rb), bd := Bd.reset
        status := { s.status with wdini := true, wdrdy := false, wdovr := false } }
  /-- WDSAMP: a sample newer than the window -/
  | sample (rd ra rb : Reg) (v : Word) (hini : s.status.wdini = true) (hnew : stale s.wd (s.readX ra).toNat = false) :
      Writes s (.wdsamp rd ra rb)
        ((addSample s ⟨(s.readX ra).toNat, amplitude (s.readX rb)⟩).1.writeX rd v)
  /-- WDGETB: WDRDY and a register -/
  | takeByte (rd : Reg) (v : Word) :
      Writes s (.wdgetb rd) (State.writeX { s with status := { s.status with wdrdy := false } } rd v)

/-- What a command can answer (60_exceptions.md R284). -/
def Answers (s : State) (i : Instr) (t : State) : Prop := (∃ e, t = s.withError e) ∨ ∃ u, Writes s i u ∧ t = u.done

variable {s t : State} {i : Instr}

/-! ### Answers from what each command's own lemma says -/

theorem Answers.of_write {u : State} (hu : Writes s i u) (ht : t = u.done) : Answers s i t := .inr ⟨u, hu, ht⟩

theorem Answers.of_register {rd : Reg} (h : ∃ v, t = (s.writeX rd v).done) : Answers s i t :=
  h.elim fun v hv => .of_write (.register i rd v) hv

theorem Answers.of_error_or_register {rd : Reg} (h : (∃ e, t = s.withError e) ∨ ∃ v, t = (s.writeX rd v).done) :
    Answers s i t := h.elim .inl .of_register

theorem Answers.of_tb {v : Buffer} (hi : isCodec i = true)
    (hv : s.tb.wf Config.tbCap = true → v.wf Config.tbCap = true)
    (ht : t = State.done { s with tb := v }) : Answers s i t := .of_write (.buffer i hi .tb v hv) ht

theorem Answers.of_sb {v : Buffer} (hi : isCodec i = true)
    (hv : s.sb.wf Config.sbCap = true → v.wf Config.sbCap = true)
    (ht : t = State.done { s with sb := v }) : Answers s i t := .of_write (.buffer i hi .sb v hv) ht

/-! ### The body and the frame fit `TB` -/

theorem bodyLen_le (v : Nat) : Config.bodyLen v ≤ 43 := by unfold Config.bodyLen; split_ifs <;> omega

theorem frameLen_le (v : Nat) : Config.frameLen v ≤ Config.tbCap := by
  have hcrc : Config.crcw v ≤ 2 := by unfold Config.crcw; split_ifs <;> omega
  have hbody := bodyLen_le v
  show Config.bodyLen v + Config.crcw v ≤ 64
  omega

theorem checksumBytes_length (v : Nat) (m : Memory) : (checksumBytes v m).length = Config.crcw v := by
  unfold checksumBytes Config.crcw
  split <;> rfl

/-- A walk of the layout ROM that ends has put the bits of a whole body: its END pads to `BODYLEN(v)` (43_table_codec.md R175). -/
theorem encWalk_length {v : Nat} {f : TableFile} {fuel dpc : Nat} {bits out : List Bool}
    (h : encWalk v f fuel dpc bits = .ok out) : out.length = 8 * Config.bodyLen v := by
  induction fuel generalizing dpc bits with
  | zero => cases h
  | succ fuel ih =>
    rw [encWalk] at h
    split at h
    · cases h
    · unfold encEnd at h
      split at h <;> cases h
      rw [List.length_append, List.length_replicate]
      omega
    · split at h
      · cases h
      · exact ih h
    · split at h
      · cases h
      · exact ih h

/-- ENCODE writes a body of `BODYLEN(v)` bytes (43_table_codec.md R196). -/
theorem encodeBody_length {v : Nat} {f : TableFile} {body : List Byte} (h : encodeBody v f = .ok body) :
    body.length = Config.bodyLen v := by
  unfold encodeBody at h
  split at h
  · cases h
  · split at h
    · cases h
    · next a _ =>
      cases hw : encWalk v f Config.romWords a [] with
      | error e => rw [hw] at h; cases h
      | ok bits =>
        rw [hw] at h
        cases h
        exact bytesOfBits_length _ _ (encWalk_length hw)

/-! ### Every command -/

/-- A command records an error in the state before it, or makes its write and sets LAST 0. -/
theorem exec_answers (h : exec i s = .next t) : Answers s i t := by
  cases i with
  | nop => exact .of_write (.register .nop 0 0) (execNop_cases h)
  | clrerr => exact .of_write .ack (execClrerr_cases h)
  | srst => exact .of_write .reset (execSrst_cases h)
  | li rd simm => exact .of_register (execLi_cases h)
  | mkdec rd ra e => exact .of_error_or_register (execMkdec_cases h)
  | rdsr rd sr => exact .of_error_or_register (execRdsr_cases h)
  | wrsr ra sr => exact (execWrsr_cases h).imp_right fun ht => ⟨_, .ctrl ra sr _, ht⟩
  | clrb b => exact .of_write (.buffer _ rfl b _ fun _ => Buffer.empty_wf _) (execClrb_cases h)
  | pushb ra b =>
    refine (execPushb_cases h).imp_right fun ⟨hlen, ht⟩ => ⟨_, .buffer _ rfl b _ fun hb => ?_, ht⟩
    have hle := ((Buffer.wf_iff _ _).1 hb).2.1
    exact Buffer.append_wf _ _ _ hb (by omega)
  | ldb rd ra b off => exact .of_error_or_register (execLdb_cases h)
  | stb ra rb b off =>
    exact (execStb_cases h).imp_right fun ⟨hlt, ht⟩ =>
      ⟨_, .buffer _ rfl b _ fun hb => Buffer.overwrite_wf _ _ _ _ hb hlt, ht⟩
  | lenb rd b => exact .of_register (execLenb_cases h)
  | fix rd ra rb bits sg => exact .of_error_or_register (execFix_cases h)
  | unfix rd ra rb bits sg => exact .of_error_or_register (execUnfix_cases h)
  | f12enc rd ra => exact .of_error_or_register (execF12enc_cases h)
  | f12dec rd ra => exact .of_register (execF12dec_cases h)
  | d16enc rd ra => exact .of_error_or_register (execD16enc_cases h)
  | d16dec rd ra => exact .of_register (execD16dec_cases h)
  | s10 rd ra => exact .of_register (execS10_cases h)
  | qpack rd ra => exact .of_error_or_register (execQpack_cases h)
  | qunpack rd ra => exact .of_register (execQunpack_cases h)
  | stuff =>
    exact (execStuff_cases h).elim .inl fun ⟨out, hle, ht⟩ => .of_sb rfl (fun _ => Buffer.ofBytes_wf _ _ hle) ht
  | unstuff =>
    exact (execUnstuff_cases h).elim .inl fun ⟨out, hle, ht⟩ => .of_tb rfl (fun _ => Buffer.ofBytes_wf _ _ hle) ht
  | crc8 rd ra => exact .of_error_or_register (execCrc8_cases h)
  | crc16 rd ra => exact .of_error_or_register (execCrc16_cases h)
  | frgen =>
    refine (execFrgen_cases h).elim .inl fun ⟨v, hlen, ht⟩ => .of_tb rfl (fun hb => ?_) ht
    have hfit : s.tb.len + (checksumBytes v s.tb.mem).length ≤ Config.tbCap := by
      rw [hlen, checksumBytes_length]
      exact frameLen_le v
    have hwf := Buffer.extend_wf _ _ _ hb hfit
    rwa [checksumBytes_length, hlen] at hwf
  | frchk =>
    refine (execFrchk_cases h).elim .inl fun ⟨v, hle, ht⟩ => .of_tb rfl (fun hb => ?_) ht
    exact Buffer.truncate_wf _ _ _ hb (le_trans (Nat.le_add_right _ _) hle)
  | encode v =>
    refine (execEncode_cases h).elim (fun ⟨e, _, ht⟩ => .inl ⟨e, ht⟩) fun ⟨body, hbody, ht⟩ => .of_tb rfl (fun _ => ?_) ht
    have hle : body.length ≤ 43 := by rw [encodeBody_length hbody]; exact bodyLen_le v
    exact Buffer.ofBytes_wf _ _ (le_trans hle (by decide))
  | decode => exact (execDecode_cases h).imp_right fun ⟨g, ht⟩ => ⟨_, .table _ rfl g, ht⟩
  | tget rd fid => exact .of_error_or_register (execTget_cases h)
  | tset ra fid => exact (execTset_cases h).imp_right fun ⟨_, ht⟩ => ⟨_, .table _ rfl _, ht⟩
  | tdef => exact .of_write (.table _ rfl _) (execTdef_cases h)
  | wdinit ra rb => exact (execWdinit_cases h).imp_right fun ⟨hok, ht⟩ => ⟨_, .configuration ra rb hok, ht⟩
  | wdsamp rd ra rb =>
    obtain he | ⟨_, _, ht⟩ | ⟨hini, hnew, r, rfl, ht⟩ := execWdsamp_cases h
    · exact .inl he
    · exact .of_register ⟨_, ht⟩
    · exact .of_write (.sample rd ra rb _ hini hnew) ht
  | wdgetb rd => exact (execWdgetb_cases h).elim fun v ht => .of_write (.takeByte rd v) ht

/-! ### The error state (10_state.md R29) -/

/-- The error registers and ERR of `t` are those of `s`. -/
def SameErrors (s t : State) : Prop :=
  t.status.err = s.status.err ∧ t.errc = s.errc ∧ t.errinfo0 = s.errinfo0 ∧ t.errinfo1 = s.errinfo1 ∧ t.errinfo2 = s.errinfo2

/-- The error registers and ERR are zero. -/
def NoErrors (t : State) : Prop :=
  t.status.err = false ∧ t.errc = 0 ∧ t.errinfo0 = 0 ∧ t.errinfo1 = 0 ∧ t.errinfo2 = 0

theorem sameErrors_addSample (s : State) (x : Sample) : SameErrors s (addSample s x).1 := by
  rw [addSample_eq]
  exact ⟨rfl, rfl, rfl, rfl, rfl⟩

/-- What a command writes before LAST leaves the error state, but for CLRERR and SRST, which zero it. -/
theorem Writes.sameErrors_or {u : State} (h : Writes s i u) : SameErrors s u ∨ (i = .clrerr ∨ i = .srst) ∧ NoErrors u := by
  cases h with
  | register | takeByte => left; simp [SameErrors]
  | ctrl | table | configuration => exact .inl ⟨rfl, rfl, rfl, rfl, rfl⟩
  | buffer => left; simp [SameErrors]
  | sample => left; simpa [SameErrors] using sameErrors_addSample s _
  | ack => exact .inr ⟨.inl rfl, rfl, rfl, rfl, rfl, rfl⟩
  | reset => exact .inr ⟨.inr rfl, rfl, rfl, rfl, rfl, rfl⟩

end Sys2Proof.Machine

namespace Sys2Proof.Proofs

open Sys2Proof Sys2Proof.Machine

/-- Settles O10: LAST 0 rules out a raise, and of the writes only those of CLRERR and SRST touch the error state. -/
theorem succeedingCommandKeepsErrorRegisters : Obligations.SucceedingCommandKeepsErrorRegisters := by
  intro i s t h hlast
  obtain ⟨e, rfl⟩ | ⟨u, hu, rfl⟩ := exec_answers h
  · exact absurd hlast (errCode_ne_zero e.kind)
  · exact hu.sameErrors_or

end Sys2Proof.Proofs
end

section
/-! SUPPORT. The invariant `State.Inv`, write by write: registers, buffers, errors, a command's end, the host's moves. -/

namespace Sys2Proof.Machine

variable {s : State}

/-! ### Registers, buffers, the host's side -/

theorem State.Inv.writeX (h : s.Inv) (i : Reg) (v : Word) : (s.writeX i v).Inv := by
  rw [State.writeX_eq]
  exact { h with zero := (State.x_zero_writeX s i v).trans h.zero }

/-- A buffer as every command leaves one may replace another. -/
theorem State.Inv.setBuf (h : s.Inv) (b : Buf) (v : Buffer) (hv : (s.buf b).wf (bufCap b) = true → v.wf (bufCap b) = true) :
    (s.setBuf b v).Inv := by
  cases b with
  | tb => exact { h with tb := hv h.tb }
  | sb => exact { h with sb := hv h.sb }

theorem State.Inv.hostSide (h : s.Inv) (moves : List HostMove) (seen : List HostSeen) :
    { s with moves := moves, seen := seen }.Inv := { h with }

theorem State.resetMachine_inv (s : State) : s.resetMachine.Inv :=
  State.Inv.hostSide Proofs.invariantAtReset s.moves s.seen

/-! ### How a command ends (60_exceptions.md R284) -/

theorem zero_mem_kindCodes : 0 ∈ kindCodes := by decide

theorem errCode_mem (k : ErrKind) : errCode k ∈ kindCodes := by cases k <;> decide

/-- A raise records its kind in LAST and in `ERRC`. -/
theorem State.Inv.withError (h : s.Inv) (e : ErrData) : (s.withError e).Inv :=
  { h with
    idle := rfl
    lastCode := errCode_mem e.kind
    kindCode := (errcWord_kind e).symm ▸ errCode_mem e.kind
    acknowledged := fun herr => absurd herr (ne_false_of_eq_true rfl)
    recorded := fun _ hkind => errCode_ne_zero e.kind ((errcWord_kind e).symm.trans hkind)
    lastRecorded := fun _ => (errcWord_kind e).symm }

/-- LAST 0 is right whatever `ERRC` holds. -/
theorem State.Inv.done (h : s.Inv) : s.done.Inv :=
  { h with
    idle := rfl
    lastCode := zero_mem_kindCodes
    acknowledged := fun herr => ⟨rfl, (h.acknowledged herr).2⟩
    lastRecorded := fun hlast => absurd rfl hlast }

/-- An acknowledgement zeroes the error registers; the end of the command LAST. -/
theorem State.Inv.ackError_done (h : s.Inv) : s.ackError.done.Inv :=
  { h with
    idle := rfl
    lastCode := zero_mem_kindCodes
    kindCode := zero_mem_kindCodes
    acknowledged := fun _ => ⟨rfl, rfl, rfl, rfl, rfl⟩
    recorded := fun herr => absurd herr Bool.false_ne_true
    lastRecorded := fun hlast => absurd rfl hlast }

end Sys2Proof.Machine
end

section
/-! SUPPORT. The invariant under the waveform decoder's operations (44_waveform_decoder.md). -/

namespace Sys2Proof.Machine

variable {s : State}

/-! ### WDINIT and WDGETB -/

/-- The window length of a configuration that is not refused. -/
theorem wdRefuses_eq_false {fs tps : Word} (h : wdRefuses fs tps = false) :
    1 ≤ fs.toNat ∧ fs.toNat ≤ tps.toNat ∧ (9 * fs.toNat + 319) / 320 ≤ 4096 := by
  simp only [wdRefuses, Bool.or_eq_false_iff, decide_eq_false_iff_not, not_lt] at h
  exact ⟨h.1.1, h.1.2, h.2⟩

theorem byteDecoder_reset : Bd.reset.nbits ≤ 7 ∧ Bd.reset.run ≤ 7 ∧ Bd.reset.byte.toNat < 2 ^ Bd.reset.nbits := by decide

theorem State.Inv.configure (h : s.Inv) (fs tps : Word) (hok : wdRefuses fs tps = false) :
    { s with
      wd := wdConfigured fs tps, bd := Bd.reset
      status := { s.status with wdini := true, wdrdy := false, wdovr := false } }.Inv := by
  obtain ⟨hfs, htps, hw⟩ := wdRefuses_eq_false hok
  have hword : (wdConfigured fs tps).w.toNat = (9 * fs.toNat + 319) / 320 :=
    Nat.mod_eq_of_lt (lt_of_le_of_lt hw (by decide))
  have hmaxdur : 8 * tps.toNat / 320 = tps.toNat / 40 := by omega
  exact { h with
    noSession := fun hini => absurd hini (ne_false_of_eq_true rfl)
    configured := fun _ => ⟨hfs, htps, hword, hword ▸ hw, hmaxdur, rfl, rfl⟩
    window := ⟨Nat.zero_le _, rfl, .nil, fun _ hx => absurd hx List.not_mem_nil⟩
    lock := fun hlock => nomatch hlock
    byteDecoder := byteDecoder_reset }

/-- A byte waits only in a session, so taking it keeps a decoder that is as at reset. -/
theorem State.Inv.takeByte (h : s.Inv) : { s with status := { s.status with wdrdy := false } }.Inv :=
  { h with
    noSession := fun hini =>
      let ⟨hwd, hbd, _, hovr⟩ := h.noSession hini
      ⟨hwd, hbd, rfl, hovr⟩ }

/-! ### The window (10_state.md R37) -/

theorem amplitude_bounds (w : Word) : -2 ^ 31 ≤ amplitude w ∧ amplitude w < 2 ^ 31 := by
  rw [amplitude_eq]
  exact ⟨BitVec.le_toInt _, BitVec.toInt_lt⟩

/-- A sample that is newer than the window enters it. -/
theorem State.Inv.pushSample (h : s.Inv) (x : Sample) (hini : s.status.wdini = true)
    (hnew : ∀ y, s.wd.win.getLast? = some y → y.ts < x.ts) (hts : x.ts < 2 ^ 64)
    (hval : -2 ^ 31 ≤ x.val ∧ x.val < 2 ^ 31) : { s with wd := pushSample s.wd x }.Inv := by
  obtain ⟨hlen, hsum, hrising, hwidth⟩ := h.window
  have hw : 1 ≤ s.wd.w.toNat := by
    obtain ⟨hfs, -, hw, -⟩ := h.configured hini
    omega
  rw [pushSample_eq_windowed _ _ hsum]
  exact { h with
    noSession := fun hini' => absurd hini' (ne_false_of_eq_true hini)
    configured := h.configured
    window := ⟨windowAfter_length _ _ hlen hw, rfl, windowAfter_rising _ _ hrising hnew, fun y hy =>
      (mem_windowAfter hy).elim (fun hyx => hyx ▸ ⟨hts, hval⟩) (hwidth y)⟩
    lock := fun hlock => by
      obtain ⟨hini, hmin, hmax, htol, hstart, ⟨y, hy, hlast⟩, hmean⟩ := h.lock hlock
      exact ⟨hini, hmin, hmax, htol, hstart, ⟨x, windowAfter_getLast _ _, le_trans hlast (hnew y hy).le⟩, hmean⟩ }

/-! ### The ByteDecoder (10_state.md R39) -/

/-- The accumulator with a bit shifted in. -/
theorem shiftIn_toNat (byte : Byte) (b : Bool) (h : byte.toNat < 128) :
    (byte <<< 1 ||| (BitVec.ofBool b).setWidth 8).toNat = 2 * byte.toNat + b.toNat := by
  have hshift : (byte <<< 1).toNat = 2 * byte.toNat := by
    rw [BitVec.toNat_shiftLeft, Nat.shiftLeft_eq]
    omega
  have hbit : ((BitVec.ofBool b).setWidth 8).toNat = b.toNat := by cases b <;> rfl
  rw [BitVec.toNat_or, hshift, hbit]
  exact (Nat.two_pow_add_eq_or_of_lt (i := 1) (Bool.toNat_lt b) byte.toNat).symm

theorem addBit_byteDecoder (s : State) (b : Bool)
    (h : s.bd.nbits ≤ 7 ∧ s.bd.run ≤ 7 ∧ s.bd.byte.toNat < 2 ^ s.bd.nbits) :
    (addBit s b).1.bd.nbits ≤ 7 ∧ (addBit s b).1.bd.run ≤ 7 ∧
      (addBit s b).1.bd.byte.toNat < 2 ^ (addBit s b).1.bd.nbits := by
  obtain ⟨hnbits, hrun, hbyte⟩ := h
  have hrun' := destuffBit_run_le s.bd.run b hrun
  unfold addBit
  split
  · next run hd =>
    rw [hd] at hrun'
    exact ⟨hnbits, hrun', hbyte⟩
  · next run d hd =>
    rw [hd] at hrun'
    split
    · exact ⟨Nat.zero_le 7, hrun', Nat.one_pos⟩
    · next hne =>
      refine ⟨by show s.bd.nbits + 1 ≤ 7; omega, hrun', ?_⟩
      have hlt : s.bd.byte.toNat < 2 ^ 7 := lt_of_lt_of_le hbyte (Nat.pow_le_pow_right (by decide) hnbits)
      have hd := Bool.toNat_le d
      show (s.bd.byte <<< 1 ||| (BitVec.ofBool d).setWidth 8).toNat < 2 ^ (s.bd.nbits + 1)
      rw [shiftIn_toNat _ _ hlt, pow_succ]
      omega

/-- A bit delivered in a session. -/
theorem State.Inv.addBit (h : s.Inv) (b : Bool) (hini : s.status.wdini = true) : (addBit s b).1.Inv := by
  have hbd := addBit_byteDecoder s b h.byteDecoder
  rw [addBit_eq]
  exact { h with
    noSession := fun hini' => absurd hini' (ne_false_of_eq_true hini)
    byteDecoder := hbd }

/-! ### The locked step (44_waveform_decoder.md R234) -/

/-- The mode SEEK asks nothing of the lock. -/
theorem State.Inv.seek (h : s.Inv) (hini : s.status.wdini = true) : { s with wd := { s.wd with mode := .seek } }.Inv :=
  { h with
    noSession := fun hini' => absurd hini' (ne_false_of_eq_true hini)
    lock := fun hlock => nomatch hlock }

/-- An edge in LOCKED sets the polarity, the parity and the times of the cell and of the last edge, the two in order and no
later than the newest sample. -/
theorem State.Inv.edge (h : s.Inv) (hlock : s.wd.mode = .locked) (polarity parity skip : Bool) (start last : Nat)
    (hle : start ≤ last) {x : Sample} (hx : s.wd.win.getLast? = some x) (hlast : last ≤ x.ts) :
    { s with wd := { s.wd with
        prevpol := polarity, par := parity, skip := skip, start := start, last := last } }.Inv := by
  obtain ⟨hini, hmin, hmax, htol, -, -, hmean⟩ := h.lock hlock
  exact { h with
    noSession := fun hini' => absurd hini' (ne_false_of_eq_true hini)
    lock := fun _ => ⟨hini, hmin, hmax, htol, hle, ⟨x, hx, hlast⟩, hmean⟩ }

theorem State.Inv.loseLock (h : s.Inv) (hini : s.status.wdini = true) : (loseLock s).1.Inv := by
  obtain ⟨-, hs⟩ | ⟨-, hs⟩ := loseLock_cases s
  · rw [hs]
    exact h.seek hini
  · rw [hs]
    exact (h.addBit s.wd.par hini).seek (by rw [addBit_eq]; exact hini)

/-- The step of a sample that has entered the window. -/
theorem State.Inv.lockedStep (h : s.Inv) (hlock : s.wd.mode = .locked) {x : Sample} (hx : s.wd.win.getLast? = some x) :
    (lockedStep s x.ts x.val).1.Inv := by
  obtain ⟨hini, -, -, -, hstart, ⟨y, hy, hlast⟩, -⟩ := h.lock hlock
  have hyx : y = x := Option.some.inj (hy.symm.trans hx)
  have hnow : s.wd.start ≤ x.ts := le_trans hstart (hyx ▸ hlast)
  obtain ⟨-, hs⟩ | ⟨-, -, hs⟩ | ⟨-, -, -, hs⟩ | ⟨-, -, -, -, hs⟩ | ⟨-, -, -, -, hs⟩ := lockedStep_cases s x.ts x.val
  all_goals rw [hs]
  · exact h.loseLock hini
  · exact h
  · exact h.edge hlock _ _ s.wd.skip s.wd.start x.ts hnow hx le_rfl
  · exact h.edge hlock _ _ false x.ts x.ts le_rfl hx le_rfl
  · exact (h.edge hlock _ false s.wd.skip x.ts x.ts le_rfl hx le_rfl).addBit s.wd.par hini

/-! ### The crossings of a window (44_waveform_decoder.md R220) -/

theorem crossingsFrom_sublist (s : Int) (n : Nat) (p : Bool) (win : List Sample) :
    (crossingsFrom s n p win).Sublist (win.map Sample.ts) := by
  induction win generalizing p with
  | nil => exact .slnil
  | cons x rest ih =>
    rw [crossingsFrom]
    split
    · exact (ih _).cons _
    · exact (ih _).cons_cons _

/-- Crossings are times of samples of the window, in its order, and never the time of its first. -/
theorem crossings_sublist (s : Int) (n : Nat) (win : List Sample) :
    (crossings s n win).Sublist (win.tail.map Sample.ts) := by
  cases win with
  | nil => exact .slnil
  | cons x rest => exact crossingsFrom_sublist s n _ rest

/-! ### The start symbol (44_waveform_decoder.md R223) -/

/-- What is known of a lock: the crossings it was found on are the 16 newest of the window. -/
theorem seekScan_eq_some {wd : Wd} {d : LockData} (h : seekScan wd = some d) :
    ∃ c older, c.length = 16 ∧ c.Sublist (wd.win.tail.map Sample.ts) ∧
      startSymbol wd ((wd.win.head?.map Sample.ts).getD 0) c older = some d := by
  unfold seekScan at h
  split at h
  · simp only at h
    split at h
    · cases h
    · next hlen =>
      refine ⟨_, _, ?_, (List.drop_sublist _ _).trans (crossings_sublist _ _ _), h⟩
      simp only [Config.startZc] at hlen ⊢
      rw [List.length_drop]
      omega
  · cases h

/-- The data a start symbol commits passed the tests on the clock. -/
theorem startSymbol_eq_some {wd : Wd} {t0 : Nat} {c older : List Nat} {d : LockData}
    (h : startSymbol wd t0 c older = some d) :
    (c.getD 15 0 : Int) - c.getD 0 0 ≤ wd.maxdur ∧ (wd.pmin : Int) ≤ ((c.getD 14 0 : Int) - c.getD 0 0) / 7 ∧
      d.period = (((c.getD 14 0 : Int) - c.getD 0 0) / 7).toNat ∧
      d.tol = (max (((c.getD 14 0 : Int) - c.getD 0 0) / 7 / 4) wd.ts12).toNat ∧
      d.start = c.getD 14 0 ∧ d.last = c.getD 15 0 := by
  unfold startSymbol at h
  simp only at h
  split at h
  · next htests =>
    cases h
    exact ⟨htests.1, htests.2.1, rfl, rfl, rfl, rfl⟩
  · cases h

/-- The entries of a rising list rise with their places. -/
theorem getD_lt_getD {c : List Nat} (hc : c.Pairwise (· < ·)) {i j : Nat} (hij : i < j) (hj : j < c.length) :
    c.getD i 0 < c.getD j 0 := by
  rw [List.getD_eq_getElem c 0 (hij.trans hj), List.getD_eq_getElem c 0 hj]
  exact List.pairwise_iff_getElem.1 hc i j _ hj hij

/-- A lock in numbers: the crossings `c0 < c14 < c15` it rests on, the last at a sample of the window of at least 17. -/
theorem seekScan_spec {wd : Wd} {d : LockData} (h : seekScan wd = some d)
    (hrising : wd.win.Pairwise (fun x y => x.ts < y.ts)) :
    ∃ c0 : Nat, c0 ≤ d.start ∧ d.start ≤ d.last ∧ d.last - c0 ≤ wd.maxdur ∧ wd.pmin ≤ d.period ∧
      d.period = (d.start - c0) / 7 ∧ d.tol = max (d.period / 4) wd.ts12 ∧ (∃ y ∈ wd.win, y.ts = d.last) ∧
      16 < wd.win.length := by
  obtain ⟨c, older, hlen, hsub, hsym⟩ := seekScan_eq_some h
  obtain ⟨hdur, hmin, hperiod, htol, hstart, hlast⟩ := startSymbol_eq_some hsym
  have hc : c.Pairwise (· < ·) := by
    refine List.Pairwise.sublist (hsub.trans ((List.tail_sublist _).map _)) ?_
    exact List.pairwise_map.2 hrising
  have h0 : c.getD 0 0 < c.getD 14 0 := getD_lt_getD hc (by decide) (by omega)
  have h14 : c.getD 14 0 < c.getD 15 0 := getD_lt_getD hc (by decide) (by omega)
  have hmem : c.getD 15 0 ∈ wd.win.tail.map Sample.ts := by
    rw [List.getD_eq_getElem c 0 (by omega)]
    exact hsub.subset (List.getElem_mem _)
  obtain ⟨y, hy, hyts⟩ := List.mem_map.1 hmem
  have hwin : 16 < wd.win.length := by
    have := hsub.length_le
    rw [List.length_map, List.length_tail] at this
    omega
  rw [← hstart] at h0 h14 hperiod hmin htol
  rw [← hlast] at h14 hdur hyts
  refine ⟨c.getD 0 0, h0.le, h14.le, by omega, by omega, by omega, by omega, ⟨y, List.mem_of_mem_tail hy, hyts⟩, hwin⟩

/-- The sum of a window is within its length times the amplitude's width. -/
theorem natAbs_sum_le (win : List Sample) (h : ∀ x ∈ win, -2 ^ 31 ≤ x.val ∧ x.val < 2 ^ 31) :
    (win.map Sample.val).sum.natAbs ≤ win.length * 2 ^ 31 := by
  induction win with
  | nil => exact Nat.zero_le _
  | cons x rest ih =>
    have hx := h x List.mem_cons_self
    have hrest := ih fun y hy => h y (List.mem_cons_of_mem x hy)
    rw [List.map_cons, List.sum_cons, List.length_cons]
    omega

/-- No sample of a window of rising timestamps is newer than the last. -/
theorem le_getLast_of_rising {win : List Sample} (hrising : win.Pairwise (fun x y => x.ts < y.ts)) {y : Sample}
    (hy : y ∈ win) : ∃ z, win.getLast? = some z ∧ y.ts ≤ z.ts := by
  obtain rfl | ⟨init, z, rfl⟩ := List.eq_nil_or_concat' win
  · exact absurd hy List.not_mem_nil
  · refine ⟨z, by simp, ?_⟩
    obtain ⟨-, -, hlast⟩ := List.pairwise_append.1 hrising
    obtain hinit | hz := List.mem_append.1 hy
    · exact (hlast y hinit z (List.mem_singleton.2 rfl)).le
    · rw [List.mem_singleton.1 hz]

/-- A window long enough for a start symbol makes the tolerance's least value fit a word. -/
theorem ts12_lt {fs tps w ts12 : Nat} (htps : tps < 2 ^ 64) (hw : w = (9 * fs + 319) / 320) (hlong : 16 < w)
    (hts12 : ts12 = (6 * tps + (5 * fs - 1)) / (5 * fs)) : ts12 < 2 ^ 64 := by
  rw [hts12, Nat.div_lt_iff_lt_mul (by omega)]
  omega

theorem wordOfNat_toNat {n : Nat} (h : n < 2 ^ 64) : (wordOfNat n).toNat = n := Nat.mod_eq_of_lt h

/-- What a lock commits is the clock, the mean and the cell of its start symbol, and fits (44_waveform_decoder.md R233). -/
theorem State.Inv.acquireLock (h : s.Inv) (hini : s.status.wdini = true) {d : LockData} (hscan : seekScan s.wd = some d) :
    (acquireLock s d).Inv := by
  obtain ⟨hlen, hsum, hrising, hwidth⟩ := h.window
  obtain ⟨hfs, htps, hw, hwmax, hmaxdur, hts12, hpmin⟩ := h.configured hini
  obtain ⟨c0, h0, hstart, hdur, hmin, hperiod, htol, ⟨y, hy, hlast⟩, hlong⟩ := seekScan_spec hscan hrising
  obtain ⟨z, hz, hyz⟩ := le_getLast_of_rising hrising hy
  have hlast64 : d.last < 2 ^ 64 := hlast ▸ (hwidth y hy).1
  have hts64 := ts12_lt s.wd.tps.isLt hw (by omega) hts12
  have period_toNat : (wordOfNat d.period).toNat = d.period := wordOfNat_toNat (by omega)
  have tol_toNat : (wordOfNat d.tol).toNat = d.tol := wordOfNat_toNat (by omega)
  have hmin' : s.wd.pmin ≤ (wordOfNat d.period).toNat := by omega
  have hmax' : 7 * (wordOfNat d.period).toNat ≤ s.wd.maxdur := by omega
  have htol' : (wordOfNat d.tol).toNat = max ((wordOfNat d.period).toNat / 4) s.wd.ts12 := by
    rw [period_toNat, tol_toNat, htol]
  have hmean : s.wd.sum.natAbs ≤ s.wd.win.length * 2 ^ 31 := hsum ▸ natAbs_sum_le _ fun x hx => (hwidth x hx).2
  exact { h with
    noSession := fun hini' => absurd hini' (ne_false_of_eq_true hini)
    lock := fun _ => ⟨hini, hmin', hmax', htol', hstart, ⟨z, hz, hlast.symm.trans_le hyz⟩, hlong, hlen.trans hwmax, hmean⟩
    byteDecoder := byteDecoder_reset }

theorem State.Inv.seekStep (h : s.Inv) (hini : s.status.wdini = true) : (seekStep s).1.Inv := by
  obtain hs | ⟨d, hd, hs⟩ := seekStep_cases s
  · rw [hs]
    exact h
  · rw [hs]
    exact h.acquireLock hini hd

/-! ### WDSAMP (44_waveform_decoder.md R221) -/

/-- A sample newer than the window, into the window and through the step of the mode. -/
theorem State.Inv.addSample (h : s.Inv) (x : Sample) (hini : s.status.wdini = true) (hnew : stale s.wd x.ts = false)
    (hts : x.ts < 2 ^ 64) (hval : -2 ^ 31 ≤ x.val ∧ x.val < 2 ^ 31) : (addSample s x).1.Inv := by
  have hpush := h.pushSample x hini ((stale_eq_false s.wd x.ts).1 hnew) hts hval
  unfold Machine.addSample
  simp only
  split
  · exact hpush.seekStep hini
  · next hmode => exact hpush.lockedStep hmode (by rw [pushSample_win, windowAfter_getLast])

end Sys2Proof.Machine
end

section
/-! SUPPORT. The invariant over every command and every move of the host. -/

namespace Sys2Proof.Machine

variable {s t u : State} {i : Instr}

/-- What a command writes, and then LAST 0, keeps the invariant. -/
theorem State.Inv.writes_done (h : s.Inv) (hu : Writes s i u) : u.done.Inv := by
  cases hu with
  | register _ rd v => exact (h.writeX rd v).done
  | ctrl ra sr c => exact State.Inv.done { h with }
  | buffer _ hi b v hv => exact (h.setBuf b v hv).done
  | table _ hi g => exact State.Inv.done { h with }
  | ack => exact h.ackError_done
  | reset => exact s.resetMachine_inv.done
  | configuration ra rb hok => exact (h.configure _ _ hok).done
  | sample rd ra rb v hini hnew =>
    exact ((h.addSample _ hini hnew (s.readX ra).isLt (amplitude_bounds _)).writeX rd v).done
  | takeByte rd v => exact (h.takeByte.writeX rd v).done

theorem State.Inv.exec (h : s.Inv) (hstep : exec i s = .next t) : t.Inv := by
  obtain ⟨e, rfl⟩ | ⟨u, hu, rfl⟩ := exec_answers hstep
  · exact h.withError e
  · exact h.writes_done hu

theorem State.Inv.issue (h : s.Inv) (w : Word32) (hstep : issue w s = .next t) : t.Inv := by
  unfold Machine.issue at hstep
  split at hstep
  · exact h.exec hstep
  · rw [(raise_eq_next _ _ _).1 hstep]
    exact h.withError _

theorem State.Inv.hostMove (h : s.Inv) (m : HostMove) (hstep : hostMove m s = .next t) : t.Inv := by
  cases m with
  | reset =>
    cases hstep
    exact s.resetMachine_inv
  | writeX i v =>
    cases hstep
    exact h.writeX i v
  | readX i =>
    cases hstep
    exact h.hostSide _ _
  | issue w => exact h.issue w hstep
  | readStatus =>
    cases hstep
    exact h.hostSide _ _

end Sys2Proof.Machine

namespace Sys2Proof.Proofs

open Sys2Proof Sys2Proof.Machine

/-- Settles O13: a step takes a move of the host, and each move keeps the invariant; with none to take nothing changes. -/
theorem invariantKeptByEveryStep : Obligations.InvariantKeptByEveryStep := by
  intro s t h hstep
  unfold step at hstep
  split at hstep
  · cases hstep
    exact h
  · next m rest _ => exact (h.hostSide rest s.seen).hostMove m hstep

end Sys2Proof.Proofs
end

section
/-! SUPPORT. The codec's state and the waveform decoder's (20_memory.md R65): which of the two each command can write, and the
statements on what a command leaves unchanged. -/

namespace Sys2Proof.Machine

variable {s t u : State} {i : Instr}

/-! ### The two sides of the state (20_memory.md R65) -/

/-- The table file, the buffers and CTRL of `t` are those of `s`. -/
def SameCodec (s t : State) : Prop := t.f = s.f ∧ t.tb = s.tb ∧ t.sb = s.sb ∧ t.ctrl = s.ctrl

/-- The decoder, the ByteDecoder and their STATUS bits of `t` are those of `s`. -/
def SameDecoder (s t : State) : Prop :=
  t.wd = s.wd ∧ t.bd = s.bd ∧ t.status.wdini = s.status.wdini ∧ t.status.wdrdy = s.status.wdrdy ∧
    t.status.wdovr = s.status.wdovr

/-- The commands of the waveform decoder (44_waveform_decoder.md). -/
def isDecoder : Instr → Bool
  | .wdinit .. | .wdsamp .. | .wdgetb .. => true
  | _ => false

theorem isDecoder_of_isCodec (h : isCodec i = true) : isDecoder i = false := by
  cases i with
  | wdinit | wdsamp | wdgetb => cases h
  | _ => rfl

theorem sameCodec_withError (s : State) (e : ErrData) : SameCodec s (s.withError e) := ⟨rfl, rfl, rfl, rfl⟩

theorem sameDecoder_withError (s : State) (e : ErrData) : SameDecoder s (s.withError e) := ⟨rfl, rfl, rfl, rfl, rfl⟩

theorem sameCodec_addSample (s : State) (x : Sample) : SameCodec s (addSample s x).1 := by
  rw [addSample_eq]
  exact ⟨rfl, rfl, rfl, rfl⟩

/-- What a decoder command writes before LAST is none of the codec's. -/
theorem Writes.sameCodec (h : Writes s i u) (hi : isDecoder i = true) : SameCodec s u := by
  cases h with
  | register | takeByte => simp [SameCodec]
  | configuration => exact ⟨rfl, rfl, rfl, rfl⟩
  | sample => simpa [SameCodec] using sameCodec_addSample s _
  | buffer _ hcodec | table _ hcodec => rw [isDecoder_of_isCodec hcodec] at hi; cases hi
  | ctrl | ack | reset => cases hi

/-- What any other command but SRST writes before LAST is none of the decoder's. -/
theorem Writes.sameDecoder (h : Writes s i u) (hi : isDecoder i = false) (hsrst : i ≠ .srst) : SameDecoder s u := by
  cases h with
  | register | buffer => simp [SameDecoder]
  | ctrl | table | ack => exact ⟨rfl, rfl, rfl, rfl, rfl⟩
  | reset => exact absurd rfl hsrst
  | configuration | sample | takeByte => cases hi

theorem exec_sameCodec (h : exec i s = .next t) (hi : isDecoder i = true) : SameCodec s t := by
  obtain ⟨e, rfl⟩ | ⟨u, hu, rfl⟩ := exec_answers h
  · exact sameCodec_withError s e
  · exact hu.sameCodec hi

theorem exec_sameDecoder (h : exec i s = .next t) (hi : isDecoder i = false) (hsrst : i ≠ .srst) : SameDecoder s t := by
  obtain ⟨e, rfl⟩ | ⟨u, hu, rfl⟩ := exec_answers h
  · exact sameDecoder_withError s e
  · exact hu.sameDecoder hi hsrst

/-! ### A raise -/

/-- LAST 0 tells a command that ended without a raise from one that raised. -/
theorem exec_last_ne_zero (h : exec i s = .next t) (hlast : t.status.last ≠ 0) : ∃ e, t = s.withError e := by
  obtain he | ⟨u, _, rfl⟩ := exec_answers h
  · exact he
  · exact absurd rfl hlast

/-- A raise in an idle state writes the error state and nothing else. -/
theorem sameButErrors_withError (hidle : s.status.busy = false) (e : ErrData) : SameButErrors s (s.withError e) := by
  unfold SameButErrors State.withError Status.failure
  simp [hidle]

end Sys2Proof.Machine

namespace Sys2Proof.Proofs

open Sys2Proof Sys2Proof.Machine

/-- Settles O9: LAST not 0 means a raise, which writes only the error state, with the kind in LAST and in ERRC. -/
theorem failingCommandChangesOnlyErrorState : Obligations.FailingCommandChangesOnlyErrorState := by
  intro i s t hidle h hlast
  obtain ⟨e, rfl⟩ := exec_last_ne_zero h hlast
  exact ⟨sameButErrors_withError hidle e, rfl, errcWord_kind e⟩

/-- Settles O59: the decoder's commands write none of the codec's state, and the others, but for SRST, none of the decoder's. -/
theorem decoderAndCodecAreDisjoint : Obligations.DecoderAndCodecAreDisjoint := by
  intro i s t h
  cases i with
  | wdinit | wdsamp | wdgetb => exact exec_sameCodec h rfl
  | srst => trivial
  | _ => exact exec_sameDecoder h rfl nofun

end Sys2Proof.Proofs
end

section
/-! SUPPORT. What a codec command does, as a function of the registers it names, the table file and the buffers alone
(20_memory.md R65): a two-run lemma over every codec command. -/

namespace Sys2Proof.Machine

variable {s s' : State} {i : Instr}

/-! ### What a codec command reads and writes -/

/-- `s'` shows a codec command `i` what `s` does: the registers it names, the table file and the buffers. -/
structure SameView (i : Instr) (s s' : State) : Prop where
  reg : ∀ r ∈ registersOf i, s'.readX r = s.readX r
  f : s'.f = s.f
  buf : ∀ b, s'.buf b = s.buf b

theorem SameView.tb (h : SameView i s s') : s'.tb = s.tb := h.buf .tb

theorem SameView.sb (h : SameView i s s') : s'.sb = s.sb := h.buf .sb

/-- Replace the table file. -/
def State.setTable (s : State) (g : TableFile) : State := { s with f := g }

/-! A write under its name keeps its shape when the fields a command reads are rewritten from one run to the other: the proofs below
fold the writes first, then rewrite the reads. -/

theorem State.setTable_eq (s : State) (g : TableFile) : { s with f := g } = s.setTable g := rfl

theorem State.setBuf_tb_eq (s : State) (v : Buffer) : { s with tb := v } = s.setBuf .tb v := rfl

theorem State.setBuf_sb_eq (s : State) (v : Buffer) : { s with sb := v } = s.setBuf .sb v := rfl

/-- `w` is a write a codec command `i` can end with: a register it names, a buffer, or the table file. -/
inductive CodecWrite (i : Instr) : (State → State) → Prop where
  | register (rd : Reg) (v : Word) (hrd : rd ∈ registersOf i) : CodecWrite i fun s => s.writeX rd v
  | buffer (b : Buf) (v : Buffer) : CodecWrite i fun s => s.setBuf b v
  | table (g : TableFile) : CodecWrite i fun s => s.setTable g

/-- Two runs of a codec command `i`, from `s` and from `s'`, that do the same: one raise, one write, or one refusal. -/
inductive SameAnswer (i : Instr) (s s' : State) : Outcome → Outcome → Prop where
  | raise (e : ErrData) : SameAnswer i s s' (raise s e) (raise s' e)
  | complete (w : State → State) (hw : CodecWrite i w) : SameAnswer i s s' (complete (w s)) (complete (w s'))
  | refused (r : Refusal) : SameAnswer i s s' (.refused r) (.refused r)

theorem SameAnswer.register {rd : Reg} {v : Word} (hrd : rd ∈ registersOf i) :
    SameAnswer i s s' (Machine.complete (s.writeX rd v)) (Machine.complete (s'.writeX rd v)) := .complete _ (.register rd v hrd)

theorem SameAnswer.buffer (b : Buf) {v : Buffer} :
    SameAnswer i s s' (Machine.complete (s.setBuf b v)) (Machine.complete (s'.setBuf b v)) := .complete _ (.buffer b v)

theorem SameAnswer.table {g : TableFile} :
    SameAnswer i s s' (Machine.complete (s.setTable g)) (Machine.complete (s'.setTable g)) := .complete _ (.table g)

/-- Two runs that make the same test do the same when each branch does. -/
theorem SameAnswer.ite {c : Prop} [Decidable c] {a a' b b' : Outcome} (ha : SameAnswer i s s' a a')
    (hb : SameAnswer i s s' b b') : SameAnswer i s s' (if c then a else b) (if c then a' else b') := by
  split
  · exact ha
  · exact hb

/-! ### Every codec command -/

theorem execFix_sameAnswer {rd ra rb : Reg} {bits : Nat} {sg : Bool} (hrd : rd ∈ registersOf i)
    (ha : s'.readX ra = s.readX ra) (hb : s'.readX rb = s.readX rb) :
    SameAnswer i s s' (execFix rd ra rb bits sg s) (execFix rd ra rb bits sg s') := by
  simp only [execFix, ha, hb]
  split
  · exact .raise _
  · split
    · exact .raise _
    · exact .register hrd

theorem execUnstuff_sameAnswer (h : SameView i s s') : SameAnswer i s s' (execUnstuff s) (execUnstuff s') := by
  simp only [execUnstuff, State.setBuf_tb_eq]
  simp only [h.sb]
  split
  · exact .raise _
  · exact .ite (.raise _) (.ite (.raise _) (.buffer .tb))

theorem execEncode_sameAnswer {v : Nat} (h : SameView i s s') : SameAnswer i s s' (execEncode v s) (execEncode v s') := by
  simp only [execEncode, State.setBuf_tb_eq]
  simp only [h.f]
  split
  · exact .buffer .tb
  · exact .raise _
  · exact .refused _

theorem execDecode_sameAnswer (h : SameView i s s') : SameAnswer i s s' (execDecode s) (execDecode s') := by
  simp only [execDecode, State.setTable_eq]
  simp only [h.tb]
  refine .ite (.raise _) (.ite (.raise _) (.ite (.raise _) ?_))
  split
  · exact .table
  · exact .raise _
  · exact .refused _

/-- A codec command does the same from two states that agree on the registers it names, the table file and the buffers. -/
theorem exec_sameAnswer (hi : isCodec i = true) (h : SameView i s s') : SameAnswer i s s' (exec i s) (exec i s') := by
  cases i with
  | nop | clrerr | srst | li | mkdec | rdsr | wrsr | wdinit | wdsamp | wdgetb => cases hi
  | clrb b => exact .buffer b
  | pushb ra b =>
    simp only [exec, execPushb, h.reg ra (.head _), h.buf]
    exact .ite (.raise _) (.buffer b)
  | ldb rd ra b off =>
    simp only [exec, execLdb, bufIndex, h.reg ra (.tail _ (.head _)), h.buf]
    exact .ite (.raise _) (.register (.head _))
  | stb ra rb b off =>
    simp only [exec, execStb, bufIndex, h.reg ra (.head _), h.reg rb (.tail _ (.head _)), h.buf]
    exact .ite (.raise _) (.buffer b)
  | lenb rd b =>
    simp only [exec, execLenb, h.buf]
    exact .register (.head _)
  | fix rd ra rb bits sg =>
    exact execFix_sameAnswer (.head _) (h.reg ra (.tail _ (.head _))) (h.reg rb (.tail _ (.tail _ (.head _))))
  | unfix rd ra rb bits sg =>
    simp only [exec, execUnfix, h.reg ra (.tail _ (.head _)), h.reg rb (.tail _ (.tail _ (.head _)))]
    split
    · exact .raise _
    · exact .register (.head _)
  | f12enc rd ra =>
    simp only [exec, execF12enc, h.reg ra (.tail _ (.head _))]
    split
    · exact .raise _
    · exact .register (.head _)
  | f12dec rd ra =>
    simp only [exec, execF12dec, h.reg ra (.tail _ (.head _))]
    exact .register (.head _)
  | d16enc rd ra =>
    simp only [exec, execD16enc, h.reg ra (.tail _ (.head _))]
    split
    · exact .raise _
    · exact .register (.head _)
  | d16dec rd ra =>
    simp only [exec, execD16dec, h.reg ra (.tail _ (.head _))]
    exact .register (.head _)
  | s10 rd ra =>
    simp only [exec, execS10, h.reg ra (.tail _ (.head _))]
    exact .register (.head _)
  | qpack rd ra =>
    simp only [exec, execQpack, h.reg ra (.tail _ (.head _))]
    split
    · exact .raise _
    · exact .register (.head _)
  | qunpack rd ra =>
    simp only [exec, execQunpack, h.reg ra (.tail _ (.head _))]
    exact .register (.head _)
  | stuff =>
    simp only [exec, execStuff, State.setBuf_sb_eq]
    simp only [h.tb]
    exact .ite (.raise _) (.buffer .sb)
  | unstuff => exact execUnstuff_sameAnswer h
  | crc8 rd ra =>
    simp only [exec, execCrc8, h.reg ra (.tail _ (.head _)), h.tb]
    exact .ite (.raise _) (.register (.head _))
  | crc16 rd ra =>
    simp only [exec, execCrc16, h.reg ra (.tail _ (.head _)), h.tb]
    exact .ite (.raise _) (.register (.head _))
  | frgen =>
    simp only [exec, execFrgen, State.setBuf_tb_eq]
    simp only [h.tb]
    exact .ite (.raise _) (.ite (.raise _) (.ite (.raise _) (.buffer .tb)))
  | frchk =>
    simp only [exec, execFrchk, State.setBuf_tb_eq]
    simp only [h.tb]
    exact .ite (.raise _) (.ite (.raise _) (.ite (.raise _) (.ite (.raise _) (.buffer .tb))))
  | encode v => exact execEncode_sameAnswer h
  | decode => exact execDecode_sameAnswer h
  | tget rd fid =>
    simp only [exec, execTget, h.f]
    exact .ite (.raise _) (.register (.head _))
  | tset ra fid =>
    simp only [exec, execTset, State.setTable_eq]
    simp only [h.reg ra (.head _), h.f]
    exact .ite (.raise _) .table
  | tdef => exact .table

end Sys2Proof.Machine
end

section
/-! SUPPORT. What WDSAMP does, as a function of the two registers it reads and the decoder's state alone (20_memory.md R65). -/

namespace Sys2Proof.Machine

variable {s s' t : State}

/-! ### The decoder's state put into another state -/

/-- `s` with the decoder, the ByteDecoder and their STATUS bits of `d`. -/
def State.withDecoder (s d : State) : State :=
  { s with
    wd := d.wd, bd := d.bd
    status := { s.status with wdini := d.status.wdini, wdrdy := d.status.wdrdy, wdovr := d.status.wdovr } }

@[simp] theorem State.wd_withDecoder (s d : State) : (s.withDecoder d).wd = d.wd := rfl
@[simp] theorem State.bd_withDecoder (s d : State) : (s.withDecoder d).bd = d.bd := rfl
@[simp] theorem State.f_withDecoder (s d : State) : (s.withDecoder d).f = s.f := rfl
@[simp] theorem State.buf_withDecoder (s d : State) (b : Buf) : (s.withDecoder d).buf b = s.buf b := by cases b <;> rfl
@[simp] theorem State.readX_withDecoder (s d : State) (r : Reg) : (s.withDecoder d).readX r = s.readX r := rfl

/-- A state with the decoder it has already is itself. -/
theorem SameDecoder.withDecoder (h : SameDecoder s s') : s'.withDecoder s = s' := by
  obtain ⟨hwd, hbd, hini, hrdy, hovr⟩ := h
  simp only [State.withDecoder, ← hwd, ← hbd, ← hini, ← hrdy, ← hovr]

/-- What a step of the decoder gave, with its state put into `s`. -/
def resultIn (s : State) (r : State × SampleResult) : State × SampleResult := (s.withDecoder r.1, r.2)

theorem resultIn_ite (s : State) (c : Prop) [Decidable c] (a b : State × SampleResult) :
    resultIn s (if c then a else b) = if c then resultIn s a else resultIn s b := apply_ite _ _ _ _

/-! ### Each step of the decoder works on the decoder's state alone -/

theorem addBit_withDecoder (s d : State) (b : Bool) : addBit (s.withDecoder d) b = resultIn s (addBit d b) := by
  simp only [addBit, State.bd_withDecoder]
  rcases destuffBit d.bd.run b with ⟨run, _ | bit⟩
  · rfl
  · simp only [resultIn_ite]
    exact if_congr .rfl rfl rfl

theorem seekStep_withDecoder (s d : State) : seekStep (s.withDecoder d) = resultIn s (seekStep d) := by
  simp only [seekStep, State.wd_withDecoder]
  cases seekScan d.wd with
  | none => rfl
  | some l => rfl

theorem loseLock_withDecoder (s d : State) : loseLock (s.withDecoder d) = resultIn s (loseLock d) := by
  simp only [loseLock, State.wd_withDecoder, addBit_withDecoder]
  split <;> rfl

theorem lockedStep_withDecoder (s d : State) (ts : Nat) (a : Int) :
    lockedStep (s.withDecoder d) ts a = resultIn s (lockedStep d ts a) := by
  simp only [lockedStep, State.wd_withDecoder, resultIn_ite]
  exact if_congr .rfl (loseLock_withDecoder s d)
    (if_congr .rfl rfl (if_congr .rfl rfl (if_congr .rfl rfl (addBit_withDecoder s
      { d with wd := { d.wd with prevpol := pol a d.wd.lsum d.wd.lcnt, last := ts, start := ts, par := false } } _))))

theorem addSample_withDecoder (s d : State) (x : Sample) : addSample (s.withDecoder d) x = resultIn s (addSample d x) := by
  simp only [addSample, State.wd_withDecoder, pushSample_mode]
  cases d.wd.mode with
  | seek => exact seekStep_withDecoder s { d with wd := pushSample d.wd x }
  | locked => exact lockedStep_withDecoder s { d with wd := pushSample d.wd x } _ _

/-! ### WDSAMP -/

/-- A WDSAMP that ends without a raise puts a decoder state and a value into its state: the same into every state that agrees on
the decoder and the two registers it reads. -/
theorem execWdsamp_local {rd ra rb : Reg} (h : exec (.wdsamp rd ra rb) s = .next t) (hlast : t.status.last = 0) :
    ∃ d v, ∀ s', SameDecoder s s' → s'.readX ra = s.readX ra → s'.readX rb = s.readX rb →
      exec (.wdsamp rd ra rb) s' = .next ((s'.withDecoder d).writeX rd v).done := by
  obtain ⟨e, rfl⟩ | ⟨hini, hstale, -⟩ | ⟨hini, hnew, -⟩ := execWdsamp_cases h
  · exact absurd hlast (errCode_ne_zero e.kind)
  · refine ⟨s, 0, fun s' hd ha hb => ?_⟩
    obtain ⟨hwd, -, hini', -⟩ := id hd
    simp only [exec, execWdsamp, ha, hwd, hini', hini, hstale, hd.withDecoder]
    rfl
  · refine ⟨(addSample s ⟨(s.readX ra).toNat, amplitude (s.readX rb)⟩).1,
      (addSample s ⟨(s.readX ra).toNat, amplitude (s.readX rb)⟩).2.word, fun s' hd ha hb => ?_⟩
    have hadd := addSample_withDecoder s' s ⟨(s.readX ra).toNat, amplitude (s.readX rb)⟩
    rw [hd.withDecoder] at hadd
    obtain ⟨hwd, -, hini', -⟩ := hd
    simp only [exec, execWdsamp, ha, hb, hwd, hini', hini, hnew, hadd]
    rfl

end Sys2Proof.Machine
end

section
/-! SUPPORT. The writes of a WDSAMP and of a codec command commute, and so do the commands (20_memory.md R65). -/

namespace Sys2Proof.Machine

variable {s s' u : State} {i : Instr} {w : State → State}

/-! ### Register writes -/

theorem State.readX_writeX_ne {r rd : Reg} (s : State) (v : Word) (h : r ≠ rd) : (s.writeX rd v).readX r = s.readX r := by
  rw [State.readX_writeX, if_neg h]
  split
  · next hr => rw [hr, State.readX_zero]
  · rfl

theorem State.writeX_comm {r rd : Reg} (s : State) (v x : Word) (h : r ≠ rd) :
    (s.writeX rd x).writeX r v = (s.writeX r v).writeX rd x := by
  unfold State.writeX
  split
  · rfl
  · split
    · rfl
    · simp only [Vector.set_comm x v (Fin.val_ne_of_ne h.symm)]

theorem State.writeX_done (s : State) (rd : Reg) (v : Word) : s.done.writeX rd v = (s.writeX rd v).done := by
  unfold State.writeX
  split <;> rfl

theorem State.withDecoder_writeX (s d : State) (rd : Reg) (v : Word) :
    (s.writeX rd v).withDecoder d = (s.withDecoder d).writeX rd v := by
  unfold State.writeX
  split <;> rfl

theorem State.withDecoder_done (s d : State) : s.done.withDecoder d = (s.withDecoder d).done := rfl

/-! ### The writes of a codec command -/

/-- It writes no register the command does not name. -/
theorem CodecWrite.readX (hw : CodecWrite i w) (s : State) {r : Reg} (hr : r ∉ registersOf i) :
    (w s).readX r = s.readX r := by
  cases hw with
  | register rd v hrd => exact State.readX_writeX_ne s v fun e => hr (e ▸ hrd)
  | buffer b v => exact State.readX_setBuf s b v r
  | table g => rfl

/-- It commutes with a write to such a register. -/
theorem CodecWrite.writeX (hw : CodecWrite i w) (s : State) {rd : Reg} (v : Word) (hrd : rd ∉ registersOf i) :
    w (s.writeX rd v) = (w s).writeX rd v := by
  cases hw with
  | register r x hr => exact State.writeX_comm s x v fun e => hrd (e ▸ hr)
  | buffer b x =>
    unfold State.writeX
    cases b <;> split <;> rfl
  | table g =>
    unfold State.writeX
    split <;> rfl

/-- It commutes with a change of the decoder's state. -/
theorem CodecWrite.withDecoder (hw : CodecWrite i w) (s d : State) : w (s.withDecoder d) = (w s).withDecoder d := by
  cases hw with
  | register rd v => exact (State.withDecoder_writeX s d rd v).symm
  | buffer b v => cases b <;> rfl
  | table g => rfl

/-- It commutes with the end of a command. -/
theorem CodecWrite.done (hw : CodecWrite i w) (s : State) : w s.done = (w s).done := by
  cases hw with
  | register rd v => exact State.writeX_done s rd v
  | buffer b v => cases b <;> rfl
  | table g => rfl

/-! ### The two commands -/

/-- A codec command sees nothing of what a WDSAMP writes. -/
theorem sameView_sampled (s d : State) {rd : Reg} (v : Word) (hrd : rd ∉ registersOf i) :
    SameView i s ((s.withDecoder d).writeX rd v).done where
  reg r hr := by
    have hne : r ≠ rd := fun e => hrd (e ▸ hr)
    simp [State.readX_writeX_ne _ _ hne]
  f := by simp
  buf b := by simp

/-- The state is the same whichever of a WDSAMP and a codec command wrote first. -/
theorem CodecWrite.sampled_comm (hw : CodecWrite i w) (s d : State) {rd : Reg} (v : Word) (hrd : rd ∉ registersOf i) :
    (((w s).done.withDecoder d).writeX rd v).done = (w ((s.withDecoder d).writeX rd v).done).done := by
  rw [hw.done, hw.writeX _ _ hrd, hw.withDecoder, State.withDecoder_done, State.writeX_done]

/-- Where the second of two runs that do the same ends without a raise, the first does, with the same write. -/
theorem SameAnswer.exists_write {o : Outcome} (h : SameAnswer i s s' o (.next u)) (hlast : u.status.last = 0) :
    ∃ w, CodecWrite i w ∧ o = .next (w s).done ∧ u = (w s').done := by
  generalize ho : Host.Outcome.next u = o' at h
  cases h with
  | raise e =>
    rw [(raise_eq_next _ _ _).1 ho.symm] at hlast
    exact absurd hlast (errCode_ne_zero e.kind)
  | complete w hw => exact ⟨w, hw, rfl, (complete_eq_next _ _).1 ho.symm⟩
  | refused r => cases ho

end Sys2Proof.Machine

namespace Sys2Proof.Proofs

open Sys2Proof Sys2Proof.Machine

/-- Settles O60: the codec command sees nothing of what the WDSAMP wrote and so makes the same write before it, the WDSAMP sees
nothing of that write and so makes its own after it, and the two writes commute. -/
theorem wdsampCommutesWithCodecCommands : Obligations.WdsampCommutesWithCodecCommands := by
  intro rd ra rb i s t u hi hregs hsamp htlast hcodec hulast
  have hother (r : Reg) (hr : r ∈ [rd, ra, rb]) : r ∉ registersOf i := fun h => hregs r h hr
  have hrd : rd ∉ registersOf i := hother rd (by simp)
  obtain ⟨d, v, hsampled⟩ := execWdsamp_local hsamp htlast
  have ht : t = ((s.withDecoder d).writeX rd v).done :=
    Host.Outcome.next.inj (hsamp.symm.trans (hsampled s ⟨rfl, rfl, rfl, rfl, rfl⟩ rfl rfl))
  have hsame := exec_sameAnswer hi (sameView_sampled s d v hrd)
  rw [← ht, hcodec] at hsame
  obtain ⟨w, hw, hfirst, rfl⟩ := hsame.exists_write hulast
  refine ⟨(w s).done, hfirst, rfl, ?_⟩
  have hdecoder : SameDecoder s (w s).done :=
    exec_sameDecoder hfirst (isDecoder_of_isCodec hi) fun hsrst => by rw [hsrst] at hi; cases hi
  rw [hsampled _ hdecoder (hw.readX s (hother ra (by simp))) (hw.readX s (hother rb (by simp))),
    hw.sampled_comm s d v hrd, ht]

end Sys2Proof.Proofs
end

section
/-! SUPPORT. Only a command's own word decodes to it (30_encoding.md R70 to R73), and what a step does with an issued word. -/

namespace Sys2Proof

open Machine (sx raw raw_sx)

variable {i j : Instr} {rd ra rb : Reg} {imm : Nat}

/-! ### A word as its fields -/

/-- A word is the one its fields give. -/
theorem cmdWord_fields (w : Word32) :
    cmdWord (Fields.ofWord w).op (Fields.ofWord w).rd (Fields.ofWord w).ra (Fields.ofWord w).rb (Fields.ofWord w).imm = w := by
  apply BitVec.eq_of_toNat_eq
  have hlt : w.toNat < 2 ^ 32 := w.isLt
  rw [cmdWord, BitVec.toNat_ofNat]
  simp only [Fields.ofWord, regOf]
  omega

theorem ofWord_imm_lt (w : Word32) : (Fields.ofWord w).imm < 4096 := by
  have hlt : w.toNat < 2 ^ 32 := w.isLt
  simp only [Fields.ofWord]
  omega

/-- A command that is answered is the row's, and the fields it does not use are zero. -/
theorem eq_of_unused_ok {fields : List Nat} (h : unused fields i = .ok j) : i = j ∧ ∀ n ∈ fields, n = 0 := by
  unfold unused at h
  split at h
  · next hzero => exact ⟨Except.ok.inj h, by simpa using hzero⟩
  · cases h

/-- A row of the opcode map answers only commands of its own opcode. -/
theorem op_of_decodeFields {f : Fields} (h : decodeFields f = .ok i) : f.op = opcode i := by
  unfold decodeFields at h
  split at h
  case h_36 => cases h
  all_goals
    next hop =>
      obtain ⟨rfl, -⟩ := eq_of_unused_ok h
      exact hop

/-! ### IMM from its sub-fields (30_encoding.md R73) -/

theorem bufBit_bufOf (himm : imm < 4096) : bufBit (bufOf (imm / 2048)) + imm % 2048 = imm := by
  unfold bufOf
  split <;> simp only [bufBit] <;> omega

theorem bufBit_bufOf_of_mod (himm : imm < 4096) (hmod : imm % 2048 = 0) : bufBit (bufOf (imm / 2048)) = imm := by
  simpa [hmod] using bufBit_bufOf himm

/-- LDB and STB: with IMM[10:8] zero, the buffer bit and the byte offset are all of IMM. -/
theorem bufBit_bufOf_add_off (himm : imm < 4096) (hmid : imm / 256 % 8 = 0) :
    bufBit (bufOf (imm / 2048)) + imm % 256 = imm := by
  have hoff : imm % 2048 = imm % 256 := by omega
  simpa [hoff] using bufBit_bufOf himm

/-- FIX and UNFIX: with IMM[11:7] zero, the sign bit and the width are all of IMM. -/
theorem fixImm_of_fields (hhigh : imm / 128 = 0) : fixImm (imm % 64) (decide (imm / 64 % 2 = 1)) = imm := by
  rcases Nat.mod_two_eq_zero_or_one (imm / 64) with hbit | hbit <;> simp [fixImm, hbit] <;> omega

/-- A two's complement pattern stands for an integer of its width. -/
theorem sx_bounds {r w : Nat} (hw : 0 < w) (h : r < 2 ^ w) : -2 ^ (w - 1) ≤ sx r w ∧ sx r w < 2 ^ (w - 1) := by
  have hpow : (2 : Int) ^ w = 2 * 2 ^ (w - 1) := by rw [← pow_succ']; congr 1; omega
  unfold sx
  zify at h
  split <;> rename_i hsign <;> zify at hsign <;> omega

/-! ### The commands -/

/-- A command its own row answers is well formed, and the fields are those of its word: in every case the operands are the
row's sub-fields and the fields `hz` lists are zero. -/
theorem encode_of_decodeFields (himm : imm < 4096) (h : decodeFields ⟨opcode i, rd, ra, rb, imm⟩ = .ok i) :
    i.wellFormed = true ∧ encode i = cmdWord (opcode i) rd ra rb imm := by
  cases i with (dsimp only [decodeFields, opcode] at h; obtain ⟨⟨⟩, hz⟩ := eq_of_unused_ok h)
  | nop | clrerr | srst | stuff | unstuff | frgen | frchk | decode | tdef =>
    obtain ⟨rfl, rfl, rfl, rfl⟩ : rd = 0 ∧ ra = 0 ∧ rb = 0 ∧ imm = 0 := by simpa using hz
    exact ⟨rfl, rfl⟩
  | li =>
    obtain ⟨rfl, rfl⟩ : ra = 0 ∧ rb = 0 := by simpa using hz
    refine ⟨decide_eq_true ?_, ?_⟩
    · have := sx_bounds (r := imm) (w := 12) (by decide) himm
      omega
    · rw [encode, raw_sx _ 12 (by decide) himm]
  | mkdec =>
    obtain ⟨rfl, hhigh⟩ : rb = 0 ∧ imm < 256 := by simpa using hz
    rw [Nat.mod_eq_of_lt hhigh]
    refine ⟨decide_eq_true ?_, ?_⟩
    · have := sx_bounds (r := imm) (w := 8) (by decide) hhigh
      omega
    · rw [encode, raw_sx _ 8 (by decide) hhigh]
  | rdsr =>
    obtain ⟨rfl, rfl⟩ : ra = 0 ∧ rb = 0 := by simpa using hz
    exact ⟨decide_eq_true himm, rfl⟩
  | wrsr =>
    obtain ⟨rfl, rfl⟩ : rd = 0 ∧ rb = 0 := by simpa using hz
    exact ⟨decide_eq_true himm, rfl⟩
  | clrb =>
    obtain ⟨rfl, rfl, rfl, hlow⟩ : rd = 0 ∧ ra = 0 ∧ rb = 0 ∧ imm % 2048 = 0 := by simpa using hz
    exact ⟨rfl, by rw [encode, bufBit_bufOf_of_mod himm hlow]⟩
  | pushb =>
    obtain ⟨rfl, rfl, hlow⟩ : rd = 0 ∧ rb = 0 ∧ imm % 2048 = 0 := by simpa using hz
    exact ⟨rfl, by rw [encode, bufBit_bufOf_of_mod himm hlow]⟩
  | lenb =>
    obtain ⟨rfl, rfl, hlow⟩ : ra = 0 ∧ rb = 0 ∧ imm % 2048 = 0 := by simpa using hz
    exact ⟨rfl, by rw [encode, bufBit_bufOf_of_mod himm hlow]⟩
  | ldb =>
    obtain ⟨rfl, hmid⟩ : rb = 0 ∧ imm / 256 % 8 = 0 := by simpa using hz
    exact ⟨decide_eq_true (by omega), by rw [encode, bufBit_bufOf_add_off himm hmid]⟩
  | stb =>
    obtain ⟨rfl, hmid⟩ : rd = 0 ∧ imm / 256 % 8 = 0 := by simpa using hz
    exact ⟨decide_eq_true (by omega), by rw [encode, bufBit_bufOf_add_off himm hmid]⟩
  | fix | unfix =>
    have hhigh : imm / 128 = 0 := hz _ (by simp)
    exact ⟨decide_eq_true (by omega), by rw [encode, fixImm_of_fields hhigh]⟩
  | f12enc | f12dec | d16enc | d16dec | s10 | qpack | qunpack | crc8 | crc16 =>
    obtain ⟨rfl, rfl⟩ : rb = 0 ∧ imm = 0 := by simpa using hz
    exact ⟨rfl, rfl⟩
  | encode =>
    obtain ⟨rfl, rfl, rfl, hhigh⟩ : rd = 0 ∧ ra = 0 ∧ rb = 0 ∧ imm < 256 := by simpa using hz
    rw [Nat.mod_eq_of_lt hhigh]
    exact ⟨decide_eq_true hhigh, rfl⟩
  | tget =>
    obtain ⟨rfl, rfl, hhigh⟩ : ra = 0 ∧ rb = 0 ∧ imm < 64 := by simpa using hz
    rw [Nat.mod_eq_of_lt hhigh]
    exact ⟨decide_eq_true hhigh, rfl⟩
  | tset =>
    obtain ⟨rfl, rfl, hhigh⟩ : rd = 0 ∧ rb = 0 ∧ imm < 64 := by simpa using hz
    rw [Nat.mod_eq_of_lt hhigh]
    exact ⟨decide_eq_true hhigh, rfl⟩
  | wdinit =>
    obtain ⟨rfl, rfl⟩ : rd = 0 ∧ imm = 0 := by simpa using hz
    exact ⟨rfl, rfl⟩
  | wdsamp =>
    obtain rfl : imm = 0 := by simpa using hz
    exact ⟨rfl, rfl⟩
  | wdgetb =>
    obtain ⟨rfl, rfl, rfl⟩ : ra = 0 ∧ rb = 0 ∧ imm = 0 := by simpa using hz
    exact ⟨rfl, rfl⟩

end Sys2Proof

namespace Sys2Proof.Machine

/-! ### A raise as the statements write a failure (60_exceptions.md R284) -/

/-- A field above the bits of a number is added to it. -/
theorem or_shiftLeft_eq_add {lo hi k : Nat} (hlo : lo < 2 ^ k) : lo ||| hi <<< k = lo + 2 ^ k * hi := by
  rw [Nat.or_comm, ← Nat.shiftLeft_add_eq_or_of_lt hlo, Nat.shiftLeft_eq, Nat.add_comm, Nat.mul_comm]

/-- The fields of ERRC lie beside each other: their sum is their union. -/
theorem errcWord_eq_or (e : ErrData) (hsub : e.sub < 256) (hfid : e.fid < 64) (hunit : e.unit < 16) :
    errcWord e =
      BitVec.ofNat 22 ((errCode e.kind).toNat ||| e.sub <<< 4 ||| e.fid <<< 12 ||| e.unit <<< 18) := by
  have hkind : (errCode e.kind).toNat < 2 ^ 4 := (errCode e.kind).isLt
  rw [or_shiftLeft_eq_add hkind, or_shiftLeft_eq_add (k := 12) (by omega), or_shiftLeft_eq_add (k := 18) (by omega),
    errcWord, Nat.mod_eq_of_lt hsub, Nat.mod_eq_of_lt hfid, Nat.mod_eq_of_lt hunit]
  rfl

theorem State.withError_eq_failed (s : State) (e : ErrData) (hsub : e.sub < 256) (hfid : e.fid < 64) (hunit : e.unit < 16) :
    s.withError e = failed s (errCode e.kind).toNat e.sub e.fid e.unit e.i0 e.i1 e.i2 := by
  rw [State.withError, failed, errcWord_eq_or e hsub hfid hunit, BitVec.ofNat_toNat, BitVec.setWidth_eq]
  rfl

end Sys2Proof.Machine

namespace Sys2Proof.Proofs

open Sys2Proof Sys2Proof.Machine

/-! ### The statements on command words -/

/-- Settles O2: a case per command, in `decode_encode`. -/
theorem decodeOfEncode : Obligations.DecodeOfEncode := decode_encode

/-- Settles O3: the opcode field picks the command's row, and its row answers only the fields of the command's own word. -/
theorem decodeAcceptsOnlyEncodings : Obligations.DecodeAcceptsOnlyEncodings := by
  intro w i h
  have hop : (Fields.ofWord w).op = opcode i := op_of_decodeFields h
  have hword := cmdWord_fields w
  rw [hop] at hword
  rw [← hword]
  refine encode_of_decodeFields (ofWord_imm_lt w) ?_
  rw [← hop]
  exact h

/-- Settles O1: the words are concrete. -/
theorem commandWordsDecode : Obligations.CommandWordsDecode := by
  unfold Obligations.CommandWordsDecode
  decide

/-! ### The step on an issued word -/

theorem step_issue {s : State} {w : Word32} {rest : List HostMove} (hmoves : s.moves = .issue w :: rest) :
    step s = issue w { s with moves := rest } := by
  unfold step
  rw [hmoves]
  rfl

/-- IllegalCommand as the statements write a failure (60_exceptions.md R288). -/
theorem raise_illegalCommand (s : State) (w : Word32) :
    raise s (illegalCommand w) = .next (failed s 8 0 63 0 (w.setWidth 64) 0 0) := by
  rw [raise, State.withError_eq_failed s _ (by decide : 0 < 256) (by decide : 63 < 64) (by decide : 0 < 16)]
  rfl

/-- Settles O4: the step is the issue of the word, which decodes or raises. -/
theorem stepRunsDecodedCommand : Obligations.StepRunsDecodedCommand := by
  intro s w rest hmoves
  rw [step_issue hmoves]
  constructor
  · intro i hi
    rw [issue, hi]
  · intro e he
    rw [issue, he]
    exact raise_illegalCommand _ w

end Sys2Proof.Proofs
end

section
/-! SUPPORT. What the commands of the numeric codec answer, as the statements write it: a result in `x[rd]`, or a failure; and the
fields and the joins of words as numbers. -/

namespace Sys2Proof.Machine

/-! ### The two ways a command ends (60_exceptions.md R284) -/

/-- A command that completes after one register write gives that result and changes nothing else. -/
theorem complete_writeX_givesResult (s : State) (rd : Reg) (v : Word) :
    ∃ t, complete (s.writeX rd v) = .next t ∧ GivesResult s t rd v := by
  refine ⟨(s.writeX rd v).done, rfl, fun r => ?_, ?_⟩
  · rw [State.readX_done, State.readX_writeX]
  · rw [State.x_done, State.writeX_eq]
    rfl

/-- A raise is the failure of the statements. -/
theorem raise_eq_failed (s : State) (e : ErrData) (hsub : e.sub < 256) (hfid : e.fid < 64) (hunit : e.unit < 16) :
    raise s e = .next (failed s (errCode e.kind).toNat e.sub e.fid e.unit e.i0 e.i1 e.i2) := by
  rw [raise, State.withError_eq_failed s e hsub hfid hunit]

/-- A RangeError of a single command: FID 63, UNIT 0 (60_exceptions.md R282). -/
theorem raise_rangeError (s : State) (i0 i1 i2 : Word) {sub : Nat} (hsub : sub < 256) :
    raise s { kind := .rangeError, sub := sub, i0 := i0, i1 := i1, i2 := i2 } = .next (failed s 1 sub 63 0 i0 i1 i2) :=
  raise_eq_failed s _ hsub (by decide : 63 < 64) (by decide : 0 < 16)

theorem raise_illegalOperand (s : State) (i0 : Word) {sub : Nat} (hsub : sub < 256) :
    raise s (illegalOperand sub i0) = .next (failed s 9 sub 63 0 i0 0 0) :=
  raise_eq_failed s _ hsub (by decide : 63 < 64) (by decide : 0 < 16)

/-! ### Words as numbers -/

theorem wordOfInt_eq (n : Int) : wordOfInt n = BitVec.ofInt 64 n := by
  rw [wordOfInt, raw_eq_ofInt, BitVec.ofNat_toNat, BitVec.setWidth_eq]

/-- Two words side by side: the number of the high one comes above the bits of the low one. -/
theorem toNat_append_eq_add {m n : Nat} (hi : BitVec m) (lo : BitVec n) :
    (hi ++ lo).toNat = lo.toNat + 2 ^ n * hi.toNat := by
  rw [BitVec.toNat_append, Nat.or_comm, or_shiftLeft_eq_add lo.isLt]

/-- A signed field of a word is the integer BitVec gives it. -/
theorem sx_slice (w : Word) (lo : Nat) {n : Nat} (hn : 0 < n) : sx (slice w lo n) n = (w.extractLsb' lo n).toInt := by
  rw [slice_eq, sx_toNat _ hn]

/-- The pattern of a word's integer, in another width, is the word sign-extended or cut. -/
theorem raw_toInt {m : Nat} (v : BitVec m) (n : Nat) : raw v.toInt n = (v.signExtend n).toNat := raw_eq_ofInt _ _

/-- The low bits of a pattern are the shorter pattern. -/
theorem raw_mod_two_pow (n : Int) {b w : Nat} (h : b ≤ w) : raw n w % 2 ^ b = raw n b := by
  have hdvd : (2 : Int) ^ b ∣ 2 ^ w := pow_dvd_pow 2 h
  zify [raw, Int.toNat_of_nonneg (Int.emod_nonneg n (pow_ne_zero _ two_ne_zero : (2 : Int) ^ w ≠ 0)),
    Int.toNat_of_nonneg (Int.emod_nonneg n (pow_ne_zero _ two_ne_zero : (2 : Int) ^ b ≠ 0))]
  exact Int.emod_emod_of_dvd n hdvd

end Sys2Proof.Machine
end

section
/-! SUPPORT. Rounding to the nearest integer over the rationals (00_scope.md R12): its error, its order, its symmetry. -/

namespace Sys2Proof.Machine

variable {q u : ℚ} {n b : Int}

theorem RoundsTo.abs_sub_le (h : RoundsTo q n) : |q - n| ≤ 1 / 2 := h.elim le_of_lt fun htie => htie.1.le

/-- A value rounded in units of `u` is within half a unit of it. -/
theorem RoundsTo.abs_mul_sub_le (hu : 0 < u) (h : RoundsTo (q / u) n) : |n * u - q| ≤ u / 2 := by
  have herr : |n * u - q| = |q / u - n| * u := by
    rw [abs_sub_comm, ← abs_of_pos hu, ← abs_mul, abs_of_pos hu, sub_mul, div_mul_cancel₀ _ hu.ne']
  calc |n * u - q| = |q / u - n| * u := herr
    _ ≤ 1 / 2 * u := by gcongr; exact h.abs_sub_le
    _ = u / 2 := by ring

/-- An integer rounds to itself. -/
theorem roundsTo_intCast (n : Int) : RoundsTo (n : ℚ) n := Or.inl (by norm_num)

theorem RoundsTo.nonneg (h : RoundsTo q n) (hq : 0 ≤ q) : 0 ≤ n := by
  have hle := (abs_le.1 h.abs_sub_le).2
  have hgt : (-1 : ℚ) < n := by linarith
  have : (-1 : Int) < n := by exact_mod_cast hgt
  omega

theorem RoundsTo.neg (h : RoundsTo q n) : RoundsTo (-q) (-n) := by
  have habs : |-q - ((-n : Int) : ℚ)| = |q - n| := by
    rw [← abs_neg (q - n)]
    push_cast
    ring_nf
  rw [RoundsTo, habs, even_neg]
  exact h

/-- Rounding stays at most an odd bound exactly below the tie above it: the tie goes to the even side. -/
theorem RoundsTo.le_iff (h : RoundsTo q n) (hb : Odd b) : n ≤ b ↔ q < b + 1 / 2 := by
  obtain ⟨hlo, hhi⟩ := abs_le.1 h.abs_sub_le
  constructor
  · intro hle
    rcases hle.lt_or_eq with hlt | rfl
    · have : (n : ℚ) + 1 ≤ b := by exact_mod_cast hlt
      linarith
    · rcases h with hnear | ⟨-, heven⟩
      · linarith [(abs_lt.1 hnear).2]
      · exact absurd heven (Int.not_even_iff_odd.2 hb)
  · intro hlt
    have : (n : ℚ) < b + 1 := by linarith
    exact Int.lt_add_one_iff.1 (by exact_mod_cast this)

theorem RoundsTo.abs_le_iff (h : RoundsTo q n) (hb : Odd b) : |n| ≤ b ↔ |q| < b + 1 / 2 := by
  rw [abs_le', abs_lt, h.le_iff hb, h.neg.le_iff hb, and_comm, neg_lt]

/-- Beyond the tie above an odd bound, rounding is beyond the bound. -/
theorem RoundsTo.lt_of_le (h : RoundsTo q n) (hb : Odd b) (hq : (b : ℚ) + 1 / 2 ≤ q) : b < n :=
  not_le.1 fun hle => hq.not_gt ((h.le_iff hb).1 hle)

theorem RoundsTo.lt_abs_of_le (h : RoundsTo q n) (hb : Odd b) (hq : (b : ℚ) + 1 / 2 ≤ |q|) : b < |n| :=
  not_le.1 fun hle => hq.not_gt ((h.abs_le_iff hb).1 hle)

/-- The mantissa a DEC has at exponent `k` is its value in units of `10^k`, rounded. -/
theorem roundTie10_roundsTo_decVal (w : Word) (k : Int) :
    RoundsTo (decVal w / 10 ^ k) (roundTie10 (mant w) (expo w - k) 1) := by
  have hround := roundTie10_roundsTo (mant w) (expo w - k) 1 one_pos
  rw [mant_eq, expo_eq, zpow_sub₀ (by norm_num), Nat.cast_one, div_one, ← mul_div_assoc] at hround
  rw [mant_eq, expo_eq]
  exact hround

end Sys2Proof.Machine
end

section
/-! SUPPORT. FIX and UNFIX (40_numeric_codec.md R101 to R105): the domain tests, what each answers, the count and its field. -/

namespace Sys2Proof.Machine

variable {rd ra rb : Reg} {bits : Nat} {sg : Bool} {s t : State} {scale : Word} {n : Int}

/-! ### The domain tests (R103, R105) -/

/-- The operands FIX and UNFIX accept: a width in 1..32, a scale mantissa in 1..2^23-1. -/
theorem fixDomainError_eq_none :
    fixDomainError bits scale = none ↔
      (1 ≤ bits ∧ bits ≤ 32) ∧ 1 ≤ decMantissa scale ∧ decMantissa scale ≤ 2 ^ 23 - 1 := by
  unfold fixDomainError
  rw [mant_eq]
  split
  · simp; omega
  · split <;> simp <;> omega

theorem raise_of_width_out_of_range (h : bits < 1 ∨ 32 < bits) :
    ∃ e, fixDomainError bits scale = some e ∧ raise s e = .next (failed s 9 1 63 0 (BitVec.ofNat 64 bits) 0 0) :=
  ⟨_, if_pos h, raise_illegalOperand s _ (by decide)⟩

theorem raise_of_scale_out_of_range (hb : ¬(bits < 1 ∨ 32 < bits))
    (h : decMantissa scale < 1 ∨ 2 ^ 23 - 1 < decMantissa scale) :
    ∃ e, fixDomainError bits scale = some e ∧ raise s e = .next (failed s 9 2 63 0 scale 0 0) :=
  ⟨_, by rw [fixDomainError, if_neg hb, mant_eq, if_pos h], raise_illegalOperand s _ (by decide)⟩

/-- The scale's mantissa as the model takes it, a natural number: nothing is lost. -/
theorem toNat_mant (h : 1 ≤ decMantissa scale) : ((mant scale).toNat : Int) = decMantissa scale := by
  rw [mant_eq]
  exact Int.toNat_of_nonneg (by omega)

theorem decVal_pos (h : 1 ≤ decMantissa scale) : 0 < decVal scale := by
  have : (0 : ℚ) < decMantissa scale := by exact_mod_cast h
  rw [decVal]
  positivity

/-! ### What FIX and UNFIX answer -/

theorem exec_fix_of_domainError {e : ErrData} (h : fixDomainError bits (s.readX rb) = some e) :
    exec (.fix rd ra rb bits sg) s = raise s e := by
  show execFix rd ra rb bits sg s = _
  rw [execFix, h]

theorem exec_unfix_of_domainError {e : ErrData} (h : fixDomainError bits (s.readX rb) = some e) :
    exec (.unfix rd ra rb bits sg) s = raise s e := by
  show execUnfix rd ra rb bits sg s = _
  rw [execUnfix, h]

theorem exec_fix_of_count (hd : fixDomainError bits (s.readX rb) = none)
    (hn : fixOf (s.readX ra) bits sg (mant (s.readX rb)).toNat (expo (s.readX rb)) = some n) :
    exec (.fix rd ra rb bits sg) s = complete (s.writeX rd (wordOfInt n)) := by
  show execFix rd ra rb bits sg s = _
  simp only [execFix, hd, hn]

theorem exec_fix_of_no_count (hd : fixDomainError bits (s.readX rb) = none)
    (hn : fixOf (s.readX ra) bits sg (mant (s.readX rb)).toNat (expo (s.readX rb)) = none) :
    exec (.fix rd ra rb bits sg) s =
      raise s (fixError 63 0 (s.readX ra) bits sg (mant (s.readX rb)).toNat (expo (s.readX rb))) := by
  show execFix rd ra rb bits sg s = _
  simp only [execFix, hd, hn]

theorem exec_unfix_of_domain (hd : fixDomainError bits (s.readX rb) = none) :
    exec (.unfix rd ra rb bits sg) s = complete (s.writeX rd
      (unfixOf (slice (s.readX ra) 0 bits) bits sg (mant (s.readX rb)).toNat (expo (s.readX rb)))) := by
  show execUnfix rd ra rb bits sg s = _
  simp only [execUnfix, hd]

/-- A FIX that leaves LAST 0 wrote a count: its operands passed the tests and the count is in range. -/
theorem count_of_fix_succeeds (h : exec (.fix rd ra rb bits sg) s = .next t) (hlast : t.status.last = 0) :
    fixDomainError bits (s.readX rb) = none ∧
      ∃ n, fixOf (s.readX ra) bits sg (mant (s.readX rb)).toNat (expo (s.readX rb)) = some n ∧
        t = (s.writeX rd (wordOfInt n)).done := by
  have hraise : ∀ e, exec (.fix rd ra rb bits sg) s ≠ raise s e := by
    intro e he
    rw [he, raise_eq_next] at h
    subst h
    exact errCode_ne_zero e.kind hlast
  cases hd : fixDomainError bits (s.readX rb) with
  | some e => exact absurd (exec_fix_of_domainError hd) (hraise e)
  | none =>
    cases hn : fixOf (s.readX ra) bits sg (mant (s.readX rb)).toNat (expo (s.readX rb)) with
    | none => exact absurd (exec_fix_of_no_count hd hn) (hraise _)
    | some n =>
      rw [exec_fix_of_count hd hn, complete_eq_next] at h
      exact ⟨rfl, n, rfl, h⟩

/-! ### The count and its field -/

/-- The count is the value over the scale, rounded. -/
theorem fixCount_roundsTo_div (value : Word) (h : 1 ≤ decMantissa scale) :
    RoundsTo (decVal value / decVal scale) (fixCount value (mant scale).toNat (expo scale)) := by
  have hround := fixCount_roundsTo value (mant scale).toNat (expo scale) (by rw [mant_eq]; omega)
  rw [← Int.cast_natCast, toNat_mant h, expo_eq] at hround
  rw [expo_eq]
  exact hround

/-- A field's range lies within 32 bits and a sign. -/
theorem fix_range_bounds (hbits : bits ≤ 32) (hlo : fixLo bits sg ≤ n) (hhi : n ≤ fixHi bits sg) :
    -2 ^ 32 ≤ n ∧ n < 2 ^ 32 := by
  have hpow : (2 : Int) ^ bits ≤ 2 ^ 32 := pow_le_pow_right₀ (by norm_num) hbits
  have hpow' : (2 : Int) ^ (bits - 1) ≤ 2 ^ 32 := pow_le_pow_right₀ (by norm_num) (by omega)
  cases sg <;> simp only [fixLo, fixHi, if_true, Bool.false_eq_true, if_false] at hlo hhi <;> omega

/-- R102: a count in a field's range times a scale mantissa fits a DEC, so the product is exact. -/
theorem decVal_count_mul_scale (hbits : bits ≤ 32) (hlo : fixLo bits sg ≤ n) (hhi : n ≤ fixHi bits sg)
    (h1 : 1 ≤ decMantissa scale) (h2 : decMantissa scale ≤ 2 ^ 23 - 1) :
    decVal (decWord (n * decMantissa scale) (decExponent scale)) = n * decVal scale := by
  obtain ⟨hmin, hmax⟩ := fix_range_bounds hbits hlo hhi
  obtain ⟨he1, he2⟩ := decExponent_range scale
  have hge : -2 ^ 55 ≤ n * decMantissa scale := by nlinarith
  have hlt : n * decMantissa scale < 2 ^ 55 := by nlinarith
  rw [decVal_decWord _ _ hge hlt he1 he2, decVal]
  push_cast
  ring

/-- The integer UNFIX takes from the low bits of a word, signed or not. -/
def fixField (w : Word) (bits : Nat) (sg : Bool) : Int :=
  if sg then (w.setWidth bits).toInt else (w.setWidth bits).toNat

/-- The low bits of a word, as the model reads them. -/
theorem slice_zero (w : Word) (bits : Nat) : slice w 0 bits = (w.setWidth bits).toNat := by
  rw [slice, pow_zero, Nat.div_one, BitVec.toNat_setWidth]

theorem unfixOf_eq (w : Word) (hbits : 1 ≤ bits) (hm : 1 ≤ decMantissa scale) :
    unfixOf (slice w 0 bits) bits sg (mant scale).toNat (expo scale) =
      decWord (fixField w bits sg * decMantissa scale) (decExponent scale) := by
  rw [unfixOf, dec_eq, toNat_mant hm, expo_eq, slice_zero, sx_toNat _ hbits, fixField]

theorem fixField_bounds (w : Word) :
    fixLo bits sg ≤ fixField w bits sg ∧ fixField w bits sg ≤ fixHi bits sg := by
  cases sg with
  | true =>
    have hmin := BitVec.le_toInt (w.setWidth bits)
    have hmax := BitVec.toInt_lt (x := w.setWidth bits)
    simp only [fixLo, fixHi, fixField, if_true]
    omega
  | false =>
    have hmax : ((w.setWidth bits).toNat : Int) < 2 ^ bits := by exact_mod_cast (w.setWidth bits).isLt
    simp only [fixLo, fixHi, fixField, Bool.false_eq_true, if_false]
    omega

/-- A count in range, written to a register by FIX, is the field UNFIX reads there. -/
theorem fixField_wordOfInt (h1 : 1 ≤ bits) (h2 : bits ≤ 32) (hlo : fixLo bits sg ≤ n) (hhi : n ≤ fixHi bits sg) :
    fixField (wordOfInt n) bits sg = n := by
  have hpat : (wordOfInt n).setWidth bits = BitVec.ofInt bits n := by
    apply BitVec.eq_of_toNat_eq
    rw [BitVec.toNat_setWidth, wordOfInt_eq, ← raw_eq_ofInt, ← raw_eq_ofInt, raw_mod_two_pow n (h2.trans (by decide))]
  rw [fixField, hpat]
  cases sg with
  | true =>
    simp only [fixLo, fixHi, if_true] at hlo hhi ⊢
    exact BitVec.toInt_ofInt_eq_self h1 hlo (by omega)
  | false =>
    simp only [fixLo, fixHi, Bool.false_eq_true, if_false] at hlo hhi ⊢
    rw [← raw_eq_ofInt, raw, Int.emod_eq_of_lt hlo (by omega), Int.toNat_of_nonneg hlo]

end Sys2Proof.Machine
end

section
/-! SUPPORT. The statements on FIX and UNFIX. -/

namespace Sys2Proof.Proofs

open Sys2Proof Sys2Proof.Machine

/-- Settles O25: the domain tests raise; else the model's count is the statement's, since a rational rounds to one integer only. -/
theorem fixRoundsToNearestEven : Obligations.FixRoundsToNearestEven := by
  intro rd ra rb bits sg s n hround sm se
  split_ifs with hbits hscale hrange
  · obtain ⟨e, hdomain, hraise⟩ := raise_of_width_out_of_range (scale := s.readX rb) (s := s) hbits
    rw [exec_fix_of_domainError hdomain, hraise]
  · obtain ⟨e, hdomain, hraise⟩ := raise_of_scale_out_of_range (s := s) hbits hscale
    rw [exec_fix_of_domainError hdomain, hraise]
  all_goals
    have hm : 1 ≤ decMantissa (s.readX rb) := by omega
    have hdomain : fixDomainError bits (s.readX rb) = none := fixDomainError_eq_none.2 (by omega)
    have hn : n = fixCount (s.readX ra) (mant (s.readX rb)).toNat (expo (s.readX rb)) :=
      hround.unique (fixCount_roundsTo_div _ hm)
  · rw [exec_fix_of_count hdomain ((fixOf_eq_some ..).2 ⟨hn, hrange⟩), ← wordOfInt_eq]
    exact complete_writeX_givesResult s rd _
  · rw [exec_fix_of_no_count hdomain ((fixOf_eq_none ..).2 (by omega)), fixError,
      raise_rangeError s _ _ _ (by decide), toNat_mant hm, expo_eq, dec_eq, dec_eq]

/-- Settles O26: the field lies in its range, and a count in range times the scale fits a DEC. -/
theorem unfixIsExact : Obligations.UnfixIsExact := by
  intro rd ra rb bits sg s n hn sm
  split_ifs with hbits hscale
  · obtain ⟨e, hdomain, hraise⟩ := raise_of_width_out_of_range (scale := s.readX rb) (s := s) hbits
    rw [exec_unfix_of_domainError hdomain, hraise]
  · obtain ⟨e, hdomain, hraise⟩ := raise_of_scale_out_of_range (s := s) hbits hscale
    rw [exec_unfix_of_domainError hdomain, hraise]
  · have hfield : n = fixField (s.readX ra) bits sg := hn
    obtain ⟨hlo, hhi⟩ := fixField_bounds (bits := bits) (sg := sg) (s.readX ra)
    have hdomain : fixDomainError bits (s.readX rb) = none := fixDomainError_eq_none.2 (by omega)
    rw [hfield]
    constructor
    · rw [exec_unfix_of_domain hdomain, unfixOf_eq _ (by omega) (by omega)]
      exact complete_writeX_givesResult s rd _
    · exact decVal_count_mul_scale (by omega) hlo hhi (by omega) (by omega)

/-- Settles O27: UNFIX reads back the count FIX wrote, and its exact product with the scale is the value rounded to a multiple of
the scale. -/
theorem fixThenUnfixIsWithinHalfStep : Obligations.FixThenUnfixIsWithinHalfStep := by
  intro rd ra rb rq bits sg s t hrd hrb hrq hfix hlast
  obtain ⟨hdomain, n, hcount, rfl⟩ := count_of_fix_succeeds hfix hlast
  obtain ⟨hn, hlo, hhi⟩ := (fixOf_eq_some ..).1 hcount
  obtain ⟨⟨hb1, hb2⟩, hm1, hm2⟩ := fixDomainError_eq_none.1 hdomain
  have hround : RoundsTo (decVal (s.readX ra) / decVal (s.readX rb)) n := hn ▸ fixCount_roundsTo_div _ hm1
  have hscale : ((s.writeX rd (wordOfInt n)).done).readX rb = s.readX rb := by
    rw [State.readX_done, State.readX_writeX, if_neg hrb.symm]
    split
    · next h => rw [h, State.readX_zero]
    · rfl
  have hfield : ((s.writeX rd (wordOfInt n)).done).readX rd = wordOfInt n := by
    rw [State.readX_done, State.readX_writeX, if_neg hrd, if_pos rfl]
  have hexact := decVal_count_mul_scale hb2 hlo hhi hm1 hm2
  refine ⟨_, (exec_unfix_of_domain (by rw [hscale]; exact hdomain)).trans rfl, rfl, ?_⟩
  rw [State.readX_done, State.readX_writeX, if_neg hrq, if_pos rfl, hscale, hfield, unfixOf_eq _ hb1 hm1,
    fixField_wordOfInt hb1 hb2 hlo hhi, hexact]
  refine ⟨hround.abs_mul_sub_le (decVal_pos hm1), fun k hk => ?_⟩
  have hkn : RoundsTo (k : ℚ) n := by
    rwa [hk, mul_div_cancel_right₀ _ (decVal_pos hm1).ne'] at hround
  rw [hk, hkn.unique (roundsTo_intCast k)]

end Sys2Proof.Proofs
end

section
/-! SUPPORT. The compact formats float12 and decimal16 (40_numeric_codec.md R107 to R116): what the two searches find, and the
codes as fields of a word. -/

namespace Sys2Proof.Machine

variable {rd ra : Reg} {s : State} {w : Word} {c : Nat}

/-! ### float12 (R107 to R110) -/

/-- The values float12 encodes: from 0 to 10^7. -/
theorem f12_domain_iff (w : Word) :
    ¬(mant w < 0 ∨ decLe (mant w) (expo w) Config.f12Max = false) ↔ 0 ≤ decVal w ∧ decVal w ≤ 10 ^ 7 := by
  have hpos : (0 : ℚ) < 10 ^ decExponent w := by positivity
  have hsign : 0 ≤ decVal w ↔ 0 ≤ mant w := by
    rw [decVal, mul_nonneg_iff_of_pos_right hpos, mant_eq]
    exact Int.cast_nonneg_iff
  have hmax : decLe (mant w) (expo w) Config.f12Max = true ↔ decVal w ≤ 10 ^ 7 := by
    rw [decLe_iff, mant_eq, expo_eq, decVal]
    norm_num
  rw [not_or, not_lt, Bool.not_eq_false, hsign, hmax]

/-- No value of the domain needs an exponent above 5: in units of 10^5 it is at most 100. -/
theorem f12_exponent_le_five {q : ℚ} {k : Nat} (hq : q ≤ 10 ^ 7) (hmin : ∀ j < k, 511 + 1 / 2 ≤ q / 10 ^ j) : k ≤ 5 := by
  by_contra hk
  have hfive := hmin 5 (by omega)
  have hsmall : q / 10 ^ 5 ≤ 100 := by
    rw [div_le_iff₀ (by positivity)]
    linarith
  linarith

/-- What F12ENC's search finds: the least exponent below whose tie, 511.5, the value lies. -/
theorem f12enc_eq_some (h : f12enc (mant w) (expo w) = some c) :
    ∃ m k : Nat, c = m * 8 + k ∧ k ≤ 5 ∧ m ≤ 511 ∧ RoundsTo (decVal w / 10 ^ k) m ∧
      ∀ j < k, 511 + 1 / 2 ≤ decVal w / 10 ^ j := by
  unfold f12enc at h
  split at h
  · cases h
  · next hdom =>
    obtain ⟨hlo, hhi⟩ := (f12_domain_iff w).1 hdom
    obtain ⟨k, hk, rfl⟩ := Option.map_eq_some_iff.1 h
    rw [List.find?_range_eq_some] at hk
    obtain ⟨hfit, -, hmin⟩ := hk
    have hround (j : Nat) : RoundsTo (decVal w / 10 ^ j) (roundTie10 (mant w) (expo w - j) 1) := by
      simpa using roundTie10_roundsTo_decVal w j
    have hcast : ((roundTie10 (mant w) (expo w - k) 1).toNat : Int) = roundTie10 (mant w) (expo w - k) 1 :=
      Int.toNat_of_nonneg ((hround k).nonneg (by positivity))
    have hfit : roundTie10 (mant w) (expo w - k) 1 ≤ 511 := of_decide_eq_true hfit
    have hbeyond : ∀ j < k, 511 + 1 / 2 ≤ decVal w / 10 ^ j := by
      intro j hj
      have hbig : ¬ roundTie10 (mant w) (expo w - j) 1 ≤ 511 := by simpa using hmin j hj
      rw [(hround j).le_iff (by decide)] at hbig
      simpa using hbig
    refine ⟨_, k, rfl, f12_exponent_le_five hhi hbeyond, by omega, ?_, hbeyond⟩
    rw [← Int.cast_natCast, hcast]
    exact hround k

/-- F12ENC finds no exponent exactly outside [0, 10^7]. -/
theorem f12enc_eq_none : f12enc (mant w) (expo w) = none ↔ ¬(0 ≤ decVal w ∧ decVal w ≤ 10 ^ 7) := by
  rw [← f12_domain_iff, not_not]
  unfold f12enc
  split
  · next hout => exact iff_of_true rfl hout
  · next hin =>
    refine iff_of_false (fun hnone => ?_) hin
    obtain ⟨hlo, hhi⟩ := (f12_domain_iff w).1 hin
    rw [Option.map_eq_none_iff, List.find?_range_eq_none] at hnone
    have hround := roundTie10_roundsTo_decVal w (5 : Nat)
    have hfive : decVal w / 10 ^ ((5 : Nat) : Int) < (511 : Int) + 1 / 2 := by
      rw [zpow_natCast, div_lt_iff₀ (by positivity)]
      norm_num
      linarith
    have hfit := (hround.le_iff (by decide)).2 hfive
    have hbig : ¬ roundTie10 (mant w) (expo w - (5 : Nat)) 1 ≤ 511 := by
      simpa only [Bool.not_eq_true', decide_eq_false_iff_not] using hnone 5 (by decide)
    exact hbig hfit

theorem isF12Code_of_search {q : ℚ} {m k : Nat} (hk : k ≤ 5) (hm : m ≤ 511) (hround : RoundsTo (q / 10 ^ k) m)
    (hmin : ∀ j < k, 511 + 1 / 2 ≤ q / 10 ^ j) : IsF12Code q (m * 8 + k) :=
  ⟨m, k, by rw [Nat.mul_comm], by omega, hm, hround, fun j hj _ hr => hr.lt_of_le (by decide) (by exact_mod_cast hmin j hj)⟩

theorem exec_f12enc_some (h : f12enc (mant (s.readX ra)) (expo (s.readX ra)) = some c) :
    exec (.f12enc rd ra) s = complete (s.writeX rd (BitVec.ofNat 64 c)) := by
  show execF12enc rd ra s = _
  rw [execF12enc, h]
  rfl

theorem exec_f12enc_none (h : f12enc (mant (s.readX ra)) (expo (s.readX ra)) = none) :
    exec (.f12enc rd ra) s = .next (failed s 1 0 63 0 (s.readX ra) (decWord 0 0) (decWord 1 7)) := by
  show execF12enc rd ra s = _
  rw [execF12enc, h]
  simp only [f12Error]
  rw [raise_rangeError s _ _ _ (by decide), dec_eq, dec_eq]

/-- The value a float12 code decodes to: its mantissa in units of its exponent. -/
theorem decVal_f12dec {m k : Nat} (hm : m ≤ 511) (hk : k ≤ 5) : decVal (f12dec (m * 8 + k)) = m * 10 ^ k := by
  rw [f12dec, show (m * 8 + k) / 8 = m by omega, show (m * 8 + k) % 8 = k by omega, dec_eq,
    decVal_decWord _ _ (by omega) (by omega) (by omega) (by omega)]
  simp

/-! ### decimal16 (R112 to R116) -/

/-- The mantissa's bound, as the model tests it and as the statements write it. -/
theorem abs_le_iff_natAbs_le {n : Int} : |n| ≤ 1023 ↔ n.natAbs ≤ 1023 := by
  rw [Int.abs_eq_natAbs]
  omega

/-- What D16ENC's search finds: the least exponent below whose tie, 1023.5, the value's magnitude lies. -/
theorem d16enc_eq_some (h : d16enc (mant w) (expo w) = some c) :
    ∃ m k : Int, c = d16Code m k ∧ -16 ≤ k ∧ k ≤ 15 ∧ |m| ≤ 1023 ∧ RoundsTo (decVal w / 10 ^ k) m ∧
      ∀ j, -16 ≤ j → j < k → 1023 + 1 / 2 ≤ |decVal w / 10 ^ j| := by
  unfold d16enc d16Exponents at h
  obtain ⟨k, hk, rfl⟩ := Option.map_eq_some_iff.1 h
  rw [List.find?_map] at hk
  obtain ⟨i, hi, rfl⟩ := Option.map_eq_some_iff.1 hk
  rw [List.find?_range_eq_some] at hi
  obtain ⟨hfit, hi32, hmin⟩ := hi
  rw [List.mem_range] at hi32
  have hfit : (roundTie10 (mant w) (expo w - ((i : Int) - 16)) 1).natAbs ≤ 1023 := of_decide_eq_true hfit
  refine ⟨_, (i : Int) - 16, rfl, by omega, by omega, abs_le_iff_natAbs_le.2 hfit, roundTie10_roundsTo_decVal w _, fun j hj1 hj2 => ?_⟩
  obtain ⟨a, rfl⟩ : ∃ a : Nat, j = (a : Int) - 16 := ⟨(j + 16).toNat, by omega⟩
  have hbig : ¬ (roundTie10 (mant w) (expo w - ((a : Int) - 16)) 1).natAbs ≤ 1023 := by
    simpa using hmin a (by omega)
  rw [← abs_le_iff_natAbs_le, (roundTie10_roundsTo_decVal w _).abs_le_iff (by decide)] at hbig
  simpa using hbig

/-- D16ENC finds no exponent exactly where the magnitude in units of 10^15 rounds beyond 1023. -/
theorem d16enc_eq_none {top : Int} (htop : RoundsTo (decVal w / 10 ^ 15) top) :
    d16enc (mant w) (expo w) = none ↔ ¬ |top| ≤ 1023 := by
  constructor
  · intro hnone
    rw [d16enc, d16Exponents, Option.map_eq_none_iff, List.find?_map, Option.map_eq_none_iff,
      List.find?_range_eq_none] at hnone
    have hlast := hnone 31 (by decide)
    rw [Function.comp_apply, show (((31 : Nat) : Int) - 16) = 15 by rfl, ← htop.unique (roundTie10_roundsTo_decVal w 15)] at hlast
    rw [abs_le_iff_natAbs_le]
    simpa using hlast
  · intro hbig
    rw [htop.abs_le_iff (by decide), not_lt] at hbig
    by_contra hne
    obtain ⟨c, hc⟩ := Option.ne_none_iff_exists'.1 hne
    obtain ⟨m, k, -, -, hk, hm, hround, -⟩ := d16enc_eq_some hc
    have hfit := (hround.abs_le_iff (by decide)).1 hm
    have hmono : |decVal w / 10 ^ 15| ≤ |decVal w / 10 ^ k| := by
      rw [abs_div, abs_div, abs_of_pos (show (0 : ℚ) < 10 ^ 15 by positivity), abs_of_pos (show (0 : ℚ) < 10 ^ k by positivity)]
      gcongr
      rw [← zpow_natCast]
      exact zpow_le_zpow_right₀ (by norm_num) hk
    linarith

/-- The code of decimal16 as a 16-bit word: the mantissa above the exponent (30_encoding.md R78). -/
def d16Word (m e : Int) : BitVec 16 := if m = 0 then 0 else BitVec.ofInt 11 m ++ BitVec.ofInt 5 e

theorem d16Word_toNat (m e : Int) : (d16Word m e).toNat = d16Code m e := by
  unfold d16Word d16Code
  split
  · rfl
  · rw [show ((BitVec.ofInt 11 m ++ BitVec.ofInt 5 e : BitVec 16)).toNat = _ from toNat_append_eq_add _ _, ← raw_eq_ofInt,
      ← raw_eq_ofInt]
    omega

theorem wordOfNat_d16Code (m e : Int) : wordOfNat (d16Code m e) = (d16Word m e).setWidth 64 := by
  rw [← d16Word_toNat, wordOfNat, BitVec.ofNat_toNat]

theorem isD16Code_of_search {q : ℚ} {m k : Int} (h1 : -16 ≤ k) (h2 : k ≤ 15) (hm : |m| ≤ 1023) (hround : RoundsTo (q / 10 ^ k) m)
    (hmin : ∀ j, -16 ≤ j → j < k → 1023 + 1 / 2 ≤ |q / 10 ^ j|) : IsD16Code q (d16Word m k) :=
  ⟨m, k, rfl, h1, h2, hm, hround, fun j hj1 hj2 _ hr => hr.lt_abs_of_le (by decide) (by exact_mod_cast hmin j hj1 hj2)⟩

theorem exec_d16enc_some (h : d16enc (mant (s.readX ra)) (expo (s.readX ra)) = some c) :
    exec (.d16enc rd ra) s = complete (s.writeX rd (wordOfNat c)) := by
  show execD16enc rd ra s = _
  rw [execD16enc, h]

theorem exec_d16enc_none (h : d16enc (mant (s.readX ra)) (expo (s.readX ra)) = none) :
    exec (.d16enc rd ra) s = .next (failed s 1 0 63 0 (s.readX ra) (decWord (-1023) 15) (decWord 1023 15)) := by
  show execD16enc rd ra s = _
  rw [execD16enc, h]
  simp only [d16Error]
  rw [raise_rangeError s _ _ _ (by decide), dec_eq, dec_eq]

/-- A decimal16 code decodes to its mantissa and exponent; a mantissa of 0 was stored with exponent 0 (R112, R115). -/
theorem d16dec_d16Code {m k : Int} (h1 : -16 ≤ k) (h2 : k ≤ 15) (hm : |m| ≤ 1023) :
    d16dec (d16Code m k) = decWord m (if m = 0 then 0 else k) := by
  obtain ⟨hmant, hexp⟩ := d16Code_fields (m := m) (abs_le_iff_natAbs_le.1 hm) h1 h2
  rw [d16dec, hmant, hexp, dec_eq]

/-! ### Accuracy (R111, R114) -/

/-- A value in units of one exponent is ten times what it is in units of the next. -/
theorem div_zpow_sub_one (q : ℚ) (k : Int) : q / 10 ^ (k - 1) = q / 10 ^ k * 10 := by
  rw [zpow_sub_one₀ (by norm_num)]
  field_simp

/-- The least exponent above 0 leaves a float12 mantissa of at least 51. -/
theorem f12_mantissa_ge {q : ℚ} {m k : Nat} (hk : 1 ≤ k) (hround : RoundsTo (q / 10 ^ k) m)
    (hmin : ∀ j < k, 511 + 1 / 2 ≤ q / 10 ^ j) : 51 ≤ m := by
  have hprev := hmin (k - 1) (by omega)
  rw [← zpow_natCast, Nat.cast_sub hk, Nat.cast_one, div_zpow_sub_one, zpow_natCast] at hprev
  have hnear := (abs_le.1 hround.abs_sub_le).2
  rw [Int.cast_natCast] at hnear
  have : (50 : ℚ) < m := by linarith
  exact_mod_cast this

/-- The least exponent above -16 leaves a decimal16 mantissa of at least 102. -/
theorem d16_mantissa_ge {q : ℚ} {m k : Int} (hk : -16 < k) (hround : RoundsTo (q / 10 ^ k) m)
    (hmin : ∀ j, -16 ≤ j → j < k → 1023 + 1 / 2 ≤ |q / 10 ^ j|) : 102 ≤ |m| := by
  have hprev := hmin (k - 1) (by omega) (by omega)
  rw [div_zpow_sub_one, abs_mul, abs_of_pos (by norm_num : (0 : ℚ) < 10)] at hprev
  exact hround.lt_abs_of_le (b := 101) (by decide) (by push_cast; linarith)

/-! ### The decoders (R110, R116, R118) -/

/-- A field of the low bits of a word is a field of the word. -/
theorem slice_zero_digits (w : Word) {lo n k : Nat} (h : lo + n ≤ k) :
    slice w 0 k / 2 ^ lo % 2 ^ n = (w.extractLsb' lo n).toNat := by
  rw [← slice_eq, slice, slice, pow_zero, Nat.div_one, ← Nat.mod_mul_right_div_self, ← pow_add,
    Nat.mod_mod_of_dvd _ (pow_dvd_pow 2 h), pow_add, Nat.mod_mul_right_div_self]

/-- The top field of the low bits of a word needs no remainder. -/
theorem slice_zero_high (w : Word) (lo n : Nat) : slice w 0 (lo + n) / 2 ^ lo = (w.extractLsb' lo n).toNat := by
  rw [← slice_eq, slice, slice, pow_zero, Nat.div_one, pow_add, Nat.mod_mul_right_div_self]

theorem f12dec_slice (w : Word) :
    f12dec (slice w 0 12) = decWord (w.extractLsb' 3 9).toNat (w.extractLsb' 0 3).toNat := by
  have hlow := slice_zero_digits w (lo := 0) (n := 3) (k := 12) (by decide)
  rw [pow_zero, Nat.div_one] at hlow
  rw [f12dec, dec_eq, ← slice_zero_high w 3 9, ← hlow]
  rfl

theorem d16dec_slice (w : Word) :
    d16dec (slice w 0 16) = decWord (w.extractLsb' 5 11).toInt (w.extractLsb' 0 5).toInt := by
  have hlow := slice_zero_digits w (lo := 0) (n := 5) (k := 16) (by decide)
  rw [pow_zero, Nat.div_one] at hlow
  rw [d16dec, dec_eq, ← sx_toNat _ (by decide), ← sx_toNat _ (by decide), ← slice_zero_high w 5 11, ← hlow]
  rfl

theorem wordOfInt_s10 (w : Word) : wordOfInt (s10 (slice w 0 10)) = (w.extractLsb' 0 10).signExtend 64 := by
  rw [wordOfInt_eq, s10, sx_slice w 0 (by decide)]
  rfl

end Sys2Proof.Machine
end

section
/-! SUPPORT. The statements on float12, decimal16 and S10. -/

namespace Sys2Proof.Proofs

open Sys2Proof Sys2Proof.Machine

/-- Settles O28: on the domain the search finds the least exponent, outside it F12ENC raises. -/
theorem f12encTakesLeastExponent : Obligations.F12encTakesLeastExponent := by
  intro rd ra s
  split_ifs with hdom
  · obtain ⟨c, hc⟩ := Option.ne_none_iff_exists'.1 fun hnone => f12enc_eq_none.1 hnone hdom
    obtain ⟨t, hexec, hresult⟩ := complete_writeX_givesResult s rd (BitVec.ofNat 64 c)
    obtain ⟨m, k, rfl, hk, hm, hround, hmin⟩ := f12enc_eq_some hc
    exact ⟨t, _, (exec_f12enc_some hc).trans hexec, hresult, isF12Code_of_search hk hm hround hmin, by omega⟩
  · exact exec_f12enc_none (f12enc_eq_none.2 hdom)

/-- Settles O29: a mantissa that fits at exponent 15 makes the search end, and one that does not fits at no exponent. -/
theorem d16encTakesLeastExponent : Obligations.D16encTakesLeastExponent := by
  intro rd ra s top htop
  split_ifs with hfits
  · obtain ⟨c, hc⟩ := Option.ne_none_iff_exists'.1 fun hnone => (d16enc_eq_none htop).1 hnone hfits
    obtain ⟨m, k, hcode, hk1, hk2, hm, hround, hmin⟩ := d16enc_eq_some hc
    obtain ⟨t, hexec, hresult⟩ := complete_writeX_givesResult s rd ((d16Word m k).setWidth 64)
    refine ⟨t, d16Word m k, ?_, hresult, isD16Code_of_search hk1 hk2 hm hround hmin⟩
    rw [exec_d16enc_some hc, hcode, wordOfNat_d16Code, hexec]
  · exact exec_d16enc_none ((d16enc_eq_none htop).2 hfits)

/-- Settles O30: rounding errs by at most half a unit, and the exponent before the chosen one was too small for the mantissa. -/
theorem compactFormatsAccuracy : Obligations.CompactFormatsAccuracy := by
  intro w c
  constructor
  · intro hc
    obtain ⟨m, k, rfl, hk, hm, hround, hmin⟩ := f12enc_eq_some hc
    rw [decVal_f12dec hm hk, show (m * 8 + k) % 8 = k by omega, show (m * 8 + k) / 8 = m by omega]
    exact ⟨hk, fun hpos => f12_mantissa_ge hpos hround hmin, hround.abs_mul_sub_le (by positivity)⟩
  · intro hc
    obtain ⟨m, k, rfl, hk1, hk2, hm, hround, hmin⟩ := d16enc_eq_some hc
    obtain ⟨hm1, hm2⟩ := abs_le.1 hm
    rw [d16dec_d16Code hk1 hk2 hm, decVal, decMantissa_decWord _ _ (by omega) (by omega),
      decExponent_decWord _ _ (by split <;> omega) (by split <;> omega)]
    have herr := hround.abs_mul_sub_le (by positivity)
    split
    · next hzero =>
      have hleast : k = -16 := by
        by_contra hne
        have := d16_mantissa_ge (by omega) hround hmin
        simp [hzero] at this
      subst hzero hleast
      refine ⟨?_, fun _ h => absurd rfl h⟩
      rw [Int.cast_zero, zero_mul] at herr ⊢
      exact herr.trans (by norm_num)
    · exact ⟨herr, fun hk _ => d16_mantissa_ge hk hround hmin⟩

/-- Settles O31: each decoder reads only the bits of its code. -/
theorem compactDecodersAreTotal : Obligations.CompactDecodersAreTotal := by
  intro rd ra s
  refine ⟨?_, ?_, ?_⟩
  · rw [← f12dec_slice]
    exact complete_writeX_givesResult s rd _
  · rw [← d16dec_slice]
    exact complete_writeX_givesResult s rd _
  · rw [← wordOfInt_s10]
    exact complete_writeX_givesResult s rd _

end Sys2Proof.Proofs
end

section
/-! SUPPORT. QPACK and QUNPACK (40_numeric_codec.md R119 to R122): lanes, the quad word as its four fields, both inverses. -/

namespace Sys2Proof.Machine

variable {rd ra : Reg} {s : State}

/-! ### Lanes -/

theorem lane_eq (w : Word) (i : Nat) : lane w i = (w.extractLsb' (16 * i) 16).toInt := sx_slice w _ (by decide)

theorem quadFits_iff {n : Int} : quadFits n = true ↔ -512 ≤ n ∧ n ≤ 511 := decide_eq_true_iff

/-! ### QPACK -/

/-- QPACK completes where every lane fits. -/
theorem exec_qpack_of_fits (h : ∀ i, i < 4 → quadFits (lane (s.readX ra) i) = true) :
    exec (.qpack rd ra) s = complete (s.writeX rd (wordOfNat
      (qpack (lane (s.readX ra) 0) (lane (s.readX ra) 1) (lane (s.readX ra) 2) (lane (s.readX ra) 3)))) := by
  have hnone : (List.range 4).find? (fun i => !quadFits (lane (s.readX ra) i)) = none := by
    rw [List.find?_range_eq_none]
    intro i hi
    rw [h i hi]
    rfl
  show execQpack rd ra s = _
  simp only [execQpack, hnone]

/-- QPACK raises for the lowest lane that does not fit. -/
theorem exec_qpack_of_not_fits {i : Nat} (hi : i < 4) (hout : ¬ quadFits (lane (s.readX ra) i) = true)
    (hlow : ∀ k, k < i → quadFits (lane (s.readX ra) k) = true) :
    exec (.qpack rd ra) s =
      .next (failed s 1 i 63 0 (decWord (lane (s.readX ra) i) 0) (decWord (-512) 0) (decWord 511 0)) := by
  have hfind : (List.range 4).find? (fun i => !quadFits (lane (s.readX ra) i)) = some i := by
    rw [List.find?_range_eq_some]
    refine ⟨by simpa using hout, List.mem_range.2 hi, fun k hk => ?_⟩
    rw [hlow k hk]
    rfl
  show execQpack rd ra s = _
  simp only [execQpack, hfind]
  rw [raise_rangeError s _ _ _ (by omega), dec_eq, dec_eq, dec_eq]

/-- The quad of four words' integers is their low ten bits side by side, the first on top (R119). -/
theorem wordOfNat_qpack (a b c d : BitVec 16) :
    wordOfNat (qpack a.toInt b.toInt c.toInt d.toInt) =
      (a.setWidth 10 ++ b.setWidth 10 ++ c.setWidth 10 ++ d.setWidth 10).setWidth 64 := by
  have hraw (v : BitVec 16) : raw v.toInt 10 = (v.setWidth 10).toNat := by
    rw [raw_toInt, BitVec.signExtend_eq_setWidth_of_le v (by decide)]
  rw [wordOfNat, ← BitVec.ofNat_toNat]
  congr 1
  rw [qpack, hraw, hraw, hraw, hraw, toNat_append_eq_add, toNat_append_eq_add, toNat_append_eq_add]
  omega

/-! ### QUNPACK -/

/-- The four values of a quad in a word's low 40 bits (R120). -/
theorem qunpack_slice (w : Word) :
    qunpack (slice w 0 40) = ((w.extractLsb' 30 10).toInt, (w.extractLsb' 20 10).toInt, (w.extractLsb' 10 10).toInt,
      (w.extractLsb' 0 10).toInt) := by
  have hfield (lo : Nat) (h : lo + 10 ≤ 40) : s10 (slice w 0 40 / 2 ^ lo % 2 ^ 10) = (w.extractLsb' lo 10).toInt := by
    rw [slice_zero_digits w h, s10, sx_toNat _ (by decide)]
  rw [← hfield 30 (by decide), ← hfield 20 (by decide), ← hfield 10 (by decide), ← hfield 0 (by decide), pow_zero, Nat.div_one]
  rfl

/-- Four lanes from words' integers: the words sign-extended, the first in lane 0 (30_encoding.md R80). -/
theorem ofLanes_toInt {n : Nat} (a b c d : BitVec n) :
    ofLanes a.toInt b.toInt c.toInt d.toInt =
      d.signExtend 16 ++ c.signExtend 16 ++ b.signExtend 16 ++ a.signExtend 16 := by
  rw [ofLanes, raw_toInt, raw_toInt, raw_toInt, raw_toInt]
  apply BitVec.eq_of_toNat_eq
  have ha := (a.signExtend 16).isLt
  have hb := (b.signExtend 16).isLt
  have hc := (c.signExtend 16).isLt
  have hd := (d.signExtend 16).isLt
  rw [BitVec.toNat_ofNat, show 2 ^ Config.xlen = 2 ^ 64 from rfl, toNat_append_eq_add, toNat_append_eq_add,
    toNat_append_eq_add]
  omega

theorem exec_qunpack :
    exec (.qunpack rd ra) s = complete (s.writeX rd (ofLanes (qunpack (slice (s.readX ra) 0 40)).1
      (qunpack (slice (s.readX ra) 0 40)).2.1 (qunpack (slice (s.readX ra) 0 40)).2.2.1
      (qunpack (slice (s.readX ra) 0 40)).2.2.2)) := rfl

/-! ### Both ways (R120) -/

theorem s10_raw {n : Int} (h : quadFits n = true) : s10 (raw n 10) = n := by
  obtain ⟨hlo, hhi⟩ := quadFits_iff.1 h
  exact sx_raw n 10 (by decide) (by omega) (by omega)

theorem raw_s10 {r : Nat} (h : r < 1024) : raw (s10 r) 10 = r := raw_sx r 10 (by decide) h

/-- The four patterns of a quad come back as its digits. -/
theorem qunpack_qpack_of_fits {a b c d : Int} (ha : quadFits a = true) (hb : quadFits b = true) (hc : quadFits c = true)
    (hd : quadFits d = true) : qunpack (qpack a b c d) = (a, b, c, d) := by
  have la := raw_lt a 10
  have lb := raw_lt b 10
  have lc := raw_lt c 10
  have ld := raw_lt d 10
  have da : qpack a b c d / 1073741824 % 1024 = raw a 10 := by rw [qpack]; omega
  have db : qpack a b c d / 1048576 % 1024 = raw b 10 := by rw [qpack]; omega
  have dc : qpack a b c d / 1024 % 1024 = raw c 10 := by rw [qpack]; omega
  have dd : qpack a b c d % 1024 = raw d 10 := by rw [qpack]; omega
  rw [qunpack, da, db, dc, dd, s10_raw ha, s10_raw hb, s10_raw hc, s10_raw hd]

/-- A 40-bit number is its four digits put together. -/
theorem qpack_qunpack_of_lt {q : Nat} (h : q < 2 ^ 40) :
    qpack (qunpack q).1 (qunpack q).2.1 (qunpack q).2.2.1 (qunpack q).2.2.2 = q := by
  have hdigit (r : Nat) : raw (s10 (r % 1024)) 10 = r % 1024 := raw_s10 (Nat.mod_lt _ (by decide))
  simp only [qunpack, qpack, hdigit]
  omega

end Sys2Proof.Machine
end

section
/-! SUPPORT. The statements on QPACK and QUNPACK. -/

namespace Sys2Proof.Proofs

open Sys2Proof Sys2Proof.Machine

/-- Settles O32: the model's lanes are the statement's, and its search reports the lowest that does not fit. -/
theorem qpackPacksLanes : Obligations.QpackPacksLanes := by
  intro rd ra s lanes fits
  have hfits (i : Nat) : quadFits (lane (s.readX ra) i) = true ↔ fits i := by rw [quadFits_iff, lane_eq]
  constructor
  · intro hall
    rw [exec_qpack_of_fits fun i hi => (hfits i).2 (hall i hi)]
    simp only [lane_eq, wordOfNat_qpack]
    exact complete_writeX_givesResult s rd _
  · intro i hi hout hlow
    rw [exec_qpack_of_not_fits hi (mt (hfits i).1 hout) fun k hk => (hfits k).2 (hlow k hk), lane_eq]

/-- Settles O33: the quad's fields are the word's, and ten-bit patterns and the integers they stand for determine each other. -/
theorem qunpackInvertsQpack : Obligations.QunpackInvertsQpack := by
  refine ⟨fun rd ra s => ?_, fun a b c d => qunpack_qpack_of_fits, fun q => qpack_qunpack_of_lt⟩
  simp only [exec_qunpack, qunpack_slice, ofLanes_toInt]
  exact complete_writeX_givesResult s rd _

end Sys2Proof.Proofs
end

section
/-! SUPPORT. The bit stuffer (41_bit_stuffer.md): stuffed bits, their runs and their number, the stuffed bytes, and that the
unstuffer undoes it. -/

namespace Sys2Proof.Machine

variable {run : Nat} {bits : List Bool}

/-! ### The two loops, a bit at a time (R131, R135) -/

/-- After a run of fewer than seven 1s the unstuffer keeps the bit. -/
theorem unstuffBits_cons_of_lt (hrun : run < 7) (b : Bool) :
    unstuffBits run (b :: bits) = b :: unstuffBits (if b then run + 1 else 0) bits := by
  rw [unstuffBits, destuffBit, if_neg (show run ≠ 7 by omega)]

/-- After seven 1s the unstuffer drops the bit. -/
theorem unstuffBits_seven_cons (b : Bool) : unstuffBits 7 (b :: bits) = unstuffBits 0 bits := rfl

/-- The unstuffer, in the stuffer's run, gives back what was stuffed. -/
theorem unstuffBits_stuffBits (hrun : run < 7) : unstuffBits run (stuffBits run bits) = bits := by
  fun_induction stuffBits run bits with
  | case1 => rfl
  | case2 run rest hseven ih =>
    rw [unstuffBits_cons_of_lt hrun, if_pos rfl, hseven, unstuffBits_seven_cons, ih (by decide)]
  | case3 run rest hseven ih =>
    rw [unstuffBits_cons_of_lt hrun, if_pos rfl, ih (lt_of_le_of_ne hrun hseven)]
  | case4 run b rest hb ih =>
    rw [unstuffBits_cons_of_lt hrun, if_neg Bool.false_ne_true, ih (by decide), Bool.eq_false_of_not_eq_true hb]

/-- Zeros are stuffed as they are. -/
theorem stuffBits_replicate_false (run k : Nat) : stuffBits run (List.replicate k false) = List.replicate k false := by
  induction k generalizing run with
  | zero => rfl
  | succ k ih => rw [List.replicate_succ, stuffBits, if_neg Bool.false_ne_true, ih]

/-- Zeros after the stuffed bits are the zeros after the data, stuffed: padding is like more data. -/
theorem stuffBits_append_replicate_false (run k : Nat) (bits : List Bool) :
    stuffBits run (bits ++ List.replicate k false) = stuffBits run bits ++ List.replicate k false := by
  fun_induction stuffBits run bits with
  | case1 run => exact stuffBits_replicate_false run k
  | case2 run rest hseven ih =>
    rw [List.cons_append, stuffBits, if_pos rfl, if_pos hseven, ih, List.cons_append, List.cons_append]
  | case3 run rest hseven ih =>
    rw [List.cons_append, stuffBits, if_pos rfl, if_neg hseven, ih, List.cons_append]
  | case4 run b rest hb ih =>
    rw [List.cons_append, stuffBits, if_neg hb, ih, List.cons_append]

/-! ### The number of stuffing bits (R134) -/

theorem length_le_stuffBits_length (run : Nat) (bits : List Bool) : bits.length ≤ (stuffBits run bits).length := by
  fun_induction stuffBits run bits <;> simp only [List.length_cons, List.length_nil] <;> omega

/-- Each stuffing bit takes seven 1s, those of the run counted. -/
theorem stuffBits_length_le (hrun : run < 7) : (stuffBits run bits).length ≤ bits.length + (run + bits.length) / 7 := by
  fun_induction stuffBits run bits with
  | case1 => exact Nat.zero_le _
  | case2 run rest hseven ih =>
    have hrest := ih (by decide)
    have hseven : run + 1 = 7 := hseven
    simp only [List.length_cons]
    omega
  | case3 run rest hseven ih =>
    have hrest := ih (lt_of_le_of_ne hrun hseven)
    simp only [List.length_cons]
    omega
  | case4 run b rest hb ih =>
    have hrest := ih (by decide)
    simp only [List.length_cons]
    omega

/-! ### Runs of 1 bits (R132) -/

/-- A run of `n` 1s does not begin in a shorter run of 1s that a 0 ends: it lies behind that 0. -/
theorem infix_of_infix_replicate_append {n r : Nat} (hr : r < n)
    (h : List.replicate n true <:+: List.replicate r true ++ false :: bits) : List.replicate n true <:+: bits := by
  induction r with
  | zero =>
    obtain ⟨n, rfl⟩ : ∃ m, n = m + 1 := ⟨n - 1, by omega⟩
    rw [List.replicate_zero, List.nil_append, List.infix_cons_iff, List.replicate_succ, List.cons_prefix_cons] at h
    exact h.resolve_left fun hp => absurd hp.1 (by decide)
  | succ r ih =>
    rw [List.replicate_succ, List.cons_append, List.infix_cons_iff, ← List.cons_append, ← List.replicate_succ] at h
    refine ih (by omega) (h.resolve_left fun hp => ?_)
    have hbit := hp.getElem (i := r + 1) (by rwa [List.length_replicate])
    simp at hbit

/-- Stuffed bits after a run of fewer than seven 1s hold no eight 1s in a row, those of the run counted. -/
theorem not_eight_ones_infix_stuffBits (hrun : run < 7) :
    ¬ List.replicate 8 true <:+: List.replicate run true ++ stuffBits run bits := by
  fun_induction stuffBits run bits with
  | case1 run =>
    intro h
    have := h.length_le
    simp only [List.length_append, List.length_replicate, List.length_nil] at this
    omega
  | case2 run rest hseven ih =>
    rw [List.append_cons, ← List.replicate_succ', hseven]
    exact fun h => ih (by decide) (infix_of_infix_replicate_append (by decide) h)
  | case3 run rest hseven ih =>
    rw [List.append_cons, ← List.replicate_succ']
    exact ih (lt_of_le_of_ne hrun hseven)
  | case4 run b rest hb ih =>
    exact fun h => ih (by decide) (infix_of_infix_replicate_append (by omega) h)

/-! ### The stuffed bytes (R131, R134) -/

/-- A bit string filled to whole bytes is the bits of its bytes. -/
theorem bitsOfBytes_bytesOfBits_padTo8 (bits : List Bool) : bitsOfBytes (bytesOfBits (padTo8 bits)) = padTo8 bits :=
  bitsOfBytes_bytesOfBits ((bits.length + 7) / 8) _ (by
    rw [padTo8, List.length_append, List.length_replicate]
    omega)

theorem stuff_eq_cons (bs : List Byte) : stuff bs = Config.startByte :: (stuff bs).tail := by
  rw [stuff, padTo8, List.append_assoc, bytesOfBits_append _ _ (bitsOf_length 8 _)]
  rfl

/-- Behind the start byte stand the stuffed bits of the data and of the fewer than eight zeros of the padding. -/
theorem bitsOfBytes_stuff_tail (bs : List Byte) :
    ∃ k < 8, bitsOfBytes (stuff bs).tail = stuffBits 0 (bitsOfBytes bs ++ List.replicate k false) := by
  have hbits : bitsOfBytes (stuff bs) = padTo8 (bitsOf 8 Config.startByte.toNat ++ stuffBits 0 (bitsOfBytes bs)) :=
    bitsOfBytes_bytesOfBits_padTo8 _
  rw [stuff_eq_cons, bitsOfBytes_cons, padTo8, List.append_assoc, List.append_cancel_left_eq] at hbits
  exact ⟨_, Nat.mod_lt _ (by decide), hbits.trans (stuffBits_append_replicate_false ..).symm⟩

/-- The start byte, and the stuffed bits in whole bytes. -/
theorem stuff_length (bs : List Byte) : (stuff bs).length = 1 + ((stuffBits 0 (bitsOfBytes bs)).length + 7) / 8 := by
  obtain ⟨k, hk, hbits⟩ := bitsOfBytes_stuff_tail bs
  have hlen := congrArg List.length hbits
  rw [stuffBits_append_replicate_false, List.length_append, List.length_replicate, bitsOfBytes_length] at hlen
  rw [stuff_eq_cons, List.length_cons]
  omega

/-- What a full table buffer is stuffed to has at most 75 bytes. -/
theorem stuff_length_le {bs : List Byte} (h : bs.length ≤ 64) : (stuff bs).length ≤ 75 := by
  have hmax := stuffBits_length_le (bits := bitsOfBytes bs) (run := 0) (by decide)
  rw [bitsOfBytes_length] at hmax
  rw [stuff_length]
  omega

/-- Unstuffing gives back the data and the padding, whose bits make no byte (R138). -/
theorem unstuff_stuff_tail (bs : List Byte) : unstuff (stuff bs).tail = bs := by
  obtain ⟨k, hk, hbits⟩ := bitsOfBytes_stuff_tail bs
  rw [unstuff, hbits, unstuffBits_stuffBits (by decide)]
  exact bytesOfBits_bitsOfBytes bs _ (by rwa [List.length_replicate])

end Sys2Proof.Machine
end

section
/-! SUPPORT. What STUFF and UNSTUFF answer (41_bit_stuffer.md R133, R136, R137), and a buffer replaced by bytes. -/

namespace Sys2Proof.Machine

variable {s : State}

/-! ### The bytes of a buffer -/

@[simp] theorem Buffer.bytes_length (b : Buffer) : b.bytes.length = b.len := by simp [Buffer.bytes, Memory.bytes]

theorem Buffer.bytes_eq_nil {b : Buffer} (h : b.len = 0) : b.bytes = [] :=
  List.length_eq_zero_iff.1 (b.bytes_length.trans h)

/-- The first byte of a buffer that is not empty is the one at index 0. -/
theorem Buffer.bytes_eq_cons {b : Buffer} (h : b.len ≠ 0) : b.bytes = b.mem.read 0 :: b.bytes.tail := by
  obtain ⟨n, hn⟩ := Nat.exists_eq_succ_of_ne_zero h
  rw [Buffer.bytes, Memory.bytes, hn, List.range_succ_eq_map]
  rfl

/-- A command that replaces a buffer by bytes and completes gives that buffer and changes nothing else. -/
theorem done_setBuf_ofBytes_givesBuffer (s : State) (b : Buf) (out : List Byte) :
    GivesBuffer s (s.setBuf b (Buffer.ofBytes out)).done b out.length fun a => out.getD a 0 := by
  refine ⟨?_, fun a => ?_, ?_⟩
  · rw [State.buf_done, State.buf_setBuf_self]
    rfl
  · rw [State.buf_done, State.buf_setBuf_self]
    exact Memory.read_ofBytes 0 a out
  · cases b <;> rfl

/-! ### STUFF (R133) -/

/-- STUFF never raises: every table buffer's stuffed bytes fit. -/
theorem exec_stuff (h : s.tb.wf 64 = true) :
    exec .stuff s = complete (s.setBuf .sb (Buffer.ofBytes (stuff s.tb.bytes))) := by
  obtain ⟨-, hlen, -⟩ := (Buffer.wf_iff _ _).1 h
  have hfits := stuff_length_le (bs := s.tb.bytes) (by rwa [Buffer.bytes_length])
  show execStuff s = _
  rw [execStuff, if_neg (by simp only [Config.sbCap]; omega)]
  rfl

/-! ### UNSTUFF (R136, R137) -/

theorem exec_unstuff_of_empty (h : s.sb.len = 0) : exec .unstuff s = raise s (startSymbolError 0x100) := by
  show execUnstuff s = _
  rw [execUnstuff, Buffer.bytes_eq_nil h]

variable {first : Byte} {rest : List Byte}

theorem exec_unstuff_of_wrong_start (h : s.sb.bytes = first :: rest) (hfirst : first ≠ Config.startByte) :
    exec .unstuff s = raise s (startSymbolError first.toNat) := by
  show execUnstuff s = _
  rw [execUnstuff, h]
  exact if_pos hfirst

theorem exec_unstuff_of_too_long (h : s.sb.bytes = Config.startByte :: rest) (hlong : 64 < (unstuff rest).length) :
    exec .unstuff s = raise s (bufferBounds .tb (unstuff rest).length 64) := by
  show execUnstuff s = _
  rw [execUnstuff, h]
  exact (if_neg (not_not.2 rfl)).trans (if_pos hlong)

theorem exec_unstuff_of_fits (h : s.sb.bytes = Config.startByte :: rest) (hfits : (unstuff rest).length ≤ 64) :
    exec .unstuff s = complete (s.setBuf .tb (Buffer.ofBytes (unstuff rest))) := by
  show execUnstuff s = _
  rw [execUnstuff, h]
  exact (if_neg (not_not.2 rfl)).trans (if_neg hfits.not_gt)

theorem raise_startSymbolError (s : State) (found : Nat) :
    raise s (startSymbolError found) = .next (failed s 5 0 63 0 (BitVec.ofNat 64 found) 0 0) :=
  raise_eq_failed s _ (by decide : 0 < 256) (by decide : 63 < 64) (by decide : 0 < 16)

theorem raise_bufferBounds (s : State) (b : Buf) (i limit : Nat) :
    raise s (bufferBounds b i limit) =
      .next (failed s 10 (bufSub b) 63 0 (BitVec.ofNat 64 i) (BitVec.ofNat 64 limit) 0) :=
  raise_eq_failed s _ (by cases b <;> decide : bufSub b < 256) (by decide : 63 < 64) (by decide : 0 < 16)

end Sys2Proof.Machine
end

section
/-! SUPPORT. The statements on STUFF and UNSTUFF. -/

namespace Sys2Proof.Proofs

open Sys2Proof Sys2Proof.Machine

/-- Settles O37: the stuffed stream of a table buffer fits the stream buffer, and a buffer is the one made from its bytes. -/
theorem stuffThenUnstuffRestores : Obligations.StuffThenUnstuffRestores := by
  refine ⟨unstuff_stuff_tail, fun s h => ?_⟩
  obtain ⟨-, hlen, -⟩ := (Buffer.wf_iff _ _).1 h
  have hstart : (s.setBuf .sb (Buffer.ofBytes (stuff s.tb.bytes))).done.sb.bytes =
      Config.startByte :: (stuff s.tb.bytes).tail := (Buffer.bytes_ofBytes _).trans (stuff_eq_cons _)
  have hout : (unstuff (stuff s.tb.bytes).tail).length ≤ 64 := by rwa [unstuff_stuff_tail, Buffer.bytes_length]
  refine ⟨_, _, exec_stuff h, exec_unstuff_of_fits hstart hout, rfl, ?_⟩
  show Buffer.ofBytes (unstuff (stuff s.tb.bytes).tail) = s.tb
  rw [unstuff_stuff_tail, Buffer.ofBytes_bytes 64 _ h]

/-- Settles O34: at most 585 stuffed bits, each run of seven 1s paying for its stuffing bit. -/
theorem stuffFillsStreamBuffer : Obligations.StuffFillsStreamBuffer := by
  intro s h stuffed k
  obtain ⟨-, hlen, -⟩ := (Buffer.wf_iff _ _).1 h
  have hbytes : (stuff s.tb.bytes).length ≤ 75 := stuff_length_le (by rwa [Buffer.bytes_length])
  have hmin : 8 * s.tb.len ≤ stuffed.length := by
    simpa using length_le_stuffBits_length 0 (bitsOfBytes s.tb.bytes)
  have hmax : stuffed.length ≤ 8 * s.tb.len + 8 * s.tb.len / 7 := by
    simpa using stuffBits_length_le (bits := bitsOfBytes s.tb.bytes) (by decide : 0 < 7)
  have hk : stuffed.length = 8 * s.tb.len + k := (Nat.add_sub_cancel' hmin).symm
  refine ⟨_, exec_stuff h, rfl, Buffer.bytes_ofBytes _, Buffer.ofBytes_wf 80 _ (by omega), hk, by omega, ?_, hbytes⟩
  rw [← hk]
  exact stuff_length _

/-- Settles O35: the bits after the start byte are stuffed bits, from the run 0 on. -/
theorem stuffedRunsAreShort : Obligations.StuffedRunsAreShort := by
  intro bs
  obtain ⟨k, -, hbits⟩ := bitsOfBytes_stuff_tail bs
  rw [stuff_eq_cons, bitsOfBytes_cons, List.drop_left' (bitsOf_length 8 _), hbits]
  exact not_eight_ones_infix_stuffBits (run := 0) (by decide)

/-- Settles O36: a buffer with a length has its first byte at index 0, and the refusals are tested in the statement's order. -/
theorem unstuffReadsStreamBuffer : Obligations.UnstuffReadsStreamBuffer := by
  intro s out
  split_ifs with hempty hfirst hlong
  · exact (exec_unstuff_of_empty hempty).trans (raise_startSymbolError s _)
  all_goals have hbytes := Buffer.bytes_eq_cons hempty
  · rw [exec_unstuff_of_wrong_start hbytes hfirst, raise_startSymbolError, BitVec.ofNat_toNat]
  all_goals rw [not_not.1 hfirst] at hbytes
  · exact (exec_unstuff_of_too_long hbytes hlong).trans (raise_bufferBounds s .tb _ _)
  · have hfits : out.length ≤ 64 := not_lt.1 hlong
    exact ⟨_, exec_unstuff_of_fits hbytes hfits, done_setBuf_ofBytes_givesBuffer s .tb out, Buffer.ofBytes_wf 64 _ hfits⟩

end Sys2Proof.Proofs
end

section
/-! SUPPORT. The checksums (42_crc_framing.md R146, R147): a step of the register loses nothing, so two registers that differ once
differ ever after, and one changed byte changes the checksum. -/

namespace Sys2Proof.Machine

variable {w : Nat} {poly : BitVec w}

/-! ### One step of the register -/

@[simp] theorem crcStep_zero (poly : BitVec w) : crcStep poly 0 = 0 := by simp [crcStep]

theorem getLsbD_crcStep (poly c : BitVec w) (i : Nat) :
    (crcStep poly c).getLsbD i = (c.getLsbD (i + 1) ^^ (c.getLsbD 0 && poly.getLsbD i)) := by
  unfold crcStep
  cases hlow : c.getLsbD 0 <;> simp [Nat.add_comm]

/-- The bit that fell out stands in the top bit of the new register, and every other bit one place lower. -/
theorem crcStep_injective (hpoly : poly.msb = true) : Function.Injective (crcStep poly) := by
  intro c d h
  have hbits : ∀ i, (c.getLsbD (i + 1) ^^ (c.getLsbD 0 && poly.getLsbD i)) =
      (d.getLsbD (i + 1) ^^ (d.getLsbD 0 && poly.getLsbD i)) := fun i => by
    rw [← getLsbD_crcStep, ← getLsbD_crcStep, h]
  have htop : poly.getLsbD (w - 1) = true := by rwa [BitVec.msb_eq_getLsbD_last] at hpoly
  have hw : w - 1 < w := BitVec.lt_of_getLsbD htop
  have hlow : c.getLsbD 0 = d.getLsbD 0 := by
    simpa [htop, Nat.sub_add_cancel (Nat.one_le_of_lt hw)] using hbits (w - 1)
  apply BitVec.eq_of_getLsbD_eq
  intro i _
  cases i with
  | zero => exact hlow
  | succ i => simpa [hlow] using hbits i

/-! ### One byte into the register -/

theorem setWidth_injective {k : Nat} (h : w ≤ k) : Function.Injective (BitVec.setWidth k : BitVec w → BitVec k) := by
  intro a b hab
  have hnum := congrArg BitVec.toNat hab
  rw [BitVec.toNat_setWidth_of_le h, BitVec.toNat_setWidth_of_le h] at hnum
  exact BitVec.eq_of_toNat_eq hnum

theorem crcByte_eq_iterate (poly c : BitVec w) (b : Byte) : crcByte poly c b = (crcStep poly)^[8] (c ^^^ b.setWidth w) := rfl

/-- A byte into a register that equals it leaves 0. -/
theorem crcByte_self (poly c : Byte) : crcByte poly c c = 0 := by
  rw [crcByte_eq_iterate, BitVec.setWidth_eq, BitVec.xor_self]
  exact Function.iterate_fixed (crcStep_zero poly) 8

theorem crcByte_injective (hpoly : poly.msb = true) (b : Byte) : Function.Injective (crcByte poly · b) := fun _ _ h =>
  (BitVec.xor_left_inj _).1 ((crcStep_injective hpoly).iterate 8 h)

theorem crcByte_byte_injective (hpoly : poly.msb = true) (hw : 8 ≤ w) (c : BitVec w) : Function.Injective (crcByte poly c) := by
  intro a b h
  have hwide : a.setWidth w = b.setWidth w := (BitVec.xor_right_inj _).1 ((crcStep_injective hpoly).iterate 8 h)
  exact setWidth_injective hw hwide

/-! ### The bytes of a memory -/

theorem Memory.bytes_succ (m : Memory) (n : Nat) : m.bytes (n + 1) = m.bytes n ++ [m.read n] := by
  simp [Memory.bytes, List.range_succ]

theorem Memory.bytes_congr {m m' : Memory} {n : Nat} (h : ∀ a, a < n → m.read a = m'.read a) : m.bytes n = m'.bytes n :=
  List.map_congr_left fun a ha => h a (List.mem_range.1 ha)

/-- Two memories that differ in one byte: the registers agree before it, differ after it, and every further byte, the same for
both, keeps them different (R157). -/
theorem foldl_crcByte_bytes_ne {m m' : Memory} {i n : Nat} (hpoly : poly.msb = true) (hw : 8 ≤ w) (c : BitVec w)
    (hne : m.read i ≠ m'.read i) (hsame : ∀ a, a ≠ i → m.read a = m'.read a) (hi : i < n) :
    (m.bytes n).foldl (crcByte poly) c ≠ (m'.bytes n).foldl (crcByte poly) c := by
  induction n with
  | zero => omega
  | succ n ih =>
    simp only [Memory.bytes_succ, List.foldl_append, List.foldl_cons, List.foldl_nil]
    rcases Nat.lt_succ_iff_lt_or_eq.1 hi with hlt | rfl
    · rw [hsame n (by omega)]
      exact (crcByte_injective hpoly _).ne (ih hlt)
    · rw [Memory.bytes_congr fun a ha => hsame a (by omega)]
      exact (crcByte_byte_injective hpoly hw _).ne hne

end Sys2Proof.Machine
end

section
/-! SUPPORT. The checksum of a body as bytes and as a number (42_crc_framing.md R150 to R153), and the frame FRGEN builds. -/

namespace Sys2Proof.Machine

variable {v : Nat} {m m' : Memory}

/-! ### The checksum as a number -/

theorem bodyLen_pos (v : Nat) : 0 < Config.bodyLen v := by unfold Config.bodyLen; split_ifs <;> decide

theorem toNat_high_low (hi lo : Byte) : (hi.setWidth 64 * 256 + lo.setWidth 64 : Word).toNat = natOfBytes [hi, lo] := by
  have hhi := hi.isLt
  have hlo := lo.isLt
  have h256 : (256 : Word).toNat = 256 := rfl
  rw [BitVec.toNat_add, BitVec.toNat_mul, h256, BitVec.toNat_setWidth_of_le (by decide),
    BitVec.toNat_setWidth_of_le (by decide)]
  simp only [natOfBytes, List.foldl_cons, List.foldl_nil]
  omega

theorem natOfBytes_high_low (c : BitVec 16) : natOfBytes [c.extractLsb' 8 8, c.extractLsb' 0 8] = c.toNat := by
  have hc := c.isLt
  simp only [natOfBytes, List.foldl_cons, List.foldl_nil, BitVec.extractLsb'_toNat, Nat.shiftRight_eq_div_pow]
  omega

/-- The checksum bytes, high byte first, are the checksum the statements name. -/
theorem natOfBytes_checksumBytes (v : Nat) (m : Memory) : natOfBytes (checksumBytes v m) = (computedChecksum v m).toNat := by
  unfold checksumBytes computedChecksum
  by_cases hv : v = 1
  · subst hv
    rw [if_pos rfl, if_pos rfl, BitVec.toNat_setWidth_of_le (by decide)]
    exact Nat.zero_add _
  · rw [if_neg hv, if_neg hv, BitVec.toNat_setWidth_of_le (by decide)]
    exact natOfBytes_high_low _

/-- The bytes after the body are the checksum found in the frame. -/
theorem natOfBytes_bytesAt (v : Nat) (m : Memory) :
    natOfBytes (m.bytesAt (Config.bodyLen v) (Config.crcw v)) = (foundChecksum v m).toNat := by
  unfold foundChecksum Config.crcw
  by_cases hv : v = 1
  · subst hv
    rw [if_pos rfl, if_pos rfl, BitVec.toNat_setWidth_of_le (by decide)]
    exact Nat.zero_add _
  · rw [if_neg hv, if_neg hv, toNat_high_low]
    rfl

theorem computedChecksum_congr (h : ∀ a, a < Config.bodyLen v → m.read a = m'.read a) :
    computedChecksum v m = computedChecksum v m' := by
  have hbytes := Memory.bytes_congr h
  unfold computedChecksum
  split_ifs with hv
  · subst hv
    rw [show m.bytes 30 = m'.bytes 30 from hbytes]
  · rw [hbytes]

theorem foundChecksum_congr (h : ∀ a, Config.bodyLen v ≤ a → m.read a = m'.read a) :
    foundChecksum v m = foundChecksum v m' := by
  unfold foundChecksum
  split_ifs with hv
  · subst hv
    rw [h 30 (by decide)]
  · rw [h _ le_rfl, h _ (Nat.le_succ _)]

/-- A change of one byte of the body changes its checksum (R157). -/
theorem computedChecksum_ne {i : Nat} (hne : m.read i ≠ m'.read i) (hsame : ∀ a, a ≠ i → m.read a = m'.read a)
    (hi : i < Config.bodyLen v) : computedChecksum v m ≠ computedChecksum v m' := by
  unfold computedChecksum
  split_ifs with hv
  · subst hv
    exact (setWidth_injective (by decide)).ne (foldl_crcByte_bytes_ne (by decide) (by decide) _ hne hsame hi)
  · exact (setWidth_injective (by decide)).ne (foldl_crcByte_bytes_ne (by decide) (by decide) _ hne hsame hi)

/-! ### The frame of a body (R150, R152) -/

/-- What FRGEN makes of a buffer that holds a body of version `v`. -/
def frameOf (v : Nat) (m : Memory) : Buffer :=
  ⟨m.writeBytes (Config.bodyLen v) (checksumBytes v m), Config.frameLen v⟩

theorem frameOf_wf {b : Buffer} (h : b.wf 64 = true) (hlen : b.len = Config.bodyLen v) : (frameOf v b.mem).wf 64 = true := by
  have hframe : frameOf v b.mem = ⟨b.mem.writeBytes b.len (checksumBytes v b.mem), b.len + (checksumBytes v b.mem).length⟩ := by
    rw [hlen, checksumBytes_length]
    rfl
  rw [hframe]
  refine Buffer.extend_wf 64 b _ h ?_
  rw [hlen, checksumBytes_length]
  exact frameLen_le v

theorem frameOf_mem_wf (v : Nat) (h : m.wf = true) : (frameOf v m).mem.wf = true := Memory.writeBytes_wf _ _ _ h

theorem read_frameOf_of_lt (h : m.wf = true) {a : Nat} (ha : a < Config.bodyLen v) : (frameOf v m).mem.read a = m.read a := by
  rw [frameOf, Memory.read_writeBytes _ _ _ _ h, if_neg (by omega)]

theorem version_frameOf (h : m.wf = true) (hv : (m.read 0).toNat = v) : ((frameOf v m).mem.read 0).toNat = v := by
  rw [read_frameOf_of_lt h (bodyLen_pos v), hv]

/-- The bytes written in a row, read again. -/
theorem Memory.bytesAt_writeBytes (h : m.wf = true) (a : Nat) (bs : List Byte) : (m.writeBytes a bs).bytesAt a bs.length = bs := by
  apply List.ext_getElem
  · simp [Memory.bytesAt]
  · intro i _ hi
    simp [Memory.bytesAt, Memory.read_writeBytes _ _ _ _ h, hi]

theorem computedChecksum_frameOf (h : m.wf = true) : computedChecksum v (frameOf v m).mem = computedChecksum v m :=
  computedChecksum_congr fun _ => read_frameOf_of_lt h

/-- The frame carries the checksum of its body. -/
theorem foundChecksum_frameOf (h : m.wf = true) : foundChecksum v (frameOf v m).mem = computedChecksum v m := by
  apply BitVec.eq_of_toNat_eq
  rw [← natOfBytes_bytesAt, ← natOfBytes_checksumBytes, ← checksumBytes_length v m]
  exact congrArg natOfBytes (Memory.bytesAt_writeBytes h _ _)

/-- The frame of version 1: one byte after the body (R150). -/
theorem read_frameOf_one (h : m.wf = true) (a : Nat) :
    (frameOf 1 m).mem.read a = if a = 30 then crc8 (m.bytes 30) else m.read a := Memory.read_write m 30 a _ h

/-- The frame of any other version: two bytes after the body, the high one first (R151). -/
theorem read_frameOf_of_ne_one (hv : v ≠ 1) (h : m.wf = true) (a : Nat) :
    (frameOf v m).mem.read a =
      if a = Config.bodyLen v then (crc16 (m.bytes (Config.bodyLen v))).extractLsb' 8 8
      else if a = Config.bodyLen v + 1 then (crc16 (m.bytes (Config.bodyLen v))).extractLsb' 0 8
      else m.read a := by
  rw [frameOf, checksumBytes, if_neg hv]
  simp only [Memory.writeBytes, Memory.read_write _ _ _ _ (Memory.write_wf _ _ _ h), Memory.read_write _ _ _ _ h]
  by_cases ha : a = Config.bodyLen v <;> simp [ha]

/-- One byte of the body overwritten in a frame: the checksum computed over it is no longer the one the frame carries (R157). -/
theorem checksums_ne_of_overwritten_frame {i : Nat} {b : Byte} (h : m.wf = true) (hi : i < Config.bodyLen v)
    (hb : b ≠ m.read i) :
    computedChecksum v ((frameOf v m).mem.write i b) ≠ foundChecksum v ((frameOf v m).mem.write i b) := by
  have hread := fun a => Memory.read_write _ i a b (frameOf_mem_wf v h)
  have hcomputed : computedChecksum v ((frameOf v m).mem.write i b) ≠ computedChecksum v (frameOf v m).mem := by
    refine computedChecksum_ne (i := i) ?_ (fun a ha => by rw [hread, if_neg ha]) hi
    rwa [hread, if_pos rfl, read_frameOf_of_lt h hi]
  have hfound : foundChecksum v ((frameOf v m).mem.write i b) = foundChecksum v (frameOf v m).mem :=
    foundChecksum_congr fun a ha => by rw [hread, if_neg (by omega)]
  rwa [hfound, foundChecksum_frameOf h, ← computedChecksum_frameOf h]

end Sys2Proof.Machine
end

section
/-! SUPPORT. What FRGEN and FRCHK answer (42_crc_framing.md R152, R154), case by case in the order of their tests. -/

namespace Sys2Proof.Machine

variable {s : State} {v : Nat}

/-! ### Raises and buffer writes as the statements write them -/

theorem raise_frameLength (s : State) (required present : Nat) :
    raise s (frameLength required present) =
      .next (failed s 2 0 63 0 (BitVec.ofNat 64 required) (BitVec.ofNat 64 present) 0) :=
  raise_eq_failed s _ (by decide : 0 < 256) (by decide : 63 < 64) (by decide : 0 < 16)

theorem raise_unsupportedVersion (s : State) (v : Nat) :
    raise s (unsupportedVersion v) = .next (failed s 4 1 0 0 (BitVec.ofNat 64 v) 0 0) :=
  raise_eq_failed s _ (by decide : 1 < 256) (by decide : 0 < 64) (by decide : 0 < 16)

theorem raise_crcError (s : State) (expected received : Word) :
    raise s (crcError expected.toNat received.toNat) = .next (failed s 3 0 63 0 expected received 0) := by
  rw [raise_eq_failed s _ (by decide : 0 < 256) (by decide : 63 < 64) (by decide : 0 < 16)]
  simp only [crcError, wordOfNat, BitVec.ofNat_toNat, BitVec.setWidth_eq]
  rfl

/-- A command that replaces a buffer and completes gives that buffer and changes nothing else. -/
theorem complete_setBuf_givesBuffer (s : State) (b : Buf) (new : Buffer) {content : Nat → Byte}
    (h : ∀ a, new.mem.read a = content a) :
    ∃ t, complete (s.setBuf b new) = .next t ∧ GivesBuffer s t b new.len content := by
  refine ⟨_, rfl, ?_, fun a => ?_, ?_⟩
  · rw [State.buf_done, State.buf_setBuf_self]
  · rw [State.buf_done, State.buf_setBuf_self]
    exact h a
  · cases b <;> rfl

/-! ### FRGEN (R152) -/

theorem exec_frgen_of_empty (h : s.tb.len = 0) : exec .frgen s = raise s (frameLength 1 0) := if_pos h

theorem exec_frgen_of_version_zero (hlen : s.tb.len ≠ 0) (hv : (s.tb.mem.read 0).toNat = 0) :
    exec .frgen s = raise s (unsupportedVersion 0) := (if_neg hlen).trans (if_pos hv)

theorem exec_frgen_of_wrong_length (hlen : s.tb.len ≠ 0) (hv : (s.tb.mem.read 0).toNat = v) (hv0 : v ≠ 0)
    (hbody : s.tb.len ≠ Config.bodyLen v) :
    exec .frgen s = raise s (frameLength (Config.bodyLen v) s.tb.len) := by
  subst hv
  exact (if_neg hlen).trans ((if_neg hv0).trans (if_pos hbody))

theorem exec_frgen_of_body (hv : (s.tb.mem.read 0).toNat = v) (hv0 : v ≠ 0) (hbody : s.tb.len = Config.bodyLen v) :
    exec .frgen s = complete (s.setBuf .tb (frameOf v s.tb.mem)) := by
  have hlen : s.tb.len ≠ 0 := hbody ▸ (bodyLen_pos v).ne'
  subst hv
  exact (if_neg hlen).trans ((if_neg hv0).trans (if_neg (not_not.2 hbody)))

/-! ### FRCHK (R154) -/

theorem exec_frchk_of_empty (h : s.tb.len = 0) : exec .frchk s = raise s (frameLength 1 0) := if_pos h

theorem exec_frchk_of_version_zero (hlen : s.tb.len ≠ 0) (hv : (s.tb.mem.read 0).toNat = 0) :
    exec .frchk s = raise s (unsupportedVersion 0) := (if_neg hlen).trans (if_pos hv)

theorem exec_frchk_of_short (hlen : s.tb.len ≠ 0) (hv : (s.tb.mem.read 0).toNat = v) (hv0 : v ≠ 0)
    (hshort : s.tb.len < Config.frameLen v) :
    exec .frchk s = raise s (frameLength (Config.frameLen v) s.tb.len) := by
  subst hv
  exact (if_neg hlen).trans ((if_neg hv0).trans (if_pos hshort))

/-- FRCHK on a whole frame compares the two checksums of the statements. -/
theorem exec_frchk_of_frame (hv : (s.tb.mem.read 0).toNat = v) (hv0 : v ≠ 0) (hframe : Config.frameLen v ≤ s.tb.len) :
    exec .frchk s =
      if computedChecksum v s.tb.mem ≠ foundChecksum v s.tb.mem then
        raise s (crcError (computedChecksum v s.tb.mem).toNat (foundChecksum v s.tb.mem).toNat)
      else complete (s.setBuf .tb ⟨s.tb.mem.clear (Config.bodyLen v) s.tb.len, Config.bodyLen v⟩) := by
  have hlen : s.tb.len ≠ 0 := by
    have hpos := bodyLen_pos v
    rw [Config.frameLen] at hframe
    omega
  subst hv
  refine (if_neg hlen).trans ((if_neg hv0).trans ((if_neg hframe.not_gt).trans ?_))
  simp only [natOfBytes_checksumBytes, natOfBytes_bytesAt, ne_eq, BitVec.toNat_inj]
  rfl

/-! ### STB below the length (45_system_and_buffer.md R267) -/

theorem exec_stb_of_lt {ra rb : Reg} {b : Buf} {off i : Nat} (hi : bufIndex s ra off = i) (hlt : i < (s.buf b).len) :
    exec (.stb ra rb b off) s =
      complete (s.setBuf b ⟨(s.buf b).mem.write i ((s.readX rb).setWidth 8), (s.buf b).len⟩) := by
  subst hi
  exact if_neg hlt.not_ge

end Sys2Proof.Machine
end

section
/-! SUPPORT. The statements on CRC framing. -/

namespace Sys2Proof.Proofs

open Sys2Proof Sys2Proof.Machine

/-- Settles O38: the count is the register's word, so BufferBounds reports the register itself. -/
theorem crcCommandsReadPrefix : Obligations.CrcCommandsReadPrefix := by
  intro rd ra s
  split_ifs with hn
  · have hcrc8 : exec (.crc8 rd ra) s = complete (s.writeX rd _) := if_neg hn.not_gt
    have hcrc16 : exec (.crc16 rd ra) s = complete (s.writeX rd _) := if_neg hn.not_gt
    rw [hcrc8, hcrc16]
    exact ⟨complete_writeX_givesResult .., complete_writeX_givesResult ..⟩
  · have hraise : raise s (bufferBounds .tb (s.readX ra).toNat s.tb.len) =
        .next (failed s 10 0 63 0 (s.readX ra) (BitVec.ofNat 64 s.tb.len) 0) := by
      rw [raise_bufferBounds, BitVec.ofNat_toNat, BitVec.setWidth_eq]
      rfl
    exact ⟨(if_pos (not_le.1 hn)).trans hraise, (if_pos (not_le.1 hn)).trans hraise⟩

/-- Settles O39: the last byte meets a register equal to it. -/
theorem crc8ResidueIsZero : Obligations.Crc8ResidueIsZero := by
  intro bs
  rw [crc8, List.foldl_append]
  exact crcByte_self 0xE0 (crc8 bs)

/-- Settles O40: the refusals in the order of FRGEN's tests, then the frame byte by byte. -/
theorem frgenAppendsChecksum : Obligations.FrgenAppendsChecksum := by
  intro s v hwf hv
  obtain ⟨hmem, -, -⟩ := (Buffer.wf_iff _ _).1 hwf
  split_ifs with hempty hzero hlen hone
  · exact (exec_frgen_of_empty hempty).trans (raise_frameLength s 1 0)
  · exact (exec_frgen_of_version_zero hempty (hv.symm.trans hzero)).trans (raise_unsupportedVersion s 0)
  · exact (exec_frgen_of_wrong_length hempty hv.symm hzero hlen).trans (raise_frameLength s _ _)
  all_goals rw [exec_frgen_of_body hv.symm hzero (not_not.1 hlen)]
  · rw [hone]
    exact complete_setBuf_givesBuffer s .tb _ (read_frameOf_one hmem)
  · exact complete_setBuf_givesBuffer s .tb _ (read_frameOf_of_ne_one hone hmem)

/-- Settles O41: the refusals in the order of FRCHK's tests; what the cleared range does not cover beyond the body was zero. -/
theorem frchkValidatesAndStrips : Obligations.FrchkValidatesAndStrips := by
  intro s v hwf hv
  split_ifs with hempty hzero hshort hcrc
  · exact (exec_frchk_of_empty hempty).trans (raise_frameLength s 1 0)
  · exact (exec_frchk_of_version_zero hempty (hv.symm.trans hzero)).trans (raise_unsupportedVersion s 0)
  · exact (exec_frchk_of_short hempty hv.symm hzero hshort).trans (raise_frameLength s _ _)
  · rw [exec_frchk_of_frame hv.symm hzero (not_lt.1 hshort), if_pos hcrc]
    exact raise_crcError s _ _
  · rw [exec_frchk_of_frame hv.symm hzero (not_lt.1 hshort), if_neg hcrc]
    refine complete_setBuf_givesBuffer s .tb _ fun a => ?_
    rw [Memory.read_clear]
    split_ifs with hcut hbody hbody
    · omega
    · rfl
    · rfl
    · exact Buffer.read_of_ge 64 _ hwf a (by omega)

/-- Settles O42: the frame carries the checksum of its body, and the body is what is left of it. -/
theorem frgenThenFrchkRestores : Obligations.FrgenThenFrchkRestores := by
  intro s hwf hversion hbody
  obtain ⟨hmem, -, -⟩ := (Buffer.wf_iff _ _).1 hwf
  generalize hv : (s.tb.mem.read 0).toNat = v at hbody
  have hv0 : v ≠ 0 := fun h => hversion (BitVec.eq_of_toNat_eq (hv.trans h))
  have hcrc : computedChecksum v (frameOf v s.tb.mem).mem = foundChecksum v (frameOf v s.tb.mem).mem := by
    rw [computedChecksum_frameOf hmem, foundChecksum_frameOf hmem]
  refine ⟨_, _, exec_frgen_of_body hv hv0 hbody,
    (exec_frchk_of_frame (version_frameOf hmem hv) hv0 le_rfl).trans (if_neg (not_not.2 hcrc)), rfl, ?_⟩
  have hframe := frameOf_wf hwf hbody
  refine Buffer.ext_read 64 _ _ (Buffer.truncate_wf 64 _ _ hframe (Nat.le_add_right ..)) hwf hbody.symm fun a ha => ?_
  change a < Config.bodyLen v at ha
  exact (Memory.read_clear ..).trans ((if_neg (by omega)).trans (read_frameOf_of_lt hmem ha))

/-- Settles O43: the byte stored is in the body and is not the version, so FRCHK finds the old checksum and computes another. -/
theorem oneByteCorruptionIsCaught : Obligations.OneByteCorruptionIsCaught := by
  intro s ra rb off hwf hversion hbody hpos hlt hne
  obtain ⟨hmem, -, -⟩ := (Buffer.wf_iff _ _).1 hwf
  generalize hv : (s.tb.mem.read 0).toNat = v at hbody
  have hv0 : v ≠ 0 := fun h => hversion (BitVec.eq_of_toNat_eq (hv.trans h))
  generalize hi : bufIndex s ra off = i at hpos hlt hne
  rw [hbody] at hlt
  have hstb : exec (.stb ra rb .tb off) (s.setBuf .tb (frameOf v s.tb.mem)).done = complete _ :=
    exec_stb_of_lt hi (hlt.trans_le (Nat.le_add_right ..))
  have hversion' : (((frameOf v s.tb.mem).mem.write i ((s.readX rb).setWidth 8)).read 0).toNat = v := by
    rw [Memory.read_write _ _ _ _ (frameOf_mem_wf v hmem), if_neg (by omega), version_frameOf hmem hv]
  have hcrc := checksums_ne_of_overwritten_frame hmem hlt (b := (s.readX rb).setWidth 8)
    (by rwa [BitVec.setWidth_eq_extractLsb' (by decide)])
  exact ⟨_, _, _, exec_frgen_of_body hv hv0 hbody, hstb,
    (exec_frchk_of_frame hversion' hv0 le_rfl).trans (if_pos hcrc), rfl, rfl⟩

end Sys2Proof.Proofs
end

section
/-! SUPPORT. The default LAYOUT (43_table_codec.md R168, R177 to R190): where its lists stand in the ROM, and what a descriptor word
of a body's fields can be. -/

namespace Sys2Proof.Machine

/-! ### Descriptor words -/

/-- The kind of a fixed-point field, signed or not (30_encoding.md R75). -/
def fixKind (sg : Bool) : DescKind := if sg then .fxs else .fxu

/-- A descriptor word that stands for a field of a body, within the bounds of R168, by its kind. -/
inductive FieldWord (w : Word32) : Prop where
  | int (hk : kindOf w = some .int) (hn : 1 ≤ (descOf w).n ∧ (descOf w).n ≤ 32) (hfid : (descOf w).fid < Config.nfid)
  | fix (sg : Bool) (hk : kindOf w = some (fixKind sg)) (hn : 1 ≤ (descOf w).n ∧ (descOf w).n ≤ 32)
      (hsm : 1 ≤ (descOf w).sm) (hfid : (descOf w).fid < Config.nfid)
  | f12 (hk : kindOf w = some .f12) (hn : (descOf w).n = 12) (hfid : (descOf w).fid < Config.nfid)
  | d16 (hk : kindOf w = some .d16) (hn : (descOf w).n = 16) (hfid : (descOf w).fid < Config.nfid)
  | str (hk : kindOf w = some .str) (hn : (descOf w).n = 4 ∨ (descOf w).n = 8) (hfid : (descOf w).fid = 2)
  | rsv (hk : kindOf w = some .rsv) (hn : 1 ≤ (descOf w).n ∧ (descOf w).n ≤ 32)
  | quad (hk : kindOf w = some .quad) (hn : (descOf w).n ≤ 1) (hfid : (descOf w).fid = 13 + 4 * (descOf w).n)
      (hsm : 1 ≤ (descOf w).sm)

/-- `FieldWord` as a test. -/
def isFieldWord (w : Word32) : Bool :=
  let d := descOf w
  match kindOf w with
  | some .int => decide (1 ≤ d.n ∧ d.n ≤ 32 ∧ d.fid < Config.nfid)
  | some .fxu | some .fxs => decide (1 ≤ d.n ∧ d.n ≤ 32 ∧ 1 ≤ d.sm ∧ d.fid < Config.nfid)
  | some .f12 => decide (d.n = 12 ∧ d.fid < Config.nfid)
  | some .d16 => decide (d.n = 16 ∧ d.fid < Config.nfid)
  | some .str => decide ((d.n = 4 ∨ d.n = 8) ∧ d.fid = 2)
  | some .rsv => decide (1 ≤ d.n ∧ d.n ≤ 32)
  | some .quad => decide (d.n ≤ 1 ∧ d.fid = 13 + 4 * d.n ∧ 1 ≤ d.sm)
  | _ => false

theorem fieldWord_of_isFieldWord {w : Word32} (h : isFieldWord w = true) : FieldWord w := by
  unfold isFieldWord at h
  split at h <;> simp only [decide_eq_true_eq, Bool.false_eq_true] at h
  next hk => exact .int hk ⟨h.1, h.2.1⟩ h.2.2
  next hk => exact .fix false hk ⟨h.1, h.2.1⟩ h.2.2.1 h.2.2.2
  next hk => exact .fix true hk ⟨h.1, h.2.1⟩ h.2.2.1 h.2.2.2
  next hk => exact .f12 hk h.1 h.2
  next hk => exact .d16 hk h.1 h.2
  next hk => exact .str hk h.1 h.2
  next hk => exact .rsv hk h
  next hk => exact .quad hk h.1 h.2.1 h.2.2

/-- The scale's exponent is a nibble in two's complement. -/
theorem descOf_se_range (w : Word32) : -8 ≤ (descOf w).se ∧ (descOf w).se ≤ 7 := by
  have h := sx_bounds (w := 4) (r := w.toNat / 268435456 % 16) (by decide) (by omega)
  have hse : (descOf w).se = sx (w.toNat / 268435456 % 16) 4 := rfl
  omega

theorem descOf_sm_le (w : Word32) : (descOf w).sm ≤ 255 := by
  have hsm : (descOf w).sm = w.toNat / 1048576 % 256 := rfl
  omega

/-- The bounds of a descriptor word, as the statement on the layout writes them. -/
theorem FieldWord.bounds {w : Word32} (h : FieldWord w) :
    ∃ k, kindOf w = some k ∧ k ≠ .sw ∧ k ≠ .endK ∧
      (k = .int ∨ k = .fxu ∨ k = .fxs ∨ k = .rsv → 1 ≤ (descOf w).n ∧ (descOf w).n ≤ 32) ∧
      (k = .fxu ∨ k = .fxs ∨ k = .quad → 1 ≤ (descOf w).sm ∧ (descOf w).sm ≤ 255) ∧
      (k = .f12 → (descOf w).n = 12) ∧ (k = .d16 → (descOf w).n = 16) ∧
      (k = .str → ((descOf w).n = 4 ∨ (descOf w).n = 8) ∧ (descOf w).fid = 2) ∧
      (k = .quad → (descOf w).n ≤ 1 ∧ (descOf w).fid = 13 + 4 * (descOf w).n) := by
  have hle := descOf_sm_le w
  cases h with
  | int hk hn | f12 hk hn | d16 hk hn | rsv hk hn => exact ⟨_, hk, by simp [hn]⟩
  | fix sg hk hn hsm => cases sg <;> exact ⟨_, hk, by simp [fixKind, hn, hsm, hle]⟩
  | str hk hn hfid => exact ⟨_, hk, by simp [hn, hfid]⟩
  | quad hk hn hfid hsm => exact ⟨_, hk, by simp [hn, hfid, hsm, hle]⟩

theorem FieldWord.kind {w : Word32} (h : FieldWord w) : ∃ k, kindOf w = some k ∧ k ≠ .sw ∧ k ≠ .endK := by
  obtain ⟨k, hk, hsw, hend, -⟩ := h.bounds
  exact ⟨k, hk, hsw, hend⟩

/-! ### The lists in the ROM (R190) -/

/-- The descriptor words `ws` stand in the ROM from address `a` on. -/
def RomHolds (a : Nat) (ws : List Word32) : Prop := ∀ k, k < ws.length → rom (a + k) = ws.getD k 0

theorem romHolds_cons {a : Nat} {w : Word32} {ws : List Word32} :
    RomHolds a (w :: ws) ↔ rom a = w ∧ RomHolds (a + 1) ws := by
  constructor
  · refine fun h => ⟨h 0 (Nat.succ_pos _), fun k hk => ?_⟩
    rw [Nat.add_assoc, Nat.add_comm 1]
    exact h (k + 1) (Nat.succ_lt_succ hk)
  · rintro ⟨hw, hws⟩ k hk
    cases k with
    | zero => exact hw
    | succ k =>
      rw [Nat.add_comm k, ← Nat.add_assoc, Nat.add_comm 1 k]
      exact hws k (Nat.lt_of_succ_lt_succ hk)

/-- Where the header list of a version begins. -/
def headerAddr (v : Nat) : Nat := (hdrTab v).getD 0

/-- Where the parameter-block list of a version and a sensor type begins. -/
def blockAddr (v st : Nat) : Nat := (blkTab v st).getD 0

/-- The header lists, each before its SW: they begin with the version and name the sensor type. -/
theorem header_check : ∀ v < 6, 1 ≤ v → hdrTab v = some (headerAddr v) ∧
    (∀ k, k < (headerWords v).length → rom (headerAddr v + k) = (headerWords v).getD k 0) ∧
    kindOf (rom (headerAddr v + (headerWords v).length)) = some .sw ∧
    (headerWords v).head? = some 0x00000081 ∧
    4 ∈ (headerWords v).flatMap entriesOf ∧ ((headerWords v).map widthOf).sum % 8 = 0 := by
  decide +kernel

/-- Where the parameter-block lists stand. -/
theorem block_check : ∀ v < 6, 1 ≤ v → ∀ st < 7,
    ∀ k, k < (blockWords v st).length → rom (blockAddr v st + k) = (blockWords v st).getD k 0 := by
  decide +kernel

/-- The ends of the parameter-block lists. -/
theorem blockEnd_check : ∀ v < 6, 1 ≤ v → ∀ st < 7, blkTab v st = some (blockAddr v st) ∧
    kindOf (rom (blockAddr v st + (blockWords v st).length)) = some .endK ∧
    blockAddr v st + (blockWords v st).length < 127 ∧ ((blockWords v st).map widthOf).sum % 8 = 0 := by
  decide +kernel

/-- A body holds its fields, and a walk of them is within its bound. -/
theorem size_check : ∀ v < 6, 1 ≤ v → ∀ st < 7,
    ((fieldWords v st).map widthOf).sum ≤ 8 * Config.bodyLen v ∧
      (headerWords v).length + (blockWords v st).length + 2 ≤ Config.romWords := by
  decide +kernel

/-- No two fields of a body name one entry. -/
theorem entries_check : ∀ v < 6, 1 ≤ v → ∀ st < 7, ((fieldWords v st).flatMap entriesOf).Nodup := by
  decide +kernel

theorem isFieldWord_check : ∀ v < 6, 1 ≤ v → ∀ st < 7, (fieldWords v st).all isFieldWord = true := by
  decide +kernel

variable {v st : Nat}

theorem fieldWord_of_mem (hv : 1 ≤ v ∧ v ≤ 5) (hst : st ≤ 6) : ∀ w ∈ fieldWords v st, FieldWord w := fun w hw =>
  fieldWord_of_isFieldWord (List.all_eq_true.1 (isFieldWord_check v (by omega) hv.1 st (by omega)) w hw)

theorem entries_nodup (hv : 1 ≤ v ∧ v ≤ 5) (hst : st ≤ 6) : ((fieldWords v st).flatMap entriesOf).Nodup :=
  entries_check v (by omega) hv.1 st (by omega)

theorem fields_fit (hv : 1 ≤ v ∧ v ≤ 5) (hst : st ≤ 6) : ((fieldWords v st).map widthOf).sum ≤ 8 * Config.bodyLen v :=
  (size_check v (by omega) hv.1 st (by omega)).1

end Sys2Proof.Machine
end

section
/-! SUPPORT. The statement on the layout. -/

namespace Sys2Proof.Proofs

open Sys2Proof Sys2Proof.Machine

/-- Settles O45: the layout is finite data, and each rule is a test of its lists. -/
theorem layoutIsWellFormed : Obligations.LayoutIsWellFormed := by
  intro v st hv1 hv5 hst
  obtain ⟨hhdr, hrom, hsw, hhead, htype, hbytes⟩ := header_check v (by omega) hv1
  obtain ⟨hblk, hend, hlt, hblockBytes⟩ := blockEnd_check v (by omega) hv1 st (by omega)
  refine ⟨⟨_, _, hhdr, hblk, hrom, hsw, block_check v (by omega) hv1 st (by omega), hend, hlt⟩, hhead, htype, hbytes,
    hblockBytes, fields_fit ⟨hv1, hv5⟩ hst, entries_nodup ⟨hv1, hv5⟩ hst, fun w hw => ?_⟩
  exact (fieldWord_of_mem ⟨hv1, hv5⟩ hst w hw).bounds

end Sys2Proof.Proofs
end

section
/-! SUPPORT. Bit strings cut and joined: a bit string by its value, the digits of a value as bits, the bytes of a body. -/

namespace Sys2Proof.Machine

variable {m n r : Nat} {p : List Bool}

/-- A bit string is known by its length and its value. -/
theorem bitsOf_eq_of_bitsVal (hlen : p.length = n) (hval : bitsVal p = r % 2 ^ n) : bitsOf n r = p := by
  have hmod : bitsOf n (r % 2 ^ n) = bitsOf n r := by
    have h := bitsOf_bitsVal (bitsOf n r)
    rwa [bitsOf_length, bitsVal_bitsOf] at h
  rw [← hmod, ← hval, ← hlen, bitsOf_bitsVal]

theorem bitsVal_append (p q : List Bool) : bitsVal (p ++ q) = bitsVal p * 2 ^ q.length + bitsVal q := by
  rw [bitsVal, bitsValFrom_append, bitsValFrom_eq]
  rfl

/-- The bits of two digits side by side. -/
theorem bitsOf_add (a : Nat) {b : Nat} (hb : b < 2 ^ n) : bitsOf (m + n) (2 ^ n * a + b) = bitsOf m a ++ bitsOf n b := by
  refine bitsOf_eq_of_bitsVal (by simp) ?_
  rw [bitsVal_append, bitsVal_bitsOf, bitsVal_bitsOf, bitsOf_length, Nat.mod_eq_of_lt hb, Nat.add_comm m n, pow_add,
    Nat.mod_mul, Nat.mul_add_mod, Nat.mod_eq_of_lt hb, Nat.mul_add_div (Nat.two_pow_pos n), Nat.div_eq_of_lt hb, Nat.add_zero]
  ring

theorem bitsOf_zero (n : Nat) : bitsOf n 0 = List.replicate n false := by
  induction n with
  | zero => rfl
  | succ n ih => rw [bitsOf, ih, Nat.zero_testBit, List.replicate_succ]

/-- The value of a bit string, split at a place. -/
theorem bitsVal_take_drop (p : List Bool) (k : Nat) :
    bitsVal p = bitsVal (p.take k) * 2 ^ (p.length - k) + bitsVal (p.drop k) := by
  conv_lhs => rw [← List.take_append_drop k p, bitsVal_append, List.length_drop]

theorem bitsVal_drop_lt (p : List Bool) (k : Nat) : bitsVal (p.drop k) < 2 ^ (p.length - k) := by
  have h := bitsVal_lt (p.drop k)
  rwa [List.length_drop] at h

/-- The first bits are the value without its low digits. -/
theorem bitsVal_take (p : List Bool) (k : Nat) : bitsVal (p.take k) = bitsVal p / 2 ^ (p.length - k) := by
  rw [bitsVal_take_drop p k, Nat.mul_comm, Nat.mul_add_div (Nat.two_pow_pos _), Nat.div_eq_of_lt (bitsVal_drop_lt p k),
    Nat.add_zero]

/-- The last bits are the value's low digits. -/
theorem bitsVal_drop (p : List Bool) (k : Nat) : bitsVal (p.drop k) = bitsVal p % 2 ^ (p.length - k) := by
  rw [bitsVal_take_drop p k, Nat.mul_comm, Nat.mul_add_mod, Nat.mod_eq_of_lt (bitsVal_drop_lt p k)]

/-- The bits of a byte string from a byte on are the bits of the bytes from there on. -/
theorem drop_bitsOfBytes (bs : List Byte) (i : Nat) : (bitsOfBytes bs).drop (8 * i) = bitsOfBytes (bs.drop i) := by
  induction i generalizing bs with
  | zero => rfl
  | succ i ih =>
    cases bs with
    | nil => simp [bitsOfBytes]
    | cons b r =>
      rw [bitsOfBytes_cons, List.drop_succ_cons, ← ih r, Nat.mul_succ, Nat.add_comm, ← List.drop_drop,
        List.drop_left' (bitsOf_length 8 _)]

/-- The 8 bits at a byte of a byte string are the byte. -/
theorem bitsVal_byteAt (bs : List Byte) {i : Nat} (hi : i < bs.length) :
    bitsVal (((bitsOfBytes bs).drop (8 * i)).take 8) = bs[i].toNat := by
  rw [drop_bitsOfBytes, List.drop_eq_getElem_cons hi, bitsOfBytes_cons, List.take_left' (bitsOf_length 8 _), bitsVal_bitsOf,
    Nat.mod_eq_of_lt (BitVec.isLt _)]

/-- The 8 bits at a byte of a memory are the byte. -/
theorem bitsVal_byte (mem : Memory) {i : Nat} (hi : i < n) :
    bitsVal (((bitsOfBytes (mem.bytes n)).drop (8 * i)).take 8) = (mem.read i).toNat := by
  rw [bitsVal_byteAt _ (by simpa [Memory.bytes] using hi)]
  simp [Memory.bytes]

/-- The 4 bits at a byte of a memory are its high nibble. -/
theorem bitsVal_nibble (mem : Memory) {i : Nat} (hi : i < n) :
    bitsVal (((bitsOfBytes (mem.bytes n)).drop (8 * i)).take 4) = (mem.read i).toNat / 16 := by
  have hlen : (((bitsOfBytes (mem.bytes n)).drop (8 * i)).take 8).length = 8 := by
    simp [Memory.bytes]
    omega
  have hcut (q : List Bool) : q.take 4 = (q.take 8).take 4 := by rw [List.take_take]; rfl
  rw [← bitsVal_byte mem hi, hcut, bitsVal_take, hlen]
  rfl

end Sys2Proof.Machine
end

section
/-! SUPPORT. A descriptor word in `enc` mode (43_table_codec.md R170 to R174): when it puts its bits, which they are, and the error
where its value does not fit. -/

namespace Sys2Proof.Machine

variable {v : Nat} {f : TableFile} {d : Desc} {w : Word32} {p : List Bool} {sg : Bool} {e : ErrData}

/-- What a descriptor word's field puts, in `enc` mode. -/
def encDesc (v : Nat) (f : TableFile) (w : Word32) : Except ErrData (List Bool) :=
  match kindOf w with
  | some k => encField v f k (descOf w)
  | none => .ok []

theorem encDesc_of_kind {k : DescKind} (hk : kindOf w = some k) : encDesc v f w = encField v f k (descOf w) := by
  rw [encDesc, hk]

theorem encField_fix (v : Nat) (f : TableFile) (sg : Bool) (d : Desc) : encField v f (fixKind sg) d = encFix sg f d := by
  cases sg <;> rfl

/-! ### INT (R170) -/

/-- The integer an INT writes: entry 0 is the version asked for. -/
def intValue (v : Nat) (f : TableFile) (d : Desc) : Nat := if d.fid = 0 then v else (f.get d.fid).toNat

theorem encInt_of_lt (h : intValue v f d < 2 ^ d.n) : encInt v f d = .ok (bitsOf d.n (intValue v f d)) :=
  if_neg (Nat.le_sub_one_of_lt h).not_gt

theorem encInt_of_ge (h : ¬ intValue v f d < 2 ^ d.n) : encInt v f d = .error (intError d.fid (intValue v f d) d.n) :=
  if_pos (Nat.sub_one_lt_of_le (Nat.two_pow_pos _) (not_lt.1 h))

theorem encInt_eq_ok : encInt v f d = .ok p ↔ intValue v f d < 2 ^ d.n ∧ p = bitsOf d.n (intValue v f d) := by
  by_cases h : intValue v f d < 2 ^ d.n
  · rw [encInt_of_lt h, Except.ok.injEq, eq_comm]
    simp [h]
  · simp [encInt_of_ge h, h]

theorem encInt_eq_error :
    encInt v f d = .error e ↔ ¬ intValue v f d < 2 ^ d.n ∧ e = intError d.fid (intValue v f d) d.n := by
  by_cases h : intValue v f d < 2 ^ d.n
  · simp [encInt_of_lt h, h]
  · rw [encInt_of_ge h, Except.error.injEq, eq_comm]
    simp [h]

/-! ### FXU and FXS (R171) -/

theorem encFix_eq_ok :
    encFix sg f d = .ok p ↔ ∃ n, fixOf (f.get d.fid) d.n sg d.sm d.se = some n ∧ p = bitsOf d.n (raw n d.n) := by
  rw [encFix]
  cases fixOf (f.get d.fid) d.n sg d.sm d.se <;> simp [eq_comm]

theorem encFix_eq_error :
    encFix sg f d = .error e ↔ fixOf (f.get d.fid) d.n sg d.sm d.se = none ∧
      e = fixError d.fid d.unit (f.get d.fid) d.n sg d.sm d.se := by
  rw [encFix]
  cases fixOf (f.get d.fid) d.n sg d.sm d.se <;> simp [eq_comm]

/-- A value fits a fixed-point field where its count is in range. -/
theorem countFits_iff {value : Word} {bits ms : Nat} {es : Int} (hm : 1 ≤ ms) :
    CountFits value bits sg (ms * 10 ^ es) ↔ fixOf value bits sg ms es ≠ none := by
  have hround := fixCount_roundsTo value ms es hm
  rw [Ne, fixOf_eq_none, not_or, not_lt, not_lt]
  constructor
  · rintro ⟨n, hn, hrange⟩
    rwa [← hn.unique hround]
  · exact fun hrange => ⟨_, hround, hrange⟩

/-! ### F12 and D16 (R172) -/

theorem encF12_eq_ok :
    encF12 f d = .ok p ↔ ∃ c, f12enc (mant (f.get d.fid)) (expo (f.get d.fid)) = some c ∧ p = bitsOf 12 c := by
  rw [encF12]
  cases f12enc (mant (f.get d.fid)) (expo (f.get d.fid)) <;> simp [eq_comm]

theorem encF12_eq_error :
    encF12 f d = .error e ↔ f12enc (mant (f.get d.fid)) (expo (f.get d.fid)) = none ∧
      e = f12Error d.fid d.unit (f.get d.fid) := by
  rw [encF12]
  cases f12enc (mant (f.get d.fid)) (expo (f.get d.fid)) <;> simp [eq_comm]

theorem encD16_eq_ok :
    encD16 f d = .ok p ↔ ∃ c, d16enc (mant (f.get d.fid)) (expo (f.get d.fid)) = some c ∧ p = bitsOf 16 c := by
  rw [encD16]
  cases d16enc (mant (f.get d.fid)) (expo (f.get d.fid)) <;> simp [eq_comm]

theorem encD16_eq_error :
    encD16 f d = .error e ↔ d16enc (mant (f.get d.fid)) (expo (f.get d.fid)) = none ∧
      e = d16Error d.fid d.unit (f.get d.fid) := by
  rw [encD16]
  cases d16enc (mant (f.get d.fid)) (expo (f.get d.fid)) <;> simp [eq_comm]

/-! ### QUAD (R174) -/

/-- The count of one of a quad's four values. -/
def quadFix (f : TableFile) (d : Desc) (i : Nat) : Option Int := fixOf (f.get (d.fid + i)) 10 true d.sm d.se

theorem quadCount_of_some {i : Nat} {n : Int} (h : quadFix f d i = some n) : quadCount f d i = .ok n := by
  rw [quadCount, ← quadFix, h]

theorem quadCount_of_none {i : Nat} (h : quadFix f d i = none) : quadCount f d i =
    .error (fixError (d.fid + i) (quadUnit i) (f.get (d.fid + i)) 10 true d.sm d.se) := by
  rw [quadCount, ← quadFix, h]

theorem encQuad_of_counts {n : Nat → Int} (h : ∀ i, i < 4 → quadFix f d i = some (n i)) :
    encQuad f d = .ok (bitsOf 40 (qpack (n 0) (n 1) (n 2) (n 3))) := by
  rw [encQuad, quadCount_of_some (h 0 (by decide)), quadCount_of_some (h 1 (by decide)), quadCount_of_some (h 2 (by decide)),
    quadCount_of_some (h 3 (by decide))]
  rfl

/-- A quad reports the first of its values that does not fit. -/
theorem encQuad_of_misfit {i : Nat} (hi : i < 4) (hnone : quadFix f d i = none) (hlow : ∀ k, k < i → quadFix f d k ≠ none) :
    encQuad f d = .error (fixError (d.fid + i) (quadUnit i) (f.get (d.fid + i)) 10 true d.sm d.se) := by
  have hok (k : Nat) (hk : k < i) : ∃ n, quadCount f d k = .ok n := by
    obtain ⟨n, hn⟩ := Option.ne_none_iff_exists'.1 (hlow k hk)
    exact ⟨n, quadCount_of_some hn⟩
  have hbad := quadCount_of_none hnone
  rw [encQuad]
  interval_cases i
  · rw [hbad]
    rfl
  · obtain ⟨n0, h0⟩ := hok 0 (by decide)
    rw [h0, hbad]
    rfl
  · obtain ⟨n0, h0⟩ := hok 0 (by decide)
    obtain ⟨n1, h1⟩ := hok 1 (by decide)
    rw [h0, h1, hbad]
    rfl
  · obtain ⟨n0, h0⟩ := hok 0 (by decide)
    obtain ⟨n1, h1⟩ := hok 1 (by decide)
    obtain ⟨n2, h2⟩ := hok 2 (by decide)
    rw [h0, h1, h2, hbad]
    rfl

/-- A quad's four values all have a count, or there is a first that has none. -/
theorem quadFix_cases (f : TableFile) (d : Desc) :
    (∃ n : Nat → Int, ∀ i, i < 4 → quadFix f d i = some (n i)) ∨
      ∃ i, i < 4 ∧ quadFix f d i = none ∧ ∀ k, k < i → quadFix f d k ≠ none := by
  by_cases h : ∃ i, i < 4 ∧ quadFix f d i = none
  · obtain ⟨hlt, hnone⟩ := Nat.find_spec h
    exact .inr ⟨_, hlt, hnone, fun k hk hk' => Nat.find_min h hk ⟨hk.trans hlt, hk'⟩⟩
  · refine .inl ⟨fun i => (quadFix f d i).getD 0, fun i hi => ?_⟩
    obtain ⟨n, hn⟩ := Option.ne_none_iff_exists'.1 fun hnone => h ⟨i, hi, hnone⟩
    simp [hn]

theorem encQuad_eq_ok : encQuad f d = .ok p ↔
    ∃ n : Nat → Int, (∀ i, i < 4 → quadFix f d i = some (n i)) ∧ p = bitsOf 40 (qpack (n 0) (n 1) (n 2) (n 3)) := by
  constructor
  · intro h
    obtain ⟨n, hn⟩ | ⟨i, hi, hnone, hlow⟩ := quadFix_cases f d
    · rw [encQuad_of_counts hn, Except.ok.injEq] at h
      exact ⟨n, hn, h.symm⟩
    · rw [encQuad_of_misfit hi hnone hlow] at h
      cases h
  · rintro ⟨n, hn, rfl⟩
    exact encQuad_of_counts hn

theorem encQuad_eq_error : encQuad f d = .error e ↔
    ∃ i, i < 4 ∧ quadFix f d i = none ∧ (∀ k, k < i → quadFix f d k ≠ none) ∧
      e = fixError (d.fid + i) (quadUnit i) (f.get (d.fid + i)) 10 true d.sm d.se := by
  constructor
  · intro h
    obtain ⟨n, hn⟩ | ⟨i, hi, hnone, hlow⟩ := quadFix_cases f d
    · rw [encQuad_of_counts hn] at h
      cases h
    · rw [encQuad_of_misfit hi hnone hlow, Except.error.injEq] at h
      exact ⟨i, hi, hnone, hlow, h.symm⟩
  · rintro ⟨i, hi, hnone, hlow, rfl⟩
    exact encQuad_of_misfit hi hnone hlow

end Sys2Proof.Machine
end

section
/-! SUPPORT. A descriptor word in `enc` mode against the statements' words: the width of what it puts, `WordFits`, `FieldHolds`,
`misfitState`. -/

namespace Sys2Proof.Machine

variable {v : Nat} {f : TableFile} {w : Word32} {p : List Bool} {sg : Bool} {e : ErrData} {s : State}

/-! ### The width (30_encoding.md R75) -/

theorem widthOf_of_kind {k : DescKind} (hk : kindOf w = some k) : widthOf w = fieldBits k (descOf w) := by rw [widthOf, hk]

theorem widthOf_fix (hk : kindOf w = some (fixKind sg)) : widthOf w = (descOf w).n := by
  rw [widthOf_of_kind hk]
  cases sg <;> rfl

/-- A descriptor word puts as many bits as its width. -/
theorem encDesc_length (hw : FieldWord w) (h : encDesc v f w = .ok p) : p.length = widthOf w := by
  cases hw with
  | int hk =>
    obtain ⟨-, rfl⟩ := encInt_eq_ok.1 ((encDesc_of_kind hk).symm.trans h)
    rw [bitsOf_length, widthOf_of_kind hk, fieldBits]
  | fix sg hk =>
    rw [encDesc_of_kind hk, encField_fix, encFix_eq_ok] at h
    obtain ⟨n, -, rfl⟩ := h
    rw [bitsOf_length, widthOf_fix hk]
  | f12 hk =>
    obtain ⟨c, -, rfl⟩ := encF12_eq_ok.1 ((encDesc_of_kind hk).symm.trans h)
    rw [bitsOf_length, widthOf_of_kind hk, fieldBits]
  | d16 hk =>
    obtain ⟨c, -, rfl⟩ := encD16_eq_ok.1 ((encDesc_of_kind hk).symm.trans h)
    rw [bitsOf_length, widthOf_of_kind hk, fieldBits]
  | str hk =>
    obtain rfl := Except.ok.inj ((encDesc_of_kind hk).symm.trans h)
    rw [encStr, bitsOfBytes_length, List.length_map, List.length_range, widthOf_of_kind hk, fieldBits]
  | rsv hk =>
    obtain rfl := Except.ok.inj ((encDesc_of_kind hk).symm.trans h)
    rw [bitsOf_length, widthOf_of_kind hk, fieldBits]
  | quad hk =>
    obtain ⟨n, -, rfl⟩ := encQuad_eq_ok.1 ((encDesc_of_kind hk).symm.trans h)
    rw [bitsOf_length, widthOf_of_kind hk, fieldBits]

/-! ### The value fits -/

theorem wordFits_fix (hk : kindOf w = some (fixKind sg)) :
    WordFits v f w ↔ CountFits (f.get (descOf w).fid) (descOf w).n sg (descOf w).scale := by
  cases sg
  · simp only [WordFits, show kindOf w = some .fxu from hk]
  · simp only [WordFits, show kindOf w = some .fxs from hk]

/-- A descriptor word puts its bits exactly where the value fits its field. -/
theorem encDesc_ok_iff_wordFits (hw : FieldWord w) : (∃ p, encDesc v f w = .ok p) ↔ WordFits v f w := by
  cases hw with
  | int hk =>
    simp only [encDesc_of_kind hk, encField, encInt_eq_ok, WordFits, hk]
    exact ⟨fun ⟨_, h, _⟩ => h, fun h => ⟨_, h, rfl⟩⟩
  | fix sg hk _ hsm =>
    rw [wordFits_fix hk, Desc.scale, countFits_iff hsm, Option.ne_none_iff_exists']
    simp only [encDesc_of_kind hk, encField_fix, encFix_eq_ok]
    exact ⟨fun ⟨_, n, h, _⟩ => ⟨n, h⟩, fun ⟨n, h⟩ => ⟨_, n, h, rfl⟩⟩
  | f12 hk =>
    simp only [encDesc_of_kind hk, encField, encF12_eq_ok, WordFits, hk]
    rw [← not_iff_not, ← f12enc_eq_none, Option.eq_none_iff_forall_ne_some]
    exact ⟨fun h c hc => h ⟨_, c, hc, rfl⟩, fun h ⟨_, c, hc, _⟩ => h c hc⟩
  | d16 hk =>
    have htop := roundTie10_roundsTo_decVal (f.get (descOf w).fid) 15
    simp only [encDesc_of_kind hk, encField, encD16_eq_ok, WordFits, hk]
    rw [← not_iff_not]
    have hnone := d16enc_eq_none htop
    rw [Option.eq_none_iff_forall_ne_some] at hnone
    constructor
    · rintro h ⟨n, hn, hfit⟩
      exact hnone.1 (fun c hc => h ⟨_, c, hc, rfl⟩) (htop.unique hn ▸ hfit)
    · rintro h ⟨_, c, hc, _⟩
      exact hnone.2 (fun hfit => h ⟨_, htop, hfit⟩) c hc
  | str hk | rsv hk =>
    simp only [encDesc_of_kind hk, encField, WordFits, hk]
    exact ⟨fun _ => trivial, fun _ => ⟨_, rfl⟩⟩
  | quad hk _ _ hsm =>
    simp only [encDesc_of_kind hk, encField, encQuad_eq_ok, WordFits, hk]
    simp only [Desc.scale, countFits_iff hsm]
    constructor
    · rintro ⟨_, n, hn, _⟩ i hi hnone
      cases (hn i hi).symm.trans hnone
    · intro h
      obtain ⟨n, hn⟩ | ⟨i, hi, hnone, -⟩ := quadFix_cases f (descOf w)
      · exact ⟨_, n, hn, rfl⟩
      · exact absurd hnone (h i hi)

/-! ### The bits (O46's words) -/

theorem fieldHolds_fix (hk : kindOf w = some (fixKind sg)) :
    FieldHolds v f w p ↔ ∃ n : Int, RoundsTo (decVal (f.get (descOf w).fid) / (descOf w).scale) n ∧
      p = bitsOf (descOf w).n (BitVec.ofInt (descOf w).n n).toNat := by
  cases sg
  · simp only [FieldHolds, show kindOf w = some .fxu from hk]
  · simp only [FieldHolds, show kindOf w = some .fxs from hk]

/-- The 40 bits of a quad are its four patterns in order. -/
theorem bitsOf_qpack (a b c d : Int) :
    bitsOf 40 (qpack a b c d) = bitsOf 10 (raw a 10) ++ bitsOf 10 (raw b 10) ++ bitsOf 10 (raw c 10) ++ bitsOf 10 (raw d 10) := by
  have hpack : qpack a b c d = 2 ^ 10 * (2 ^ 10 * (2 ^ 10 * raw a 10 + raw b 10) + raw c 10) + raw d 10 := by
    rw [qpack]
    ring
  rw [hpack, bitsOf_add (m := 30) _ (raw_lt d 10), bitsOf_add (m := 20) _ (raw_lt c 10), bitsOf_add (m := 10) _ (raw_lt b 10)]

/-- The bits a descriptor word puts are those of its field. -/
theorem fieldHolds_of_encDesc (hw : FieldWord w) (h : encDesc v f w = .ok p) : FieldHolds v f w p := by
  cases hw with
  | int hk =>
    obtain ⟨-, rfl⟩ := encInt_eq_ok.1 ((encDesc_of_kind hk).symm.trans h)
    simp only [FieldHolds, hk, intValue]
  | fix sg hk _ hsm =>
    rw [encDesc_of_kind hk, encField_fix, encFix_eq_ok] at h
    obtain ⟨n, hn, rfl⟩ := h
    rw [fieldHolds_fix hk, ((fixOf_eq_some ..).1 hn).1]
    exact ⟨_, fixCount_roundsTo _ _ _ hsm, by rw [raw_eq_ofInt]⟩
  | f12 hk =>
    obtain ⟨c, hc, rfl⟩ := encF12_eq_ok.1 ((encDesc_of_kind hk).symm.trans h)
    obtain ⟨m, k, rfl, hk5, hm, hround, hmin⟩ := f12enc_eq_some hc
    simp only [FieldHolds, hk]
    exact ⟨_, isF12Code_of_search hk5 hm hround hmin, rfl⟩
  | d16 hk =>
    obtain ⟨c, hc, rfl⟩ := encD16_eq_ok.1 ((encDesc_of_kind hk).symm.trans h)
    obtain ⟨m, k, rfl, hk1, hk2, hm, hround, hmin⟩ := d16enc_eq_some hc
    simp only [FieldHolds, hk]
    exact ⟨_, isD16Code_of_search hk1 hk2 hm hround hmin, by rw [d16Word_toNat]⟩
  | str hk =>
    obtain rfl := Except.ok.inj ((encDesc_of_kind hk).symm.trans h)
    simp only [FieldHolds, hk, encStr, bitsOfBytes, List.flatMap_map]
  | rsv hk =>
    obtain rfl := Except.ok.inj ((encDesc_of_kind hk).symm.trans h)
    simp only [FieldHolds, hk, bitsOf_zero]
  | quad hk _ _ hsm =>
    obtain ⟨n, hn, rfl⟩ := encQuad_eq_ok.1 ((encDesc_of_kind hk).symm.trans h)
    simp only [FieldHolds, hk]
    refine ⟨fun i => n i, fun i => ?_, ?_⟩
    · show RoundsTo _ (n i)
      rw [((fixOf_eq_some ..).1 (hn i i.isLt)).1]
      exact fixCount_roundsTo _ _ _ hsm
    · simp only [bitsOf_qpack, raw_eq_ofInt]
      simp [List.finRange]

/-! ### The error where it does not fit (60_exceptions.md R282) -/

theorem misfitState_fix (hk : kindOf w = some (fixKind sg)) :
    misfitState v s w 0 = failed s 1 0 (descOf w).fid (descOf w).unit (s.f.get (descOf w).fid)
      (decWord (fixLo (descOf w).n sg * (descOf w).sm) (descOf w).se)
      (decWord (fixHi (descOf w).n sg * (descOf w).sm) (descOf w).se) := by
  cases sg
  · simp only [misfitState, show kindOf w = some .fxu from hk, Nat.add_zero]
  · simp only [misfitState, show kindOf w = some .fxs from hk, Nat.add_zero]

theorem descOf_fid_lt (w : Word32) : (descOf w).fid < 64 := Nat.mod_lt _ (by decide)

theorem descOf_unit_lt (w : Word32) : (descOf w).unit < 16 := Nat.mod_lt _ (by decide)

/-- A fixed-point RangeError as the statements write it. -/
theorem withError_fixError (s : State) {fid unit : Nat} (value : Word) (bits : Nat) (sg : Bool) (sm : Nat) (se : Int)
    (hfid : fid < 64) (hunit : unit < 16) :
    s.withError (fixError fid unit value bits sg sm se) =
      failed s 1 0 fid unit value (decWord (fixLo bits sg * sm) se) (decWord (fixHi bits sg * sm) se) := by
  rw [State.withError_eq_failed s _ (by decide : 0 < 256) hfid hunit]
  simp only [fixError, dec_eq]
  rfl

/-- The state a descriptor word's error leaves is the one the statements name, and in a quad it is for the first value that does
not fit. -/
theorem encDesc_error (hw : FieldWord w) (h : encDesc v s.f w = .error e) :
    e.kind = .rangeError ∧ ∃ i, s.withError e = misfitState v s w i ∧
      if kindOf w = some .quad then
        i < 4 ∧ ¬ CountFits (s.f.get ((descOf w).fid + i)) 10 true (descOf w).scale ∧
          ∀ k, k < i → CountFits (s.f.get ((descOf w).fid + k)) 10 true (descOf w).scale
      else i = 0 := by
  have hfid := descOf_fid_lt w
  have hunit := descOf_unit_lt w
  cases hw with
  | int hk =>
    obtain ⟨-, rfl⟩ := encInt_eq_error.1 ((encDesc_of_kind hk).symm.trans h)
    refine ⟨rfl, 0, ?_, by simp [hk]⟩
    rw [State.withError_eq_failed s _ (by decide : 16 < 256) hfid (by decide : 0 < 16)]
    simp only [misfitState, hk]
    rfl
  | fix sg hk =>
    rw [encDesc_of_kind hk, encField_fix, encFix_eq_error] at h
    obtain ⟨-, rfl⟩ := h
    refine ⟨rfl, 0, ?_, by rw [hk]; cases sg <;> rfl⟩
    rw [withError_fixError s _ _ _ _ _ hfid hunit, misfitState_fix hk]
  | f12 hk =>
    obtain ⟨-, rfl⟩ := encF12_eq_error.1 ((encDesc_of_kind hk).symm.trans h)
    refine ⟨rfl, 0, ?_, by simp [hk]⟩
    rw [State.withError_eq_failed s _ (by decide : 0 < 256) hfid hunit]
    simp only [misfitState, hk, f12Error, dec_eq]
    rfl
  | d16 hk =>
    obtain ⟨-, rfl⟩ := encD16_eq_error.1 ((encDesc_of_kind hk).symm.trans h)
    refine ⟨rfl, 0, ?_, by simp [hk]⟩
    rw [State.withError_eq_failed s _ (by decide : 0 < 256) hfid hunit]
    simp only [misfitState, hk, d16Error, dec_eq]
    rfl
  | str hk | rsv hk => cases (encDesc_of_kind hk).symm.trans h
  | quad hk hn hq hsm =>
    obtain ⟨i, hi, hnone, hlow, rfl⟩ := encQuad_eq_error.1 ((encDesc_of_kind hk).symm.trans h)
    refine ⟨rfl, i, ?_, ?_⟩
    · rw [withError_fixError s _ _ _ _ _ (by omega) (by unfold quadUnit; split <;> decide)]
      simp only [misfitState, hk]
      rfl
    · simp only [hk, if_true, Desc.scale, countFits_iff hsm]
      exact ⟨hi, not_not.2 hnone, hlow⟩

end Sys2Proof.Machine
end

section
/-! SUPPORT. The walk in `enc` mode (43_table_codec.md R167, R196): it puts the fields of the version's lists in order and ends in a
body, or in the error of the first that does not fit. -/

namespace Sys2Proof.Machine

variable {v a fuel : Nat} {f g : TableFile} {w : Word32} {ws : List Word32} {p bits : List Bool} {e : ErrData}

/-! ### A list of descriptor words -/

/-- What a list of descriptor words puts, in `enc` mode. -/
def encDescs (v : Nat) (f : TableFile) : List Word32 → Except ErrData (List Bool)
  | [] => .ok []
  | w :: ws => (encDesc v f w).bind fun p => (encDescs v f ws).map (p ++ ·)

theorem encDescs_cons_of_ok (h : encDesc v f w = .ok p) : encDescs v f (w :: ws) = (encDescs v f ws).map (p ++ ·) := by
  rw [encDescs, h]
  rfl

theorem encDescs_cons_of_error (h : encDesc v f w = .error e) : encDescs v f (w :: ws) = .error e := by
  rw [encDescs, h]
  rfl

theorem exceptMap_eq_ok {α β : Type} {r : Except ErrData α} {k : α → β} {b : β} :
    r.map k = .ok b ↔ ∃ a, r = .ok a ∧ k a = b := by
  cases r <;> simp [Except.map]

theorem encDescs_cons_eq_ok :
    encDescs v f (w :: ws) = .ok p ↔ ∃ q r, encDesc v f w = .ok q ∧ encDescs v f ws = .ok r ∧ p = q ++ r := by
  cases h : encDesc v f w with
  | error e => simp [encDescs_cons_of_error h]
  | ok q =>
    rw [encDescs_cons_of_ok h, exceptMap_eq_ok]
    simp [eq_comm]

theorem encDescs_append (xs ys : List Word32) :
    encDescs v f (xs ++ ys) = (encDescs v f xs).bind fun p => (encDescs v f ys).map (p ++ ·) := by
  induction xs with
  | nil => cases h : encDescs v f ys <;> simp [encDescs, h, Except.map, Except.bind]
  | cons w xs ih =>
    rw [List.cons_append, encDescs, encDescs, ih]
    cases encDesc v f w <;> cases encDescs v f xs <;> cases encDescs v f ys <;> simp [Except.map, Except.bind]

/-- A list puts its words' bits in order. -/
theorem encDescs_pieces (h : encDescs v f ws = .ok p) :
    ∃ pieces, List.Forall₂ (fun w q => encDesc v f w = .ok q) ws pieces ∧ p = pieces.flatten := by
  induction ws generalizing p with
  | nil => exact ⟨[], .nil, (Except.ok.inj h).symm⟩
  | cons w ws ih =>
    obtain ⟨q, r, hq, hr, rfl⟩ := encDescs_cons_eq_ok.1 h
    obtain ⟨pieces, hpieces, rfl⟩ := ih hr
    exact ⟨q :: pieces, .cons hq hpieces, rfl⟩

theorem encDescs_length (hws : ∀ w ∈ ws, FieldWord w) (h : encDescs v f ws = .ok p) : p.length = (ws.map widthOf).sum := by
  induction ws generalizing p with
  | nil => rw [← Except.ok.inj h]; rfl
  | cons w ws ih =>
    obtain ⟨q, r, hq, hr, rfl⟩ := encDescs_cons_eq_ok.1 h
    rw [List.forall_mem_cons] at hws
    rw [List.length_append, encDesc_length hws.1 hq, ih hws.2 hr, List.map_cons, List.sum_cons]

/-- The bits of the field of `w` in a bit string that begins with the fields of `before`. -/
def fieldAt (before : List Word32) (w : Word32) (bits : List Bool) : List Bool :=
  (bits.drop (before.map widthOf).sum).take (widthOf w)

/-- The bits of each field stand where the widths of the fields before it put them. -/
theorem encDesc_fieldAt {before after : List Word32} (hws : ∀ x ∈ before ++ w :: after, FieldWord x)
    (h : encDescs v f (before ++ w :: after) = .ok p) (rest : List Bool) :
    encDesc v f w = .ok (fieldAt before w (p ++ rest)) := by
  rw [List.forall_mem_append, List.forall_mem_cons] at hws
  obtain ⟨hbefore, hw, -⟩ := hws
  induction before generalizing p with
  | nil =>
    obtain ⟨q, r, hq, -, rfl⟩ := encDescs_cons_eq_ok.1 h
    rw [hq, fieldAt, List.map_nil, List.sum_nil, List.drop_zero, List.append_assoc, List.take_left' (encDesc_length hw hq)]
  | cons x before ih =>
    obtain ⟨q, r, hq, hr, rfl⟩ := encDescs_cons_eq_ok.1 h
    rw [List.forall_mem_cons] at hbefore
    rw [ih hr hbefore.2, fieldAt, fieldAt, List.map_cons, List.sum_cons, List.append_assoc, ← encDesc_length hbefore.1 hq,
      ← List.drop_drop, List.drop_left]

/-- A list whose words all fit puts bits. -/
theorem encDescs_ok (h : ∀ w ∈ ws, ∃ p, encDesc v f w = .ok p) : ∃ p, encDescs v f ws = .ok p := by
  induction ws with
  | nil => exact ⟨[], rfl⟩
  | cons w ws ih =>
    rw [List.forall_mem_cons] at h
    obtain ⟨⟨q, hq⟩, hrest⟩ := h
    obtain ⟨r, hr⟩ := ih hrest
    exact ⟨q ++ r, encDescs_cons_eq_ok.2 ⟨q, r, hq, hr, rfl⟩⟩

/-- A list that puts no bits raises the error of its first word that does not fit. -/
theorem encDescs_error (h : encDescs v f ws = .error e) :
    ∃ before w after, ws = before ++ w :: after ∧ (∀ x ∈ before, ∃ p, encDesc v f x = .ok p) ∧
      encDesc v f w = .error e := by
  induction ws with
  | nil => cases h
  | cons w ws ih =>
    cases hw : encDesc v f w with
    | error e' =>
      obtain rfl := Except.error.inj ((encDescs_cons_of_error hw).symm.trans h)
      exact ⟨[], w, ws, rfl, by simp, hw⟩
    | ok q =>
      rw [encDescs_cons_of_ok hw] at h
      cases hrest : encDescs v f ws with
      | ok r => rw [hrest] at h; cases h
      | error e' =>
        rw [hrest] at h
        obtain rfl := Except.error.inj h
        obtain ⟨before, x, after, rfl, hbefore, hx⟩ := ih hrest
        exact ⟨w :: before, x, after, rfl, List.forall_mem_cons.2 ⟨⟨q, hw⟩, hbefore⟩, hx⟩

/-- Tables whose words put the same bits give the same list of bits. -/
theorem encDescs_congr (h : ∀ w ∈ ws, encDesc v f w = encDesc v g w) : encDescs v f ws = encDescs v g ws := by
  induction ws with
  | nil => rfl
  | cons w ws ih =>
    rw [List.forall_mem_cons] at h
    rw [encDescs, encDescs, h.1, ih h.2]

/-! ### The walk -/

/-- The walk at a field's word. -/
theorem encWalk_field (hw : FieldWord (rom a)) : encWalk v f (fuel + 1) a bits =
    ((encDesc v f (rom a)).mapError .error).bind fun p => encWalk v f fuel (a + 1) (bits ++ p) := by
  obtain ⟨k, hk, hsw, hend⟩ := hw.kind
  rw [encWalk, hk, encDesc_of_kind hk]
  cases k with
  | sw => exact absurd rfl hsw
  | endK => exact absurd rfl hend
  | _ =>
    dsimp only
    cases encField v f _ (descOf (rom a)) <;> rfl

/-- The walk along a list of fields. -/
theorem encWalk_list (hrom : RomHolds a ws) (hws : ∀ w ∈ ws, FieldWord w) : encWalk v f (ws.length + fuel) a bits =
    ((encDescs v f ws).mapError .error).bind fun p => encWalk v f fuel (a + ws.length) (bits ++ p) := by
  induction ws generalizing a bits with
  | nil => simp [encDescs, Except.mapError, Except.bind]
  | cons w ws ih =>
    rw [romHolds_cons] at hrom
    obtain ⟨rfl, hrest⟩ := hrom
    rw [List.forall_mem_cons] at hws
    rw [List.length_cons, Nat.add_right_comm, encWalk_field hws.1, encDescs]
    cases encDesc v f (rom a) with
    | error e => rfl
    | ok q =>
      simp only [Except.mapError, Except.bind, ih hrest hws.2]
      cases encDescs v f ws <;> simp [Except.map, Nat.add_assoc, Nat.add_comm]

theorem encWalk_sw (hk : kindOf (rom a) = some .sw) {b : Nat} (hb : blkTab v (f.get 4).toNat = some b) :
    encWalk v f (fuel + 1) a bits = encWalk v f fuel b bits := by
  rw [encWalk, hk]
  simp only [hb]

theorem encWalk_end (hk : kindOf (rom a) = some .endK) (hlen : bits.length ≤ 8 * Config.bodyLen v) :
    encWalk v f (fuel + 1) a bits = .ok (bits ++ List.replicate (8 * Config.bodyLen v - bits.length) false) := by
  rw [encWalk, hk]
  exact if_neg (not_lt.2 hlen)

/-! ### The body -/

/-- The bits of a body: the fields' and zero padding (43_table_codec.md R175). -/
def padBody (v : Nat) (p : List Bool) : List Bool := p ++ List.replicate (8 * Config.bodyLen v - p.length) false

theorem padBody_length (h : p.length ≤ 8 * Config.bodyLen v) : (padBody v p).length = 8 * Config.bodyLen v := by
  rw [padBody, List.length_append, List.length_replicate]
  omega

/-- The bits of a body's bytes. -/
theorem bitsOfBytes_padBody (h : p.length ≤ 8 * Config.bodyLen v) :
    bitsOfBytes (bytesOfBits (padBody v p)) = padBody v p := bitsOfBytes_bytesOfBits _ _ (padBody_length h)

/-- A version and a sensor type for which the checks of R191 pass. -/
theorem version_of_check (h : encodeCheck v f = none) : (1 ≤ v ∧ v ≤ 5) ∧ (f.get 4).toNat ≤ 6 := by
  unfold encodeCheck at h
  split_ifs at h with h1 h2
  have hrange : ¬(v < 1 ∨ 5 < v) := h1
  exact ⟨⟨by omega, by omega⟩, by omega⟩

/-- The body of a table that passes the checks is its fields in order, padded; or the first error of its fields is raised. -/
theorem encodeBody_of_check (hcheck : encodeCheck v f = none) :
    encodeBody v f =
      ((encDescs v f (fieldWords v (f.get 4).toNat)).mapError Stop.error).map fun p => bytesOfBits (padBody v p) := by
  obtain ⟨hv, hst⟩ := version_of_check hcheck
  obtain ⟨hhdr, hhrom, hsw, -⟩ := header_check v (by omega) hv.1
  obtain ⟨hblk, hend, -⟩ := blockEnd_check v (by omega) hv.1 _ (Nat.lt_succ_of_le hst)
  have hbrom := block_check v (by omega) hv.1 _ (Nat.lt_succ_of_le hst)
  obtain ⟨hhwords, hbwords⟩ := List.forall_mem_append.1 (fieldWord_of_mem hv hst)
  have hfit (p : List Bool) (h : encDescs v f (fieldWords v (f.get 4).toNat) = .ok p) : p.length ≤ 8 * Config.bodyLen v :=
    encDescs_length (fieldWord_of_mem hv hst) h ▸ fields_fit hv hst
  obtain ⟨fuel, hfuel⟩ := Nat.exists_eq_add_of_le (size_check v (by omega) hv.1 _ (Nat.lt_succ_of_le hst)).2
  have hsplit : Config.romWords =
      (headerWords v).length + ((blockWords v (f.get 4).toNat).length + (fuel + 1) + 1) := by omega
  rw [fieldWords, encDescs_append] at hfit ⊢
  simp only [encodeBody, hcheck, hhdr]
  rw [hsplit, encWalk_list hhrom hhwords]
  cases hh : encDescs v f (headerWords v) with
  | error e => rfl
  | ok p =>
    simp only [Except.mapError, Except.bind, encWalk_sw hsw hblk, encWalk_list hbrom hbwords]
    cases hb : encDescs v f (blockWords v (f.get 4).toNat) with
    | error e => rfl
    | ok q =>
      have hlen : (p ++ q).length ≤ 8 * Config.bodyLen v := hfit _ (by rw [hh, hb]; rfl)
      simp only [Except.map, List.nil_append, encWalk_end hend hlen, padBody]

end Sys2Proof.Machine
end

section
/-! SUPPORT. What ENCODE checks before it writes a bit (43_table_codec.md R191), and what it answers (R196). -/

namespace Sys2Proof.Machine

variable {v : Nat} {f : TableFile} {s t : State} {e : ErrData} {p : List Bool}

/-! ### The checks -/

theorem decNonzero_iff (k : Nat) : decNonzero f k = true ↔ decVal (f.get k) ≠ 0 := by
  rw [decNonzero, bne_iff_ne, mant_eq, Ne, Ne, decVal_eq_zero]

/-- A model string has at most eight bytes. -/
theorem strOf_length_le (w : Word) : (strOf w).length ≤ 8 := by
  have hsub := (List.takeWhile_sublist (l := strBytes w) (· != 0)).length_le
  rwa [show (strBytes w).length = 8 by simp [strBytes]] at hsub

theorem modelLen_lt_iff (v : Nat) (w : Word) : modelLen v < (strOf w).length ↔ v ≤ 3 ∧ 4 < (strOf w).length := by
  have h := strOf_length_le w
  unfold modelLen
  split <;> omega

theorem ite_some_or {α : Type} (c : Prop) [Decidable c] (x : α) (o o' : Option α) :
    (if c then some x else o).or o' = if c then some x else o.or o' := by
  split <;> rfl

theorem resistanceError_eq : resistanceError v f =
    if v = 1 ∧ decVal (f.get 5) ≠ 0 then some (unsupported 4 5 (f.get 5))
    else if v = 1 ∧ decVal (f.get 6) ≠ 0 then some (unsupported 4 6 (f.get 6)) else none := by
  simp only [resistanceError, decNonzero_iff]

theorem ntcFormError_eq : ntcFormError v f =
    if f.get 4 = 5 ∧ v ≤ 3 ∧ decVal (f.get 30) ≠ 0 then some (unsupported 5 30 (f.get 30))
    else if f.get 4 = 5 ∧ v ≤ 3 ∧ decVal (f.get 31) ≠ 0 then some (unsupported 5 31 (f.get 31))
    else if f.get 4 = 5 ∧ 4 ≤ v ∧ decVal (f.get 32) ≠ 0 then some (unsupported 5 32 (f.get 32)) else none := by
  have hv : 4 ≤ v ↔ ¬ v ≤ 3 := by omega
  simp only [ntcFormError, decNonzero_iff, hv]
  by_cases h5 : f.get 4 = 5
  · by_cases h3 : v ≤ 3 <;> simp [h5, h3]
  · simp only [h5, ne_eq, not_false_eq_true, if_true, false_and, if_false]

/-- The checks as one chain, in the statements' words. -/
theorem encodeCheck_eq : encodeCheck v f =
    if v < 1 ∨ 5 < v then some (unsupportedVersion v)
    else if 6 < (f.get 4).toNat then some (unsupported 2 4 (f.get 4))
    else if v ≤ 3 ∧ 4 < (strOf (f.get 2)).length then some (unsupported 3 2 (wordOfNat (strOf (f.get 2)).length))
    else if v = 1 ∧ decVal (f.get 5) ≠ 0 then some (unsupported 4 5 (f.get 5))
    else if v = 1 ∧ decVal (f.get 6) ≠ 0 then some (unsupported 4 6 (f.get 6))
    else if f.get 4 = 5 ∧ v ≤ 3 ∧ decVal (f.get 30) ≠ 0 then some (unsupported 5 30 (f.get 30))
    else if f.get 4 = 5 ∧ v ≤ 3 ∧ decVal (f.get 31) ≠ 0 then some (unsupported 5 31 (f.get 31))
    else if f.get 4 = 5 ∧ 4 ≤ v ∧ decVal (f.get 32) ≠ 0 then some (unsupported 5 32 (f.get 32))
    else none := by
  simp only [encodeCheck, modelLen_lt_iff, resistanceError_eq, ntcFormError_eq, ite_some_or, Option.none_or]

theorem encodeCheck_eq_none : encodeCheck v f = none ↔
    ¬(v < 1 ∨ 5 < v) ∧ ¬ 6 < (f.get 4).toNat ∧ ¬(v ≤ 3 ∧ 4 < (strOf (f.get 2)).length) ∧
      ¬(v = 1 ∧ decVal (f.get 5) ≠ 0) ∧ ¬(v = 1 ∧ decVal (f.get 6) ≠ 0) ∧
      ¬(f.get 4 = 5 ∧ v ≤ 3 ∧ decVal (f.get 30) ≠ 0) ∧ ¬(f.get 4 = 5 ∧ v ≤ 3 ∧ decVal (f.get 31) ≠ 0) ∧
      ¬(f.get 4 = 5 ∧ 4 ≤ v ∧ decVal (f.get 32) ≠ 0) := by
  have hite (c : Prop) [Decidable c] (x : ErrData) (o : Option ErrData) :
      (if c then some x else o) = none ↔ ¬c ∧ o = none := by
    split <;> simp [*]
  simp only [encodeCheck_eq, hite, and_true]

/-- A check that fails is no RangeError. -/
theorem encodeCheck_kind (h : encodeCheck v f = some e) : e.kind = .unsupportedEncoding := by
  rw [encodeCheck_eq] at h
  split_ifs at h <;> rw [← Option.some.inj h] <;> rfl

/-! ### What ENCODE answers -/

theorem exec_encode_of_check (h : encodeCheck v s.f = some e) : exec (.encode v) s = raise s e := by
  show execEncode v s = _
  simp only [execEncode, encodeBody, h]

theorem exec_encode_of_misfit (hcheck : encodeCheck v s.f = none)
    (h : encDescs v s.f (fieldWords v (s.f.get 4).toNat) = .error e) : exec (.encode v) s = raise s e := by
  show execEncode v s = _
  simp only [execEncode, encodeBody_of_check hcheck, h, Except.mapError, Except.map]

/-- The body of the fields' bits, in `TB`. -/
def bodyBuffer (v : Nat) (p : List Bool) : Buffer := Buffer.ofBytes (bytesOfBits (padBody v p))

theorem exec_encode_of_fit (hcheck : encodeCheck v s.f = none)
    (h : encDescs v s.f (fieldWords v (s.f.get 4).toNat) = .ok p) :
    exec (.encode v) s = complete { s with tb := bodyBuffer v p } := by
  show execEncode v s = _
  simp only [execEncode, encodeBody_of_check hcheck, h, Except.mapError, Except.map, bodyBuffer]

/-- A misfit is a RangeError. -/
theorem encDescs_error_kind (hcheck : encodeCheck v f = none) (h : encDescs v f (fieldWords v (f.get 4).toNat) = .error e) :
    e.kind = .rangeError := by
  obtain ⟨hv, hst⟩ := version_of_check hcheck
  obtain ⟨before, w, after, hsplit, -, hw⟩ := encDescs_error h
  have hmem : w ∈ fieldWords v (f.get 4).toNat := by simp [hsplit]
  exact (encDesc_error (s := { State.reset with f := f }) (fieldWord_of_mem hv hst w hmem) hw).1

/-- Where ENCODE succeeds the checks pass, the fields' values fit, and `TB` holds the body. -/
theorem encode_success (h : exec (.encode v) s = .next t) (hlast : t.status.last = 0) :
    encodeCheck v s.f = none ∧ ∃ p, encDescs v s.f (fieldWords v (s.f.get 4).toNat) = .ok p ∧
      t = State.done { s with tb := bodyBuffer v p } := by
  have hraise (e : ErrData) : exec (.encode v) s ≠ raise s e := by
    intro he
    rw [he, raise_eq_next] at h
    subst h
    exact errCode_ne_zero e.kind hlast
  cases hcheck : encodeCheck v s.f with
  | some e => exact absurd (exec_encode_of_check hcheck) (hraise e)
  | none =>
    cases hp : encDescs v s.f (fieldWords v (s.f.get 4).toNat) with
    | error e => exact absurd (exec_encode_of_misfit hcheck hp) (hraise e)
    | ok p =>
      rw [exec_encode_of_fit hcheck hp, complete_eq_next] at h
      exact ⟨rfl, p, rfl, h⟩

/-! ### The body in `TB` -/

theorem bodyBuffer_bits (h : p.length ≤ 8 * Config.bodyLen v) : bitsOfBytes (bodyBuffer v p).bytes = padBody v p := by
  rw [bodyBuffer, Buffer.bytes_ofBytes, bitsOfBytes_padBody h]

theorem bodyBuffer_len (h : p.length ≤ 8 * Config.bodyLen v) : (bodyBuffer v p).len = Config.bodyLen v :=
  bytesOfBits_length _ _ (padBody_length h)

/-- The bits of the body's bytes, as DECODE takes them. -/
theorem bodyBits_bodyBuffer (h : p.length ≤ 8 * Config.bodyLen v) :
    bitsOfBytes ((bodyBuffer v p).mem.bytes (Config.bodyLen v)) = padBody v p := by
  conv_lhs => rw [← bodyBuffer_len h]
  exact bodyBuffer_bits h

theorem bodyBuffer_wf (h : p.length ≤ 8 * Config.bodyLen v) : (bodyBuffer v p).wf 64 = true := by
  have hlen : (bytesOfBits (padBody v p)).length = Config.bodyLen v := bodyBuffer_len h
  have hle := bodyLen_le v
  exact Buffer.ofBytes_wf _ _ (by omega)

/-- The first descriptor word of every body: entry 0 in 8 bits (43_table_codec.md R168). -/
def versionWord : Word32 := 0x00000081

theorem fieldWords_eq_cons {st : Nat} (hv : 1 ≤ v ∧ v ≤ 5) : ∃ ws, fieldWords v st = versionWord :: ws := by
  obtain ⟨-, -, -, hhead, -⟩ := header_check v (by omega) hv.1
  obtain ⟨ws, hws⟩ := List.head?_eq_some_iff.1 hhead
  exact ⟨ws ++ blockWords v st, by rw [fieldWords, hws]; rfl⟩

/-- The first byte of a body is the version. -/
theorem version_bits {st : Nat} (hv : 1 ≤ v ∧ v ≤ 5) (hst : st ≤ 6) (h : encDescs v f (fieldWords v st) = .ok p) :
    bitsVal ((padBody v p).take 8) = v := by
  have hwords := fieldWord_of_mem hv hst
  obtain ⟨ws, hws⟩ := fieldWords_eq_cons (v := v) (st := st) hv
  rw [hws] at h hwords
  have hfirst := encDesc_fieldAt (before := []) hwords h (List.replicate (8 * Config.bodyLen v - p.length) false)
  obtain ⟨-, hbits⟩ := encInt_eq_ok.1 ((encDesc_of_kind (w := versionWord) (k := .int) (by decide)).symm.trans hfirst)
  have hval : bitsVal ((padBody v p).take 8) = bitsVal (bitsOf 8 v) := congrArg bitsVal hbits
  rw [hval, bitsVal_bitsOf, Nat.mod_eq_of_lt (by omega)]

theorem version_bodyBuffer {st : Nat} (hv : 1 ≤ v ∧ v ≤ 5) (hst : st ≤ 6) (h : encDescs v f (fieldWords v st) = .ok p) :
    ((bodyBuffer v p).mem.read 0).toNat = v := by
  have hlen : p.length ≤ 8 * Config.bodyLen v := encDescs_length (fieldWord_of_mem hv hst) h ▸ fields_fit hv hst
  have hbyte := bitsVal_byte (bodyBuffer v p).mem (bodyLen_pos v)
  rwa [bodyBits_bodyBuffer hlen, Nat.mul_zero, List.drop_zero, version_bits hv hst h, eq_comm] at hbyte

end Sys2Proof.Machine
end

section
/-! SUPPORT. The statements on ENCODE and on the table file. -/

namespace Sys2Proof.Proofs

open Sys2Proof Sys2Proof.Machine

/-- Settles O44: an entry number passes the test exactly when the table file has it. -/
theorem tableFileAccess : Obligations.TableFileAccess := by
  intro r fid s
  refine ⟨?_, _, rfl, rfl, TableFile.get_default⟩
  split_ifs with hfid
  · have hlt : fid < Config.nfid := Nat.lt_succ_of_le hfid
    refine ⟨?_, State.done { s with f := s.f.put fid (s.readX r) }, if_neg (not_lt.2 hfid), rfl,
      fun k => TableFile.get_put s.f fid k _ hlt⟩
    rw [show exec (.tget r fid) s = complete (s.writeX r (s.f.get fid)) from if_neg (not_lt.2 hfid)]
    exact complete_writeX_givesResult s r _
  · have hraise := raise_illegalOperand s (wordOfNat fid) (sub := 3) (by decide)
    exact ⟨(if_pos (not_le.1 hfid)).trans hraise, (if_pos (not_le.1 hfid)).trans hraise⟩

/-- Settles O46: the walk puts each field's bits in list order and END pads them to the body's length. -/
theorem encodeWritesBody : Obligations.EncodeWritesBody := by
  rintro v s ⟨hv1, hv5, hst, hmodel, hres, hntc, hfits⟩
  have hcheck : encodeCheck v s.f = none := by
    rw [encodeCheck_eq_none]
    refine ⟨by omega, by omega, by omega, fun ⟨h1, hne⟩ => hne (hres h1).1, fun ⟨h1, hne⟩ => hne (hres h1).2, ?_⟩
    split_ifs at hntc with h3
    · exact ⟨fun ⟨h5, _, hne⟩ => hne (hntc h5).1, fun ⟨h5, _, hne⟩ => hne (hntc h5).2, by omega⟩
    · exact ⟨by omega, by omega, fun ⟨h5, _, hne⟩ => hne (hntc h5)⟩
  have hwords := fieldWord_of_mem ⟨hv1, hv5⟩ hst
  obtain ⟨p, hp⟩ := encDescs_ok fun w hw => (encDesc_ok_iff_wordFits (hwords w hw)).2 (hfits w hw)
  have hlen : p.length ≤ 8 * Config.bodyLen v := encDescs_length hwords hp ▸ fields_fit ⟨hv1, hv5⟩ hst
  obtain ⟨pieces, hpieces, rfl⟩ := encDescs_pieces hp
  refine ⟨_, exec_encode_of_fit hcheck hp, rfl, bodyBuffer_wf hlen, bodyBuffer_len hlen,
    version_bodyBuffer ⟨hv1, hv5⟩ hst hp, pieces, _, ?_, bodyBuffer_bits hlen⟩
  exact ((List.forall₂_and_left _ _).2 ⟨hwords, hpieces⟩).imp fun w q ⟨hw, hq⟩ => fieldHolds_of_encDesc hw hq

/-- Settles O47: `encodeCheck` is the statement's chain; past it ENCODE completes, or raises a RangeError. -/
theorem encodeRefusesInOrder : Obligations.EncodeRefusesInOrder := by
  intro v s
  have hraise (sub fid : Nat) (i0 : Word) (hsub : sub < 256) (hfid : fid < 64)
      (h : encodeCheck v s.f = some (unsupported sub fid i0)) :
      exec (.encode v) s = .next (failed s 4 sub fid 0 i0 0 0) :=
    (exec_encode_of_check h).trans (raise_eq_failed s _ hsub hfid (by decide : 0 < 16))
  have hcheck := encodeCheck_eq (v := v) (f := s.f)
  split_ifs at hcheck ⊢
  · exact hraise 1 0 _ (by decide) (by decide) hcheck
  · exact hraise 2 4 _ (by decide) (by decide) hcheck
  · exact hraise 3 2 _ (by decide) (by decide) hcheck
  · exact hraise 4 5 _ (by decide) (by decide) hcheck
  · exact hraise 4 6 _ (by decide) (by decide) hcheck
  · exact hraise 5 30 _ (by decide) (by decide) hcheck
  · exact hraise 5 31 _ (by decide) (by decide) hcheck
  · exact hraise 5 32 _ (by decide) (by decide) hcheck
  · cases hp : encDescs v s.f (fieldWords v (s.f.get 4).toNat) with
    | ok p => exact ⟨_, exec_encode_of_fit hcheck hp, .inl rfl⟩
    | error e =>
      refine ⟨_, exec_encode_of_misfit hcheck hp, .inr ?_⟩
      rw [State.status_withError, Status.last_failure, encDescs_error_kind hcheck hp]
      rfl

/-- Settles O48: a RangeError is the error of the first descriptor word that puts no bits. -/
theorem encodeNamesFirstMisfit : Obligations.EncodeNamesFirstMisfit := by
  intro v s t h hlast
  cases hcheck : encodeCheck v s.f with
  | some e =>
    rw [exec_encode_of_check hcheck, raise_eq_next] at h
    subst h
    rw [State.status_withError, Status.last_failure, encodeCheck_kind hcheck] at hlast
    exact absurd hlast (by decide)
  | none =>
    obtain ⟨hv, hst⟩ := version_of_check hcheck
    have hwords := fieldWord_of_mem hv hst
    cases hp : encDescs v s.f (fieldWords v (s.f.get 4).toNat) with
    | ok p =>
      rw [exec_encode_of_fit hcheck hp, complete_eq_next] at h
      subst h
      exact absurd hlast (by decide : (0 : BitVec 4) ≠ 1)
    | error e =>
      rw [exec_encode_of_misfit hcheck hp, raise_eq_next] at h
      obtain ⟨before, w, after, hsplit, hbefore, hw⟩ := encDescs_error hp
      have hword : FieldWord w := hwords w (by simp [hsplit])
      obtain ⟨-, i, hstate, hplace⟩ := encDesc_error hword hw
      refine ⟨before, w, after, i, hsplit, fun x hx => ?_, fun hfits => ?_, h.trans hstate, hplace⟩
      · exact (encDesc_ok_iff_wordFits (hwords x (by simp [hsplit, hx]))).1 (hbefore x hx)
      · obtain ⟨q, hq⟩ := (encDesc_ok_iff_wordFits hword).2 hfits
        cases hw.symm.trans hq

end Sys2Proof.Proofs
end

section
/-! SUPPORT. A descriptor word in `dec` mode (43_table_codec.md R170 to R174): the entries it writes and what they then hold. -/

namespace Sys2Proof.Machine

variable {f g g' : TableFile} {d : Desc} {w : Word32} {p bits : List Bool} {sg : Bool} {i j : Nat}

/-- What a descriptor word stores of its bits, in `dec` mode. -/
def decDesc (g : TableFile) (w : Word32) (bits : List Bool) : TableFile :=
  match kindOf w with
  | some k => decField g k (descOf w) bits
  | none => g

theorem decDesc_of_kind {k : DescKind} (hk : kindOf w = some k) : decDesc g w bits = decField g k (descOf w) bits := by
  rw [decDesc, hk]

theorem decField_fix (g : TableFile) (sg : Bool) (d : Desc) (bits : List Bool) :
    decField g (fixKind sg) d bits = g.put d.fid (unfixOf (bitsVal bits) d.n sg d.sm d.se) := by
  cases sg <;> rfl

/-! ### QUAD -/

/-- One of the four values of a quad, the first on top (40_numeric_codec.md R120). -/
def quadValue (q i : Nat) : Int := sx (q / 2 ^ (10 * (3 - i)) % 2 ^ 10) 10

theorem qunpack_eq (q : Nat) : qunpack q = (quadValue q 0, quadValue q 1, quadValue q 2, quadValue q 3) := by
  simp [qunpack, quadValue, s10]

theorem get_decQuad_of_ne (hfid : d.fid + 3 < Config.nfid) (hj : ∀ i, i < 4 → j ≠ d.fid + i) (q : Nat) :
    (decQuad g d q).get j = g.get j := by
  have h0 : j ≠ d.fid := hj 0 (by decide)
  have h1 := hj 1 (by decide)
  have h2 := hj 2 (by decide)
  have h3 := hj 3 (by decide)
  simp only [decQuad, qunpack_eq]
  rw [TableFile.get_put _ _ _ _ (by omega), if_neg h3, TableFile.get_put _ _ _ _ (by omega), if_neg h2,
    TableFile.get_put _ _ _ _ (by omega), if_neg h1, TableFile.get_put _ _ _ _ (by omega), if_neg h0]

theorem get_decQuad (hfid : d.fid + 3 < Config.nfid) (hi : i < 4) (q : Nat) :
    (decQuad g d q).get (d.fid + i) = decWord (quadValue q i * d.sm) d.se := by
  simp only [decQuad, qunpack_eq, ← dec_eq]
  rw [TableFile.get_put _ _ _ _ (by omega), TableFile.get_put _ _ _ _ (by omega), TableFile.get_put _ _ _ _ (by omega),
    TableFile.get_put _ _ _ _ (by omega)]
  interval_cases i <;> simp

/-- The four values as the bits in their places. -/
theorem quadValue_bitsVal (hlen : p.length = 40) (hi : i < 4) :
    quadValue (bitsVal p) i = sx (bitsVal ((p.drop (10 * i)).take 10)) 10 := by
  rw [quadValue, bitsVal_take, bitsVal_drop, List.length_drop, hlen]
  interval_cases i <;> congr 1 <;> omega

/-! ### The entries a descriptor word names -/

theorem entriesOf_fix (hk : kindOf w = some (fixKind sg)) : entriesOf w = [(descOf w).fid] := by
  cases sg
  · simp only [entriesOf, show kindOf w = some .fxu from hk]
  · simp only [entriesOf, show kindOf w = some .fxs from hk]

theorem mem_entriesOf_quad (hk : kindOf w = some .quad) : j ∈ entriesOf w ↔ ∃ i, i < 4 ∧ j = (descOf w).fid + i := by
  simp only [entriesOf, hk, List.mem_cons, List.not_mem_nil, or_false]
  constructor
  · rintro (h | h | h | h)
    exacts [⟨0, by decide, h⟩, ⟨1, by decide, h⟩, ⟨2, by decide, h⟩, ⟨3, by decide, h⟩]
  · rintro ⟨i, hi, rfl⟩
    omega

/-- A descriptor word stores in no entry but those it names. -/
theorem get_decDesc_of_not_mem (hw : FieldWord w) (hj : j ∉ entriesOf w) : (decDesc g w bits).get j = g.get j := by
  cases hw with
  | int hk _ hfid | f12 hk _ hfid | d16 hk _ hfid =>
    simp only [entriesOf, hk, List.mem_singleton] at hj
    rw [decDesc_of_kind hk]
    exact (TableFile.get_put _ _ _ _ hfid).trans (if_neg hj)
  | fix sg hk _ _ hfid =>
    rw [entriesOf_fix hk, List.mem_singleton] at hj
    rw [decDesc_of_kind hk, decField_fix, TableFile.get_put _ _ _ _ hfid, if_neg hj]
  | str hk _ hfid =>
    simp only [entriesOf, hk, List.mem_singleton, hfid] at hj
    rw [decDesc_of_kind hk]
    exact (TableFile.get_put _ _ _ _ (by decide)).trans (if_neg hj)
  | rsv hk => rw [decDesc_of_kind hk, decField]
  | quad hk hn hfid =>
    have hlt : (descOf w).fid + 3 < Config.nfid := by show _ < 37; omega
    rw [mem_entriesOf_quad hk] at hj
    rw [decDesc_of_kind hk]
    exact get_decQuad_of_ne hlt (fun i hi h => hj ⟨i, hi, h⟩) _

/-! ### What the entries hold -/

theorem fieldReads_fix (hk : kindOf w = some (fixKind sg)) :
    FieldReads g w p ↔ g.get (descOf w).fid = unfixOf (bitsVal p) (descOf w).n sg (descOf w).sm (descOf w).se := by
  rw [unfixOf, dec_eq]
  cases sg
  · simp only [FieldReads, show kindOf w = some .fxu from hk, Bool.false_eq_true, if_false]
  · simp only [FieldReads, show kindOf w = some .fxs from hk, if_true]

/-- After a descriptor word its entries hold what its bits stand for. -/
theorem fieldReads_decDesc (hw : FieldWord w) (hlen : p.length = widthOf w) : FieldReads (decDesc g w p) w p := by
  cases hw with
  | int hk hn hfid =>
    rw [widthOf_of_kind hk, fieldBits] at hlen
    have hlt : bitsVal p < 2 ^ 64 :=
      (bitsVal_lt p).trans_le (pow_le_pow_right₀ (by decide) (by omega))
    simp only [FieldReads, hk, decDesc_of_kind hk, decField, TableFile.get_put _ _ _ _ hfid, if_true, wordOfNat_toNat hlt]
  | fix sg hk _ _ hfid =>
    rw [fieldReads_fix hk, decDesc_of_kind hk, decField_fix, TableFile.get_put _ _ _ _ hfid, if_pos rfl]
  | f12 hk _ hfid =>
    rw [widthOf_of_kind hk, fieldBits] at hlen
    simp only [FieldReads, hk, decDesc_of_kind hk, decField, TableFile.get_put _ _ _ _ hfid, if_true, f12dec, dec_eq,
      bitsVal_take, bitsVal_drop, hlen]
    rfl
  | d16 hk _ hfid =>
    rw [widthOf_of_kind hk, fieldBits] at hlen
    simp only [FieldReads, hk, decDesc_of_kind hk, decField, TableFile.get_put _ _ _ _ hfid, if_true, d16dec, dec_eq,
      bitsVal_take, bitsVal_drop, hlen]
    rfl
  | str hk =>
    simp only [FieldReads, hk, decDesc_of_kind hk, decField, TableFile.get_put _ _ _ _ (by decide : 2 < Config.nfid), if_true,
      decStr]
  | rsv hk => simp only [FieldReads, hk]
  | quad hk hn hfid =>
    have hlt : (descOf w).fid + 3 < Config.nfid := by show _ < 37; omega
    rw [widthOf_of_kind hk, fieldBits] at hlen
    simp only [FieldReads, hk, decDesc_of_kind hk, decField]
    intro i hi
    rw [get_decQuad hlt hi, quadValue_bitsVal hlen hi]

/-- What a descriptor word's entries hold depends on those entries alone. -/
theorem fieldReads_congr (hw : FieldWord w) (h : ∀ k ∈ entriesOf w, g.get k = g'.get k) (hg : FieldReads g w p) :
    FieldReads g' w p := by
  cases hw with
  | int hk | f12 hk | d16 hk =>
    simp only [entriesOf, hk, List.mem_singleton, forall_eq] at h
    simpa only [FieldReads, hk, h] using hg
  | fix sg hk =>
    rw [entriesOf_fix hk] at h
    rw [fieldReads_fix hk] at hg ⊢
    rw [← h _ (List.mem_singleton_self _), hg]
  | str hk _ hfid =>
    simp only [entriesOf, hk, List.mem_singleton, forall_eq, hfid] at h
    simpa only [FieldReads, hk, h] using hg
  | rsv hk => simp only [FieldReads, hk]
  | quad hk =>
    simp only [FieldReads, hk] at hg ⊢
    intro i hi
    rw [← h _ ((mem_entriesOf_quad hk).2 ⟨i, hi, rfl⟩), hg i hi]

/-- The bits of a field determine its entries. -/
theorem fieldReads_unique (hw : FieldWord w) (hg : FieldReads g w p) (hg' : FieldReads g' w p) :
    ∀ k ∈ entriesOf w, g.get k = g'.get k := by
  cases hw with
  | int hk =>
    simp only [FieldReads, hk] at hg hg'
    simp only [entriesOf, hk, List.mem_singleton, forall_eq]
    exact BitVec.eq_of_toNat_eq (hg.trans hg'.symm)
  | f12 hk | d16 hk =>
    simp only [FieldReads, hk] at hg hg'
    simp only [entriesOf, hk, List.mem_singleton, forall_eq]
    exact hg.trans hg'.symm
  | fix sg hk =>
    rw [fieldReads_fix hk] at hg hg'
    rw [entriesOf_fix hk]
    simpa only [List.mem_singleton, forall_eq] using hg.trans hg'.symm
  | str hk _ hfid =>
    simp only [FieldReads, hk] at hg hg'
    simp only [entriesOf, hk, List.mem_singleton, forall_eq, hfid]
    exact hg.trans hg'.symm
  | rsv hk => simp [entriesOf, hk]
  | quad hk =>
    simp only [FieldReads, hk] at hg hg'
    intro k hmem
    obtain ⟨i, hi, rfl⟩ := (mem_entriesOf_quad hk).1 hmem
    exact (hg i hi).trans (hg' i hi).symm

end Sys2Proof.Machine
end

section
/-! SUPPORT. The walk in `dec` mode (43_table_codec.md R167, R202, R203): it loads the fields of the version's lists in order over
the defaults, the sensor type of the header choosing the block. -/

namespace Sys2Proof.Machine

variable {v a fuel : Nat} {g : TableFile} {w : Word32} {ws before after : List Word32} {bits : List Bool} {k : Nat}
  {mem : Memory} {s : State}

/-! ### A list of descriptor words -/

/-- What a list of descriptor words stores of the bits it gets, in `dec` mode. -/
def decDescs (g : TableFile) : List Word32 → List Bool → TableFile
  | [], _ => g
  | w :: ws, bits => decDescs (decDesc g w (bits.take (widthOf w))) ws (bits.drop (widthOf w))

theorem decDescs_append (g : TableFile) (xs ys : List Word32) (bits : List Bool) :
    decDescs g (xs ++ ys) bits = decDescs (decDescs g xs bits) ys (bits.drop (xs.map widthOf).sum) := by
  induction xs generalizing g bits with
  | nil => rfl
  | cons w xs ih => rw [List.cons_append, decDescs, ih, decDescs, List.drop_drop, List.map_cons, List.sum_cons]

/-- An entry no word names stays. -/
theorem get_decDescs_of_not_mem (hws : ∀ w ∈ ws, FieldWord w) (hk : k ∉ ws.flatMap entriesOf) :
    (decDescs g ws bits).get k = g.get k := by
  induction ws generalizing g bits with
  | nil => rfl
  | cons w ws ih =>
    rw [List.forall_mem_cons] at hws
    rw [List.flatMap_cons, List.mem_append, not_or] at hk
    rw [decDescs, ih hws.2 hk.2, get_decDesc_of_not_mem hws.1 hk.1]

theorem fieldAt_length (h : ((before ++ w :: after).map widthOf).sum ≤ bits.length) :
    (fieldAt before w bits).length = widthOf w := by
  rw [List.map_append, List.map_cons, List.sum_append, List.sum_cons] at h
  rw [fieldAt, List.length_take, List.length_drop]
  omega

/-- After a list whose words name each entry once, every word's entries hold what its bits stand for. -/
theorem fieldReads_decDescs (hws : ∀ x ∈ before ++ w :: after, FieldWord x)
    (hnodup : ((before ++ w :: after).flatMap entriesOf).Nodup)
    (hlen : ((before ++ w :: after).map widthOf).sum ≤ bits.length) :
    FieldReads (decDescs g (before ++ w :: after) bits) w (fieldAt before w bits) := by
  have hread := fieldReads_decDesc (g := decDescs g before bits) (hws w (by simp)) (fieldAt_length hlen)
  refine fieldReads_congr (hws w (by simp)) (fun k hk => ?_) hread
  rw [List.flatMap_append, List.flatMap_cons] at hnodup
  have hafter : k ∉ after.flatMap entriesOf := List.disjoint_of_nodup_append (List.nodup_append.1 hnodup).2.1 hk
  rw [decDescs_append, decDescs, get_decDescs_of_not_mem (fun x hx => hws x (by simp [hx])) hafter, fieldAt]

/-! ### The walk -/

/-- The walk at a field's word. -/
theorem decWalk_field (hw : FieldWord (rom a)) : decWalk v (fuel + 1) a g bits =
    decWalk v fuel (a + 1) (decDesc g (rom a) (bits.take (widthOf (rom a)))) (bits.drop (widthOf (rom a))) := by
  obtain ⟨k, hk, hsw, hend⟩ := hw.kind
  rw [decWalk, hk, decDesc_of_kind hk, widthOf_of_kind hk]
  cases k with
  | sw => exact absurd rfl hsw
  | endK => exact absurd rfl hend
  | _ => rfl

/-- The walk along a list of fields. -/
theorem decWalk_list (hrom : RomHolds a ws) (hws : ∀ w ∈ ws, FieldWord w) : decWalk v (ws.length + fuel) a g bits =
    decWalk v fuel (a + ws.length) (decDescs g ws bits) (bits.drop (ws.map widthOf).sum) := by
  induction ws generalizing a g bits with
  | nil => simp [decDescs]
  | cons w ws ih =>
    rw [romHolds_cons] at hrom
    obtain ⟨rfl, hrest⟩ := hrom
    rw [List.forall_mem_cons] at hws
    rw [List.length_cons, Nat.add_right_comm, decWalk_field hws.1, ih hrest hws.2, decDescs, List.drop_drop, List.map_cons,
      List.sum_cons, Nat.add_assoc, Nat.add_comm 1]

theorem decWalk_sw_of_type (hk : kindOf (rom a) = some .sw) {b : Nat} (hst : ¬ 6 < (g.get 4).toNat)
    (hb : blkTab v (g.get 4).toNat = some b) : decWalk v (fuel + 1) a g bits = decWalk v fuel b g bits := by
  rw [decWalk, hk]
  simp only [hst, if_false, hb]

theorem decWalk_sw_of_no_type (hk : kindOf (rom a) = some .sw) (hst : 6 < (g.get 4).toNat) :
    decWalk v (fuel + 1) a g bits = .error (.error (unsupported 2 4 (g.get 4))) := by
  rw [decWalk, hk]
  exact if_pos hst

theorem decWalk_end (hk : kindOf (rom a) = some .endK) : decWalk v (fuel + 1) a g bits = .ok g := by rw [decWalk, hk]

/-! ### The table of a body -/

/-- The table after the header of a body of version `v`. -/
def headerTable (v : Nat) (bits : List Bool) : TableFile := decDescs TableFile.default (headerWords v) bits

theorem headerWords_fieldWord (hv : 1 ≤ v ∧ v ≤ 5) : ∀ w ∈ headerWords v, FieldWord w :=
  (List.forall_mem_append.1 (fieldWord_of_mem hv (Nat.zero_le 6))).1

/-- A body whose header names a sensor type gives its fields' values over the defaults. -/
theorem decodeBody_of_type {body : List Byte} (hv : 1 ≤ v ∧ v ≤ 5) {st : Nat}
    (hst : ((headerTable v (bitsOfBytes body)).get 4).toNat = st) (hle : st ≤ 6) :
    decodeBody v body = .ok (decDescs TableFile.default (fieldWords v st) (bitsOfBytes body)) := by
  obtain ⟨hhdr, hhrom, hsw, -⟩ := header_check v (by omega) hv.1
  obtain ⟨hblk, hend, -⟩ := blockEnd_check v (by omega) hv.1 st (by omega)
  have hbrom := block_check v (by omega) hv.1 st (by omega)
  obtain ⟨hhwords, hbwords⟩ := List.forall_mem_append.1 (fieldWord_of_mem hv hle)
  obtain ⟨fuel, hfuel⟩ := Nat.exists_eq_add_of_le (size_check v (by omega) hv.1 st (by omega)).2
  have hsplit : Config.romWords = (headerWords v).length + ((blockWords v st).length + (fuel + 1) + 1) := by omega
  simp only [decodeBody, hhdr]
  rw [hsplit, decWalk_list hhrom hhwords, ← headerTable, decWalk_sw_of_type hsw (by omega) (by rw [hst, hblk]),
    decWalk_list hbrom hbwords, decWalk_end hend, fieldWords, decDescs_append, headerTable]

/-- A body whose header names no sensor type is refused. -/
theorem decodeBody_of_no_type {body : List Byte} (hv : 1 ≤ v ∧ v ≤ 5)
    (hst : 6 < ((headerTable v (bitsOfBytes body)).get 4).toNat) :
    decodeBody v body = .error (.error (unsupported 2 4 ((headerTable v (bitsOfBytes body)).get 4))) := by
  obtain ⟨hhdr, hhrom, hsw, -⟩ := header_check v (by omega) hv.1
  obtain ⟨fuel, hfuel⟩ := Nat.exists_eq_add_of_le (size_check v (by omega) hv.1 0 (by decide)).2
  have hsplit : Config.romWords = (headerWords v).length + ((blockWords v 0).length + 1 + fuel + 1) := by omega
  simp only [decodeBody, hhdr]
  rw [hsplit, decWalk_list hhrom (headerWords_fieldWord hv), ← headerTable, decWalk_sw_of_no_type hsw hst]

/-! ### Version and sensor type in a body (R189) -/

/-- The place of the sensor type in the header list. -/
def typePlace (v : Nat) : Nat := if v ≤ 3 then 5 else 3

/-- The descriptor word of the sensor type: 4 bits up to version 2, 8 bits from version 3 on. -/
def typeWord (v : Nat) : Word32 := if v ≤ 2 then 0x00001041 else 0x00001081

/-- Where the sensor type stands: byte 11 up to version 3, byte 6 from version 4 on. -/
theorem type_check : ∀ v < 6, 1 ≤ v →
    headerWords v = (headerWords v).take (typePlace v) ++ typeWord v :: (headerWords v).drop (typePlace v + 1) ∧
    (((headerWords v).take (typePlace v)).map widthOf).sum = 8 * (if v ≤ 3 then 11 else 6) ∧
    kindOf (typeWord v) = some .int ∧ (descOf (typeWord v)).fid = 4 ∧
    widthOf (typeWord v) = (if v ≤ 2 then 4 else 8) := by
  decide +kernel

theorem bodyLen_ge (v : Nat) : 30 ≤ Config.bodyLen v := by unfold Config.bodyLen; split_ifs <;> omega

theorem bodyBits_length (v : Nat) (mem : Memory) : (bitsOfBytes (mem.bytes (Config.bodyLen v))).length = 8 * Config.bodyLen v := by
  simp [Memory.bytes]

/-- The sensor type in the header's table is the one the body carries. -/
theorem headerTable_type (hv : 1 ≤ v ∧ v ≤ 5) :
    ((headerTable v (bitsOfBytes (mem.bytes (Config.bodyLen v)))).get 4).toNat = codedSensorType v mem := by
  obtain ⟨hplace, hsum, hk, hfid, hwidth⟩ := type_check v (by omega) hv.1
  have hwords := headerWords_fieldWord hv
  have hnodup : ((headerWords v).flatMap entriesOf).Nodup := by
    have h := entries_nodup hv (Nat.zero_le 6)
    rw [fieldWords, List.flatMap_append] at h
    exact (List.nodup_append.1 h).1
  have hfit : ((headerWords v).map widthOf).sum ≤ (bitsOfBytes (mem.bytes (Config.bodyLen v))).length := by
    have h := fields_fit hv (Nat.zero_le 6)
    rw [fieldWords, List.map_append, List.sum_append] at h
    rw [bodyBits_length]
    omega
  rw [hplace] at hwords hnodup hfit
  have hread := fieldReads_decDescs (g := TableFile.default) hwords hnodup hfit
  rw [← hplace, ← headerTable] at hread
  simp only [FieldReads, hk, hfid] at hread
  rw [hread, fieldAt, hsum, hwidth, codedSensorType]
  have hlen := bodyLen_ge v
  by_cases h2 : v ≤ 2
  · rw [if_pos (by omega : v ≤ 3), if_pos h2, if_pos h2, bitsVal_nibble _ (by omega)]
  · by_cases h3 : v = 3
    · rw [if_pos (by omega : v ≤ 3), if_neg h2, if_neg h2, if_pos h3, bitsVal_byte _ (by omega)]
    · rw [if_neg (by omega : ¬ v ≤ 3), if_neg h2, if_neg h2, if_neg h3, bitsVal_byte _ (by omega)]

/-! ### What DECODE answers (R203) -/

/-- The table of a body's bits: its fields over the defaults. -/
def bodyTable (v st : Nat) (bits : List Bool) : TableFile := decDescs TableFile.default (fieldWords v st) bits

theorem exec_decode_of_empty (h : s.tb.len = 0) : exec .decode s = raise s (frameLength 1 0) := if_pos h

theorem exec_decode_of_version (hlen : s.tb.len ≠ 0) (hv : (s.tb.mem.read 0).toNat = v) (hrange : v < 1 ∨ 5 < v) :
    exec .decode s = raise s (unsupportedVersion v) := by
  subst hv
  exact (if_neg hlen).trans (if_pos hrange)

theorem exec_decode_of_short (hlen : s.tb.len ≠ 0) (hv : (s.tb.mem.read 0).toNat = v) (hrange : ¬(v < 1 ∨ 5 < v))
    (hshort : s.tb.len < Config.bodyLen v) : exec .decode s = raise s (frameLength (Config.bodyLen v) s.tb.len) := by
  subst hv
  exact (if_neg hlen).trans ((if_neg hrange).trans (if_pos hshort))

/-- A whole body of a known version passes DECODE's tests. -/
theorem decode_tests_pass (hrange : 1 ≤ v ∧ v ≤ 5) (hlen : Config.bodyLen v ≤ s.tb.len) :
    ¬ s.tb.len = 0 ∧ ¬(v < 1 ∨ Config.maxv < v) ∧ ¬ s.tb.len < Config.bodyLen v := by
  have hpos := bodyLen_pos v
  exact ⟨by omega, not_or.2 ⟨not_lt.2 hrange.1, not_lt.2 hrange.2⟩, not_lt.2 hlen⟩

theorem exec_decode_of_table (hv : (s.tb.mem.read 0).toNat = v) (hrange : 1 ≤ v ∧ v ≤ 5)
    (hlen : Config.bodyLen v ≤ s.tb.len) (h : decodeBody v (s.tb.mem.bytes (Config.bodyLen v)) = .ok g) :
    exec .decode s = complete { s with f := g } := by
  obtain ⟨hempty, hversion, hshort⟩ := decode_tests_pass hrange hlen
  show execDecode s = _
  simp only [execDecode, hv, hempty, hversion, hshort, if_false, h]

theorem exec_decode_of_error {e : ErrData} (hv : (s.tb.mem.read 0).toNat = v) (hrange : 1 ≤ v ∧ v ≤ 5)
    (hlen : Config.bodyLen v ≤ s.tb.len) (h : decodeBody v (s.tb.mem.bytes (Config.bodyLen v)) = .error (.error e)) :
    exec .decode s = raise s e := by
  obtain ⟨hempty, hversion, hshort⟩ := decode_tests_pass hrange hlen
  show execDecode s = _
  simp only [execDecode, hv, hempty, hversion, hshort, if_false, h]

theorem exec_decode_of_type (hv : (s.tb.mem.read 0).toNat = v) (hrange : 1 ≤ v ∧ v ≤ 5) (hlen : Config.bodyLen v ≤ s.tb.len)
    {st : Nat} (hst : codedSensorType v s.tb.mem = st) (hle : st ≤ 6) :
    exec .decode s = complete { s with f := bodyTable v st (bodyBits v s) } :=
  exec_decode_of_table hv hrange hlen (decodeBody_of_type hrange ((headerTable_type hrange).trans hst) hle)

theorem exec_decode_of_no_type (hv : (s.tb.mem.read 0).toNat = v) (hrange : 1 ≤ v ∧ v ≤ 5)
    (hlen : Config.bodyLen v ≤ s.tb.len) {st : Nat} (hst : codedSensorType v s.tb.mem = st) (hgt : 6 < st) :
    exec .decode s = raise s (unsupported 2 4 (BitVec.ofNat 64 st)) := by
  have htype := (headerTable_type (mem := s.tb.mem) hrange).trans hst
  have herror := exec_decode_of_error hv hrange hlen (decodeBody_of_no_type hrange (by rw [htype]; exact hgt))
  rw [herror, ← htype, BitVec.ofNat_toNat, BitVec.setWidth_eq]

/-! ### The table of a body's bits -/

variable {st : Nat}

theorem fieldReads_bodyTable (hv : 1 ≤ v ∧ v ≤ 5) (hst : st ≤ 6) (hlen : bits.length = 8 * Config.bodyLen v)
    (hsplit : fieldWords v st = before ++ w :: after) : FieldReads (bodyTable v st bits) w (fieldAt before w bits) := by
  have hwords := fieldWord_of_mem hv hst
  have hnodup := entries_nodup hv hst
  have hfit := hlen ▸ fields_fit hv hst
  rw [bodyTable]
  rw [hsplit] at hwords hnodup hfit ⊢
  exact fieldReads_decDescs hwords hnodup hfit

theorem get_bodyTable_of_unnamed (hv : 1 ≤ v ∧ v ≤ 5) (hst : st ≤ 6) (hk : k ∉ (fieldWords v st).flatMap entriesOf) :
    (bodyTable v st bits).get k = TableFile.default.get k := get_decDescs_of_not_mem (fieldWord_of_mem hv hst) hk

/-- Entry 0 is the body's first byte. -/
theorem bodyTable_version (hv : 1 ≤ v ∧ v ≤ 5) (hst : st ≤ 6) (hlen : bits.length = 8 * Config.bodyLen v) :
    ((bodyTable v st bits).get 0).toNat = bitsVal (bits.take 8) := by
  obtain ⟨ws, hws⟩ := fieldWords_eq_cons (v := v) (st := st) hv
  have hread := fieldReads_bodyTable (before := []) hv hst hlen hws
  simp only [FieldReads, show kindOf versionWord = some .int by decide, show (descOf versionWord).fid = 0 by decide] at hread
  exact hread

/-- Entry 4 is the sensor type of the header. -/
theorem bodyTable_type (hv : 1 ≤ v ∧ v ≤ 5) (hst : st ≤ 6) : (bodyTable v st bits).get 4 = (headerTable v bits).get 4 := by
  obtain ⟨-, -, -, -, hheader, -⟩ := header_check v (by omega) hv.1
  have hnodup := entries_nodup hv hst
  rw [fieldWords, List.flatMap_append] at hnodup
  have hblock : 4 ∉ (blockWords v st).flatMap entriesOf := List.disjoint_of_nodup_append hnodup hheader
  have hbwords := (List.forall_mem_append.1 (fieldWord_of_mem hv hst)).2
  rw [bodyTable, fieldWords, decDescs_append, get_decDescs_of_not_mem hbwords hblock, headerTable]

end Sys2Proof.Machine
end

section
/-! SUPPORT. The statement on DECODE. -/

namespace Sys2Proof.Proofs

open Sys2Proof Sys2Proof.Machine

/-- Settles O49: DECODE's tests are the statement's, and the walk loads each field over the defaults. -/
theorem decodeReadsBody : Obligations.DecodeReadsBody := by
  rintro s v st hv hst
  split_ifs with hlen hversion hshort htype
  · exact (exec_decode_of_empty hlen).trans (raise_frameLength s 1 0)
  · exact (exec_decode_of_version hlen hv.symm hversion).trans (raise_unsupportedVersion s v)
  · exact (exec_decode_of_short hlen hv.symm hversion hshort).trans (raise_frameLength s _ _)
  · rw [exec_decode_of_no_type hv.symm (by omega) (not_lt.1 hshort) hst.symm htype]
    exact raise_eq_failed s _ (by decide : 2 < 256) (by decide : 4 < 64) (by decide : 0 < 16)
  · have hrange : 1 ≤ v ∧ v ≤ 5 := by omega
    have hle : st ≤ 6 := not_lt.1 htype
    have hbits : (bodyBits v s).length = 8 * Config.bodyLen v := bodyBits_length v s.tb.mem
    refine ⟨_, exec_decode_of_type hv.symm hrange (not_lt.1 hshort) hst.symm hle, rfl, fun before w after hsplit => ?_, ?_, ?_,
      fun k hk => get_bodyTable_of_unnamed hrange hle hk⟩
    · exact fieldReads_bodyTable hrange hle hbits hsplit
    · exact (bodyTable_version hrange hle hbits).trans ((bitsVal_byte s.tb.mem (bodyLen_pos v)).trans hv.symm)
    · rw [State.f_done, bodyTable_type hrange hle, hst]
      exact headerTable_type hrange

end Sys2Proof.Proofs
end

section
/-! SUPPORT. The model string through a body (10_state.md R31; 43_table_codec.md R173). -/

namespace Sys2Proof.Machine

variable {str : List Byte} {n : Nat} {w : Word}

/-- A STR8 word made from a string holds its bytes, then zeros. -/
theorem strBytes_wordOfStr (h : str.length ≤ 8) :
    strBytes (wordOfStr str) = str ++ List.replicate (8 - str.length) 0 := by
  generalize hbs : str ++ List.replicate (8 - str.length) 0 = bs
  have hlen : bs.length = 8 := by
    rw [← hbs, List.length_append, List.length_replicate]
    omega
  have hword : (wordOfStr str).toNat = bitsVal (bitsOfBytes bs) := by
    rw [wordOfStr, hbs]
    refine Nat.mod_eq_of_lt ?_
    have hlt := bitsVal_lt (bitsOfBytes bs)
    rwa [bitsOfBytes_length, hlen] at hlt
  refine List.ext_getElem (by simp [strBytes, hlen]) fun i _ hi => BitVec.eq_of_toNat_eq ?_
  rw [← bitsVal_byteAt bs hi, bitsVal_take, bitsVal_drop, List.length_drop, bitsOfBytes_length, hlen,
    show 8 * 8 - 8 * i = 8 * (7 - i) + 8 by omega, Nat.add_sub_cancel, pow_add, Nat.mod_mul_right_div_self]
  simp [strBytes, slice, hword]

/-- The bytes before the first zero, of a string without zeros followed by zeros. -/
theorem takeWhile_padded (hstr : ∀ b ∈ str, b ≠ 0) (k : Nat) :
    (str ++ List.replicate k 0).takeWhile (· != 0) = str := by
  rw [List.takeWhile_append_of_pos (by simpa using hstr), List.takeWhile_replicate]
  simp

theorem strOf_wordOfStr (hlen : str.length ≤ 8) (hstr : ∀ b ∈ str, b ≠ 0) : strOf (wordOfStr str) = str := by
  rw [strOf, strBytes_wordOfStr hlen, takeWhile_padded hstr]

theorem strOf_ne_zero (w : Word) : ∀ b ∈ strOf w, b ≠ 0 := fun b hb => by
  simpa using List.mem_takeWhile_imp hb

/-- A string cut into `n` bytes that hold it is the string and zeros. -/
theorem map_getD_eq_padded (h : str.length ≤ n) :
    (List.range n).map (fun i => str.getD i 0) = str ++ List.replicate (n - str.length) 0 := by
  refine List.ext_getElem (by simp [h]) fun i hi _ => ?_
  rw [List.getElem_map, List.getElem_range]
  by_cases hlt : i < str.length
  · simp [hlt]
  · simp [List.getElem_append_right (not_lt.1 hlt), List.getElem?_eq_none (not_lt.1 hlt)]

/-- What STR puts, DECODE reads as the same string. -/
theorem strOf_decStr_encStr {f : TableFile} {d : Desc} (h : (strOf (f.get 2)).length ≤ d.n) :
    strOf (decStr (encStr f d)) = strOf (f.get 2) := by
  have hbytes := bytesOfBits_bitsOfBytes ((List.range d.n).map fun i => (strOf (f.get 2)).getD i 0) [] (by decide)
  rw [List.append_nil] at hbytes
  rw [decStr, encStr, hbytes, map_getD_eq_padded h, takeWhile_padded (strOf_ne_zero _),
    strOf_wordOfStr (strOf_length_le _) (strOf_ne_zero _)]

end Sys2Proof.Machine
end

section
/-! SUPPORT. A field through a body (43_table_codec.md R204): what its entries hold after DECODE, and what they put again. -/

namespace Sys2Proof.Machine

variable {v : Nat} {f g g' : TableFile} {w : Word32} {p q : List Bool} {sg : Bool} {n : Int} {bits ms c : Nat} {es : Int}

/-! ### INT -/

theorem intValue_of_reads (hk : kindOf w = some .int) (h : encDesc v f w = .ok p) (hg : FieldReads g w p) :
    (g.get (descOf w).fid).toNat = intValue v f (descOf w) := by
  obtain ⟨hlt, rfl⟩ := encInt_eq_ok.1 ((encDesc_of_kind hk).symm.trans h)
  simp only [FieldReads, hk] at hg
  rw [hg, bitsVal_bitsOf, Nat.mod_eq_of_lt hlt]

/-- An integer comes back; entry 0 is the version asked for. -/
theorem get_int_of_reads (hk : kindOf w = some .int) (hfid : (descOf w).fid ≠ 0) (h : encDesc v f w = .ok p)
    (hg : FieldReads g w p) : g.get (descOf w).fid = f.get (descOf w).fid :=
  BitVec.eq_of_toNat_eq ((intValue_of_reads hk h hg).trans (if_neg hfid))

/-! ### FXU, FXS and QUAD -/

/-- A count in its field's range comes back from its pattern, times the scale (40_numeric_codec.md R102). -/
theorem unfixOf_raw (hbits : 1 ≤ bits) (hlo : fixLo bits sg ≤ n) (hhi : n ≤ fixHi bits sg) :
    unfixOf (raw n bits) bits sg ms es = dec (n * ms) es := by
  rw [unfixOf]
  cases sg with
  | true =>
    simp only [fixLo, fixHi, if_true] at hlo hhi ⊢
    rw [sx_raw n bits hbits hlo (by omega)]
  | false =>
    simp only [fixLo, fixHi, Bool.false_eq_true, if_false] at hlo hhi ⊢
    rw [raw, Int.emod_eq_of_lt hlo (by omega), Int.toNat_of_nonneg hlo]

/-- The value of a count times its scale. -/
theorem decVal_dec_count (hbits : bits ≤ 32) (hms : ms < 2 ^ 23) (he1 : -128 ≤ es) (he2 : es ≤ 127)
    (hlo : fixLo bits sg ≤ n) (hhi : n ≤ fixHi bits sg) : decVal (dec (n * ms) es) = n * (ms * 10 ^ es) := by
  obtain ⟨hmin, hmax⟩ := fix_range_bounds hbits hlo hhi
  have hms' : (ms : Int) < 2 ^ 23 := by exact_mod_cast hms
  rw [dec_eq, decVal_decWord _ _ (by nlinarith) (by nlinarith) he1 he2]
  push_cast
  ring

/-- A count that encodes a value is within half a step of it. -/
theorem abs_count_sub_le {d : Desc} {value : Word} (hsm : 1 ≤ d.sm) (hcount : fixOf value bits sg d.sm d.se = some n) :
    |(n : ℚ) * d.scale - decVal value| ≤ d.scale / 2 := by
  have hpos : (0 : ℚ) < d.scale := by
    have : (0 : ℚ) < d.sm := by exact_mod_cast hsm
    rw [Desc.scale]
    positivity
  rw [((fixOf_eq_some ..).1 hcount).1]
  exact (fixCount_roundsTo value d.sm d.se hsm).abs_mul_sub_le hpos

theorem fix_reads (hk : kindOf w = some (fixKind sg)) (hn : 1 ≤ (descOf w).n) (h : encDesc v f w = .ok p)
    (hg : FieldReads g w p) :
    ∃ n, fixOf (f.get (descOf w).fid) (descOf w).n sg (descOf w).sm (descOf w).se = some n ∧
      p = bitsOf (descOf w).n (raw n (descOf w).n) ∧ g.get (descOf w).fid = dec (n * (descOf w).sm) (descOf w).se := by
  rw [encDesc_of_kind hk, encField_fix, encFix_eq_ok] at h
  obtain ⟨n, hcount, rfl⟩ := h
  obtain ⟨-, hlo, hhi⟩ := (fixOf_eq_some ..).1 hcount
  refine ⟨n, hcount, rfl, ?_⟩
  rw [(fieldReads_fix hk).1 hg, bitsVal_bitsOf, Nat.mod_eq_of_lt (raw_lt _ _), unfixOf_raw hn hlo hhi]

theorem quad_reads (hk : kindOf w = some .quad) (h : encDesc v f w = .ok p) (hg : FieldReads g w p) :
    ∃ n : Nat → Int, (∀ i, i < 4 → quadFix f (descOf w) i = some (n i)) ∧
      p = bitsOf 40 (qpack (n 0) (n 1) (n 2) (n 3)) ∧
      ∀ i, i < 4 → g.get ((descOf w).fid + i) = dec (n i * (descOf w).sm) (descOf w).se := by
  obtain ⟨n, hcount, rfl⟩ := encQuad_eq_ok.1 ((encDesc_of_kind hk).symm.trans h)
  refine ⟨n, hcount, rfl, fun i hi => ?_⟩
  have hfits (i : Nat) (hi : i < 4) : quadFits (n i) = true := by
    obtain ⟨-, hlo, hhi⟩ := (fixOf_eq_some ..).1 (hcount i hi)
    exact quadFits_iff.2 ⟨hlo, hhi⟩
  have hlt : qpack (n 0) (n 1) (n 2) (n 3) < 2 ^ 40 := by
    have h0 := raw_lt (n 0) 10
    have h1 := raw_lt (n 1) 10
    have h2 := raw_lt (n 2) 10
    have h3 := raw_lt (n 3) 10
    rw [qpack]
    omega
  have hvalues := qunpack_qpack_of_fits (hfits 0 (by decide)) (hfits 1 (by decide)) (hfits 2 (by decide)) (hfits 3 (by decide))
  rw [qunpack_eq] at hvalues
  simp only [Prod.mk.injEq] at hvalues
  obtain ⟨h0, h1, h2, h3⟩ := hvalues
  simp only [FieldReads, hk] at hg
  rw [hg i hi, ← quadValue_bitsVal (bitsOf_length 40 _) hi, bitsVal_bitsOf, Nat.mod_eq_of_lt hlt, dec_eq]
  interval_cases i <;> simp only [h0, h1, h2, h3]

/-! ### F12 and D16: the second code (log entry 12) -/

theorem RoundsTo.le_of_le {r : ℚ} {m b : Int} (h : RoundsTo r m) (hr : r ≤ b) : m ≤ b := by
  have hlt : (m : ℚ) < b + 1 := by linarith [(abs_le.1 h.abs_sub_le).1]
  exact Int.lt_add_one_iff.1 (by exact_mod_cast hlt)

/-- The parts of a float12 code read back. -/
theorem mant_expo_f12dec (hc : c < 2 ^ 12) : mant (f12dec c) = (c / 8 : Nat) ∧ expo (f12dec c) = (c % 8 : Nat) := by
  rw [mant_eq, expo_eq, f12dec, dec_eq]
  exact ⟨decMantissa_decWord _ _ (by omega) (by omega), decExponent_decWord _ _ (by omega) (by omega)⟩

theorem f12enc_lt {x : Word} (h : f12enc (mant x) (expo x) = some c) : c < 2 ^ 12 := by
  obtain ⟨m, k, rfl, hk, hm, -⟩ := f12enc_eq_some h
  omega

/-- What float12 decodes is in its domain: no mantissa rounds beyond the value 10^7. -/
theorem f12dec_domain {x : Word} (h : f12enc (mant x) (expo x) = some c) :
    0 ≤ decVal (f12dec c) ∧ decVal (f12dec c) ≤ 10 ^ 7 := by
  have hmax : decVal x ≤ 10 ^ 7 := by
    by_contra hout
    rw [f12enc_eq_none.2 fun hdom => hout hdom.2] at h
    cases h
  obtain ⟨m, k, rfl, hk, hm, hround, -⟩ := f12enc_eq_some h
  have hten : (10 : ℚ) ^ (7 - k) * 10 ^ k = 10 ^ 7 := by rw [← pow_add, Nat.sub_add_cancel (by omega)]
  have hle : (m : Int) ≤ 10 ^ (7 - k) := hround.le_of_le (by
    push_cast
    rwa [div_le_iff₀ (by positivity), hten])
  have hle' : (m : ℚ) ≤ 10 ^ (7 - k) := by exact_mod_cast hle
  rw [decVal_f12dec hm hk, ← hten]
  exact ⟨by positivity, by gcongr⟩

/-- A float12 value encoded again has a code of the same value, and from then on the code stays. -/
theorem f12enc_second {x : Word} (h : f12enc (mant x) (expo x) = some c) :
    ∃ c', f12enc (mant (f12dec c)) (expo (f12dec c)) = some c' ∧ decVal (f12dec c') = decVal (f12dec c) ∧
      f12enc (mant (f12dec c')) (expo (f12dec c')) = some c' := by
  obtain ⟨c', hc'⟩ := Option.ne_none_iff_exists'.1 fun hnone => f12enc_eq_none.1 hnone (f12dec_domain h)
  obtain ⟨hmant, hexpo⟩ := mant_expo_f12dec (f12enc_lt h)
  obtain ⟨hmant', hexpo'⟩ := mant_expo_f12dec (f12enc_lt hc')
  have hm : c / 8 ≤ 511 := by have := f12enc_lt h; omega
  refine ⟨c', hc', ?_, ?_⟩
  · rw [hmant, hexpo] at hc'
    have hexact := f12enc_exact hm hc'
    rw [decVal, decVal, ← mant_eq, ← mant_eq, ← expo_eq, ← expo_eq, hmant, hexpo, hmant', hexpo', zpow_natCast, zpow_natCast]
    exact_mod_cast hexact
  · rw [hmant', hexpo']
    rw [hmant, hexpo] at hc'
    exact f12enc_again hm hc'

/-- The parts of a decimal16 code read back. -/
theorem mant_expo_d16dec (hc : c < 2 ^ 16) : mant (d16dec c) = sx (c / 32) 11 ∧ expo (d16dec c) = sx (c % 32) 5 := by
  have hm := sx_bounds (w := 11) (r := c / 32) (by decide) (by omega)
  have he := sx_bounds (w := 5) (r := c % 32) (by decide) (by omega)
  rw [mant_eq, expo_eq, d16dec, dec_eq]
  exact ⟨decMantissa_decWord _ _ (by omega) (by omega), decExponent_decWord _ _ (by omega) (by omega)⟩

theorem d16enc_lt {x : Word} (h : d16enc (mant x) (expo x) = some c) : c < 2 ^ 16 := by
  obtain ⟨m, k, rfl, -⟩ := d16enc_eq_some h
  rw [← d16Word_toNat]
  exact (d16Word m k).isLt

/-- The parts of a code that decimal16 chose are within the format's bounds. -/
theorem d16_parts {x : Word} (h : d16enc (mant x) (expo x) = some c) :
    (sx (c / 32) 11).natAbs ≤ 1023 ∧ -16 ≤ sx (c % 32) 5 ∧ sx (c % 32) 5 ≤ 15 := by
  obtain ⟨m, k, rfl, h1, h2, hm, -⟩ := d16enc_eq_some h
  have hm' := abs_le_iff_natAbs_le.1 hm
  obtain ⟨hmant, hexp⟩ := d16Code_fields hm' h1 h2
  rw [hmant, hexp]
  refine ⟨hm', ?_⟩
  split <;> omega

/-- What decimal16 decodes fits at exponent 15. -/
theorem d16dec_fits {x : Word} (h : d16enc (mant x) (expo x) = some c) :
    d16enc (mant (d16dec c)) (expo (d16dec c)) ≠ none := by
  have htop := roundTie10_roundsTo_decVal (d16dec c) 15
  rw [Ne, d16enc_eq_none htop, not_not, htop.abs_le_iff (by decide)]
  obtain ⟨hm, -, he⟩ := d16_parts h
  obtain ⟨hmant, hexpo⟩ := mant_expo_d16dec (d16enc_lt h)
  have hm' : |(sx (c / 32) 11 : ℚ)| ≤ 1023 := by exact_mod_cast abs_le_iff_natAbs_le.2 hm
  have hpow : (10 : ℚ) ^ sx (c % 32) 5 ≤ 10 ^ (15 : Int) := zpow_le_zpow_right₀ (by norm_num) he
  have habs : |decVal (d16dec c)| ≤ 1023 * 10 ^ (15 : Int) := by
    rw [decVal, ← mant_eq, ← expo_eq, hmant, hexpo, abs_mul, abs_of_pos (by positivity : (0 : ℚ) < 10 ^ sx (c % 32) 5)]
    gcongr
  rw [abs_div, abs_of_pos (by positivity : (0 : ℚ) < 10 ^ (15 : Int)), div_lt_iff₀ (by positivity)]
  have hpos : (0 : ℚ) < 10 ^ (15 : Int) := by positivity
  push_cast
  linarith

/-- The same for decimal16: the second code has the same value, and from then on the code stays. -/
theorem d16enc_second {x : Word} (h : d16enc (mant x) (expo x) = some c) :
    ∃ c', d16enc (mant (d16dec c)) (expo (d16dec c)) = some c' ∧ decVal (d16dec c') = decVal (d16dec c) ∧
      d16enc (mant (d16dec c')) (expo (d16dec c')) = some c' := by
  obtain ⟨c', hc'⟩ := Option.ne_none_iff_exists'.1 (d16dec_fits h)
  obtain ⟨hm, h1, h2⟩ := d16_parts h
  obtain ⟨hmant, hexpo⟩ := mant_expo_d16dec (d16enc_lt h)
  obtain ⟨hmant', hexpo'⟩ := mant_expo_d16dec (d16enc_lt hc')
  refine ⟨c', hc', ?_, ?_⟩
  · rw [hmant, hexpo] at hc'
    rw [d16enc_exact hm h1 h2 hc', decVal, ← mant_eq, ← expo_eq, hmant, hexpo]
  · rw [hmant', hexpo']
    rw [hmant, hexpo] at hc'
    exact d16enc_again hm h1 h2 hc'

/-! ### F12 and D16 through a body -/

theorem f12_reads (hk : kindOf w = some .f12) (h : encDesc v f w = .ok p) (hg : FieldReads g w p) :
    ∃ c, f12enc (mant (f.get (descOf w).fid)) (expo (f.get (descOf w).fid)) = some c ∧ p = bitsOf 12 c ∧
      g.get (descOf w).fid = f12dec c := by
  obtain ⟨c, hc, rfl⟩ := encF12_eq_ok.1 ((encDesc_of_kind hk).symm.trans h)
  refine ⟨c, hc, rfl, ?_⟩
  simp only [FieldReads, hk, bitsVal_take, bitsVal_drop, bitsOf_length, bitsVal_bitsOf, Nat.mod_eq_of_lt (f12enc_lt hc)] at hg
  rw [hg, f12dec, dec_eq]
  rfl

theorem d16_reads (hk : kindOf w = some .d16) (h : encDesc v f w = .ok p) (hg : FieldReads g w p) :
    ∃ c, d16enc (mant (f.get (descOf w).fid)) (expo (f.get (descOf w).fid)) = some c ∧ p = bitsOf 16 c ∧
      g.get (descOf w).fid = d16dec c := by
  obtain ⟨c, hc, rfl⟩ := encD16_eq_ok.1 ((encDesc_of_kind hk).symm.trans h)
  refine ⟨c, hc, rfl, ?_⟩
  simp only [FieldReads, hk, bitsVal_take, bitsVal_drop, bitsOf_length, bitsVal_bitsOf, Nat.mod_eq_of_lt (d16enc_lt hc)] at hg
  rw [hg, d16dec, dec_eq]
  rfl

end Sys2Proof.Machine
end

section
/-! SUPPORT. A descriptor word through a body and back, once and a second time (43_table_codec.md R204). -/

namespace Sys2Proof.Machine

variable {v : Nat} {f g g' : TableFile} {w : Word32} {p q : List Bool}

/-- The table `g` holds what R204 says of the field of a descriptor word, `f` being the table that was encoded. -/
def RestoresField (f g : TableFile) (w : Word32) : Prop :=
  match kindOf w with
  | some .int => (descOf w).fid ≠ 0 → g.get (descOf w).fid = f.get (descOf w).fid
  | some .str => strOf (g.get 2) = strOf (f.get 2)
  | some .fxu | some .fxs | some .quad => ∀ k ∈ entriesOf w, |decVal (g.get k) - decVal (f.get k)| ≤ (descOf w).scale / 2
  | some .f12 | some .d16 => ∀ k ∈ entriesOf w, |decVal (g.get k) - decVal (f.get k)| ≤ 10 ^ decExponent (g.get k) / 2
  | _ => True

/-- The model string fits the field of a descriptor word, if it is the string's. -/
def ModelFits (f : TableFile) (w : Word32) : Prop := kindOf w = some .str → (strOf (f.get 2)).length ≤ (descOf w).n

theorem strOf_of_reads (hk : kindOf w = some .str) (hstr : ModelFits f w) (h : encDesc v f w = .ok p) (hg : FieldReads g w p) :
    strOf (g.get 2) = strOf (f.get 2) := by
  obtain rfl := Except.ok.inj ((encDesc_of_kind hk).symm.trans h)
  simp only [FieldReads, hk] at hg
  rw [hg]
  exact strOf_decStr_encStr (hstr hk)

theorem descOf_scale_bounds (w : Word32) : (descOf w).sm < 2 ^ 23 ∧ -128 ≤ (descOf w).se ∧ (descOf w).se ≤ 127 := by
  have hsm := descOf_sm_le w
  have hse := descOf_se_range w
  omega

theorem restoresField_fix {sg : Bool} (hk : kindOf w = some (fixKind sg)) :
    RestoresField f g w ↔ |decVal (g.get (descOf w).fid) - decVal (f.get (descOf w).fid)| ≤ (descOf w).scale / 2 := by
  have hentries := entriesOf_fix hk
  cases sg
  · simp only [RestoresField, show kindOf w = some .fxu from hk, hentries, List.mem_singleton, forall_eq]
  · simp only [RestoresField, show kindOf w = some .fxs from hk, hentries, List.mem_singleton, forall_eq]

/-- A field comes back within its step. -/
theorem restoresField_of_reads (hw : FieldWord w) (hstr : ModelFits f w) (h : encDesc v f w = .ok p) (hg : FieldReads g w p) :
    RestoresField f g w := by
  obtain ⟨hsm', he1, he2⟩ := descOf_scale_bounds w
  cases hw with
  | int hk =>
    simp only [RestoresField, hk]
    exact fun hfid => get_int_of_reads hk hfid h hg
  | fix sg hk hn hsm =>
    obtain ⟨n, hcount, -, hword⟩ := fix_reads hk hn.1 h hg
    obtain ⟨-, hlo, hhi⟩ := (fixOf_eq_some ..).1 hcount
    rw [restoresField_fix hk, hword, decVal_dec_count hn.2 hsm' he1 he2 hlo hhi]
    exact abs_count_sub_le hsm hcount
  | f12 hk =>
    obtain ⟨c, hc, -, hword⟩ := f12_reads hk h hg
    simp only [RestoresField, hk, entriesOf, List.mem_singleton, forall_eq]
    rw [hword, ← expo_eq, (mant_expo_f12dec (f12enc_lt hc)).2, zpow_natCast]
    exact ((Proofs.compactFormatsAccuracy _ c).1 hc).2.2
  | d16 hk =>
    obtain ⟨c, hc, -, hword⟩ := d16_reads hk h hg
    simp only [RestoresField, hk, entriesOf, List.mem_singleton, forall_eq]
    rw [hword]
    exact ((Proofs.compactFormatsAccuracy _ c).2 hc).1
  | str hk =>
    simp only [RestoresField, hk]
    exact strOf_of_reads hk hstr h hg
  | rsv hk => simp only [RestoresField, hk]
  | quad hk hn hfid hsm =>
    obtain ⟨n, hcount, -, hword⟩ := quad_reads hk h hg
    simp only [RestoresField, hk]
    intro k hmem
    obtain ⟨i, hi, rfl⟩ := (mem_entriesOf_quad hk).1 hmem
    obtain ⟨-, hlo, hhi⟩ := (fixOf_eq_some ..).1 (hcount i hi)
    rw [hword i hi, decVal_dec_count (by decide) hsm' he1 he2 hlo hhi]
    exact abs_count_sub_le hsm (hcount i hi)

/-! ### The second round trip -/

/-- A field that is not compact puts the same bits again. -/
theorem encDesc_again (hw : FieldWord w) (hcompact : ¬ CompactField w) (hstr : ModelFits f w) (h : encDesc v f w = .ok p)
    (hg : FieldReads g w p) : encDesc v g w = .ok p := by
  obtain ⟨hsm', he1, he2⟩ := descOf_scale_bounds w
  cases hw with
  | int hk =>
    have hvalue : intValue v g (descOf w) = intValue v f (descOf w) := by
      have hread := intValue_of_reads hk h hg
      by_cases hfid : (descOf w).fid = 0
      · simp only [intValue, if_pos hfid]
      · rw [← hread, intValue, if_neg hfid]
    obtain ⟨hlt, rfl⟩ := encInt_eq_ok.1 ((encDesc_of_kind hk).symm.trans h)
    rw [encDesc_of_kind hk]
    exact encInt_eq_ok.2 ⟨hvalue ▸ hlt, by rw [hvalue]⟩
  | fix sg hk hn hsm =>
    obtain ⟨n, hcount, rfl, hword⟩ := fix_reads hk hn.1 h hg
    obtain ⟨-, hlo, hhi⟩ := (fixOf_eq_some ..).1 hcount
    rw [encDesc_of_kind hk, encField_fix, encFix_eq_ok, hword]
    exact ⟨n, fixOf_dec hn.2 hsm hsm' he1 he2 hlo hhi, rfl⟩
  | f12 hk => exact absurd (.inl hk) hcompact
  | d16 hk => exact absurd (.inr hk) hcompact
  | str hk =>
    have hmodel := strOf_of_reads hk hstr h hg
    rw [← h, encDesc_of_kind hk, encDesc_of_kind hk, encField, encField, encStr, encStr, hmodel]
  | rsv hk => rw [← h, encDesc_of_kind hk, encDesc_of_kind hk, encField, encField]
  | quad hk hn hfid hsm =>
    obtain ⟨n, hcount, rfl, hword⟩ := quad_reads hk h hg
    rw [encDesc_of_kind hk]
    refine encQuad_eq_ok.2 ⟨n, fun i hi => ?_, rfl⟩
    obtain ⟨-, hlo, hhi⟩ := (fixOf_eq_some ..).1 (hcount i hi)
    rw [quadFix, hword i hi]
    exact fixOf_dec (by decide) hsm hsm' he1 he2 hlo hhi

/-- A compact field puts bits again; they read as the same value, and are put again from then on. -/
theorem encDesc_compact_second (hcompact : CompactField w) (h : encDesc v f w = .ok p) (hg : FieldReads g w p) :
    ∃ q, encDesc v g w = .ok q ∧ ∀ g', FieldReads g' w q →
      encDesc v g' w = .ok q ∧ ∀ k ∈ entriesOf w, decVal (g.get k) = decVal (g'.get k) := by
  obtain hk | hk := hcompact
  · obtain ⟨c, hc, -, hword⟩ := f12_reads hk h hg
    obtain ⟨c', hc', hvalue, hstay⟩ := f12enc_second hc
    have hq : encDesc v g w = .ok (bitsOf 12 c') :=
      (encDesc_of_kind hk).trans (encF12_eq_ok.2 ⟨c', by rw [hword, hc'], rfl⟩)
    refine ⟨_, hq, fun g' hg' => ?_⟩
    obtain ⟨c'', hc'', -, hword'⟩ := f12_reads hk hq hg'
    obtain rfl : c'' = c' := Option.some.inj (hc''.symm.trans (by rw [hword, hc']))
    refine ⟨(encDesc_of_kind hk).trans (encF12_eq_ok.2 ⟨c'', by rw [hword', hstay], rfl⟩), ?_⟩
    simp only [entriesOf, hk, List.mem_singleton, forall_eq]
    rw [hword, hword', hvalue]
  · obtain ⟨c, hc, -, hword⟩ := d16_reads hk h hg
    obtain ⟨c', hc', hvalue, hstay⟩ := d16enc_second hc
    have hq : encDesc v g w = .ok (bitsOf 16 c') :=
      (encDesc_of_kind hk).trans (encD16_eq_ok.2 ⟨c', by rw [hword, hc'], rfl⟩)
    refine ⟨_, hq, fun g' hg' => ?_⟩
    obtain ⟨c'', hc'', -, hword'⟩ := d16_reads hk hq hg'
    obtain rfl : c'' = c' := Option.some.inj (hc''.symm.trans (by rw [hword, hc']))
    refine ⟨(encDesc_of_kind hk).trans (encD16_eq_ok.2 ⟨c'', by rw [hword', hstay], rfl⟩), ?_⟩
    simp only [entriesOf, hk, List.mem_singleton, forall_eq]
    rw [hword, hword', hvalue]

end Sys2Proof.Machine
end

section
/-! SUPPORT. A table through a body and back, once and a second time (43_table_codec.md R204). -/

namespace Sys2Proof.Machine

variable {v st : Nat} {f g g' : TableFile} {w : Word32} {p q : List Bool} {s t : State}

/-- `g` is the table that the body of `f` decodes to: each field's entries hold what its bits stand for, an entry no field names its
default. -/
structure Decoded (v st : Nat) (f g : TableFile) : Prop where
  fields : ∀ w ∈ fieldWords v st, ∃ q, encDesc v f w = .ok q ∧ FieldReads g w q
  unnamed : ∀ k, k ∉ (fieldWords v st).flatMap entriesOf → g.get k = TableFile.default.get k

theorem fieldBits_fit (hv : 1 ≤ v ∧ v ≤ 5) (hst : st ≤ 6) (hp : encDescs v f (fieldWords v st) = .ok p) :
    p.length ≤ 8 * Config.bodyLen v := encDescs_length (fieldWord_of_mem hv hst) hp ▸ fields_fit hv hst

/-- The body of a table decodes to a table that holds its fields. -/
theorem decoded_bodyTable (hv : 1 ≤ v ∧ v ≤ 5) (hst : st ≤ 6) (hp : encDescs v f (fieldWords v st) = .ok p) :
    Decoded v st f (bodyTable v st (padBody v p)) where
  fields w hw := by
    obtain ⟨before, after, hsplit⟩ := List.append_of_mem hw
    have hput := encDesc_fieldAt (v := v) (f := f) (p := p) (hsplit ▸ fieldWord_of_mem hv hst) (hsplit ▸ hp)
      (List.replicate (8 * Config.bodyLen v - p.length) false)
    exact ⟨_, hput, fieldReads_bodyTable hv hst (padBody_length (fieldBits_fit hv hst hp)) hsplit⟩
  unnamed _ := get_bodyTable_of_unnamed hv hst

/-! ### The checks, again -/

/-- The string's field is as long as the version's model field, and every header has one (43_table_codec.md R191). -/
theorem model_check : ∀ v < 6, 1 ≤ v → ∀ st < 7,
    ((fieldWords v st).all fun w => decide (kindOf w = some .str → (descOf w).n = modelLen v)) = true := by
  decide +kernel

theorem model_named_check : ∀ v < 6, 1 ≤ v → ((headerWords v).any fun w => decide (kindOf w = some .str)) = true := by
  decide +kernel

/-- What R191 forbids no field names: the resistances at version 1, … -/
theorem resistance_unnamed : ∀ st < 7,
    5 ∉ (fieldWords 1 st).flatMap entriesOf ∧ 6 ∉ (fieldWords 1 st).flatMap entriesOf := by
  decide +kernel

/-- … the entries 30 and 31 of an NTC up to version 3, … -/
theorem ntcNK_unnamed : ∀ v < 6, 1 ≤ v → v ≤ 3 →
    30 ∉ (fieldWords v 5).flatMap entriesOf ∧ 31 ∉ (fieldWords v 5).flatMap entriesOf := by
  decide +kernel

/-- … its entry 32 from version 4 on. -/
theorem ntcR_unnamed : ∀ v < 6, 4 ≤ v → 32 ∉ (fieldWords v 5).flatMap entriesOf := by
  decide +kernel

theorem modelFits_of_check (hcheck : encodeCheck v f = none) (hst : st ≤ 6) : ∀ w ∈ fieldWords v st, ModelFits f w := by
  intro w hw hk
  obtain ⟨hv, -⟩ := version_of_check hcheck
  have hn := List.all_eq_true.1 (model_check v (by omega) hv.1 st (by omega)) w hw
  rw [of_decide_eq_true hn hk]
  exact not_lt.1 fun hlong => (encodeCheck_eq_none.1 hcheck).2.2.1 ((modelLen_lt_iff v _).1 hlong)

/-- The sensor type comes back. -/
theorem Decoded.type (h : Decoded v st f g) (hv : 1 ≤ v ∧ v ≤ 5) : g.get 4 = f.get 4 := by
  obtain ⟨hplace, -, hk, hfid, -⟩ := type_check v (by omega) hv.1
  have hmem : typeWord v ∈ fieldWords v st := by
    rw [fieldWords, hplace]
    simp
  obtain ⟨q, hq, hread⟩ := h.fields _ hmem
  have hget := get_int_of_reads hk (by rw [hfid]; decide) hq hread
  rwa [hfid] at hget

/-- The model string comes back. -/
theorem Decoded.model (h : Decoded v st f g) (hcheck : encodeCheck v f = none) (hst : st ≤ 6) :
    strOf (g.get 2) = strOf (f.get 2) := by
  obtain ⟨hv, -⟩ := version_of_check hcheck
  obtain ⟨w, hw, hkind⟩ := List.any_eq_true.1 (model_named_check v (by omega) hv.1)
  have hk : kindOf w = some .str := of_decide_eq_true hkind
  have hmem : w ∈ fieldWords v st := List.mem_append_left _ hw
  obtain ⟨q, hq, hread⟩ := h.fields w hmem
  exact strOf_of_reads hk (modelFits_of_check hcheck hst w hmem) hq hread

/-- The decoded table passes ENCODE's checks. -/
theorem Decoded.check (h : Decoded v st f g) (hcheck : encodeCheck v f = none) (hst : (f.get 4).toNat = st) :
    encodeCheck v g = none := by
  obtain ⟨hv, hle⟩ := version_of_check hcheck
  have hzero (k : Nat) (hk : k ≠ 0) (hnot : k ∉ (fieldWords v st).flatMap entriesOf) : decVal (g.get k) = 0 := by
    rw [h.unnamed k hnot, TableFile.get_default, if_neg hk, decVal_eq_zero]
    decide
  have htype (h5 : f.get 4 = 5) : st = 5 := by rw [← hst, h5]; rfl
  rw [hst] at hle
  obtain ⟨c1, c2, c3, -⟩ := encodeCheck_eq_none.1 hcheck
  rw [encodeCheck_eq_none, h.type hv, h.model hcheck hle]
  refine ⟨c1, c2, c3, ?_, ?_, ?_, ?_, ?_⟩
  · rintro ⟨rfl, hne⟩
    exact hne (hzero 5 (by decide) (resistance_unnamed st (by omega)).1)
  · rintro ⟨rfl, hne⟩
    exact hne (hzero 6 (by decide) (resistance_unnamed st (by omega)).2)
  · rintro ⟨h5, h3, hne⟩
    obtain rfl := htype h5
    exact hne (hzero 30 (by decide) (ntcNK_unnamed v (by omega) hv.1 h3).1)
  · rintro ⟨h5, h3, hne⟩
    obtain rfl := htype h5
    exact hne (hzero 31 (by decide) (ntcNK_unnamed v (by omega) hv.1 h3).2)
  · rintro ⟨h5, h4, hne⟩
    obtain rfl := htype h5
    exact hne (hzero 32 (by decide) (ntcR_unnamed v (by omega) h4))

/-! ### The second round trip of a table -/

/-- Every field of the decoded table puts its bits: the same ones, if it is not compact. -/
theorem Decoded.puts_again (h : Decoded v st f g) (hcheck : encodeCheck v f = none) (hst : st ≤ 6) :
    ∀ w ∈ fieldWords v st, ∃ q, encDesc v g w = .ok q ∧ (¬ CompactField w → encDesc v f w = .ok q) := by
  intro w hw
  obtain ⟨hv, -⟩ := version_of_check hcheck
  obtain ⟨q, hq, hread⟩ := h.fields w hw
  by_cases hcompact : CompactField w
  · obtain ⟨q', hq', -⟩ := encDesc_compact_second hcompact hq hread
    exact ⟨q', hq', fun hnot => absurd hcompact hnot⟩
  · exact ⟨q, encDesc_again (fieldWord_of_mem hv hst w hw) hcompact (modelFits_of_check hcheck hst w hw) hq hread, fun _ => hq⟩

/-- The second decoded table holds the same words, but in compact fields, which hold the same values. -/
theorem Decoded.sameTableValues (h : Decoded v st f g) (h' : Decoded v st g g') (hcheck : encodeCheck v f = none) (hst : st ≤ 6) :
    SameTableValues v st g g' := by
  intro k
  obtain ⟨hv, -⟩ := version_of_check hcheck
  by_cases hk : k ∈ (fieldWords v st).flatMap entriesOf
  · obtain ⟨w, hw, hkw⟩ := List.mem_flatMap.1 hk
    obtain ⟨q, hq, hread⟩ := h.fields w hw
    obtain ⟨q', hq', hread'⟩ := h'.fields w hw
    by_cases hcompact : CompactField w
    · obtain ⟨q'', hq'', hsecond⟩ := encDesc_compact_second hcompact hq hread
      obtain rfl : q' = q'' := Except.ok.inj (hq'.symm.trans hq'')
      exact .inr ⟨⟨w, hw, hcompact, hkw⟩, (hsecond g' hread').2 k hkw⟩
    · have hagain := encDesc_again (fieldWord_of_mem hv hst w hw) hcompact (modelFits_of_check hcheck hst w hw) hq hread
      obtain rfl : q' = q := Except.ok.inj (hq'.symm.trans hagain)
      exact .inl (fieldReads_unique (fieldWord_of_mem hv hst w hw) hread hread' k hkw)
  · exact .inl ((h.unnamed k hk).trans (h'.unnamed k hk).symm)

/-- From the second body on the fields' bits stay. -/
theorem Decoded.encDescs_eq (h : Decoded v st f g) (h' : Decoded v st g g') (hcheck : encodeCheck v f = none)
    (hcheck' : encodeCheck v g = none) (hst : st ≤ 6) : encDescs v g' (fieldWords v st) = encDescs v g (fieldWords v st) := by
  refine encDescs_congr fun w hw => ?_
  obtain ⟨hv, -⟩ := version_of_check hcheck
  obtain ⟨q, hq, hread⟩ := h.fields w hw
  obtain ⟨q', hq', hread'⟩ := h'.fields w hw
  by_cases hcompact : CompactField w
  · obtain ⟨q'', hq'', hsecond⟩ := encDesc_compact_second hcompact hq hread
    obtain rfl : q' = q'' := Except.ok.inj (hq'.symm.trans hq'')
    rw [hq', (hsecond g' hread').1]
  · rw [hq', encDesc_again (fieldWord_of_mem hv hst w hw) hcompact (modelFits_of_check hcheck' hst w hw) hq' hread']

/-! ### At the state -/

/-- DECODE of a table's body gives the table of its bits. -/
theorem exec_decode_of_encoded (hv : 1 ≤ v ∧ v ≤ 5) (hst : (f.get 4).toNat = st) (hle : st ≤ 6)
    (hp : encDescs v f (fieldWords v st) = .ok p) (htb : t.tb = bodyBuffer v p) :
    exec .decode t = complete { t with f := bodyTable v st (padBody v p) } := by
  have hfit := fieldBits_fit hv hle hp
  have hbits : bodyBits v t = padBody v p := by rw [bodyBits, htb, bodyBits_bodyBuffer hfit]
  have htype : codedSensorType v t.tb.mem = st := by
    rw [← headerTable_type hv, ← bodyBits, hbits, ← bodyTable_type hv hle, (decoded_bodyTable hv hle hp).type hv, hst]
  rw [← hbits]
  exact exec_decode_of_type (by rw [htb, version_bodyBuffer hv hle hp]) hv (by rw [htb, bodyBuffer_len hfit]) htype hle

/-- Bodies whose fields put the same bits, but for the compact ones, are the same but for those. -/
theorem sameBodyButCompact (hv : 1 ≤ v ∧ v ≤ 5) (hle : st ≤ 6) (hp : encDescs v f (fieldWords v st) = .ok p)
    (hq : encDescs v g (fieldWords v st) = .ok q) (hs : s.tb = bodyBuffer v p) (ht : t.tb = bodyBuffer v q)
    (hsame : ∀ w ∈ fieldWords v st, ¬ CompactField w → encDesc v g w = encDesc v f w) : SameBodyButCompact v st s t := by
  have hpfit := fieldBits_fit hv hle hp
  have hqfit := fieldBits_fit hv hle hq
  have hwords := fieldWord_of_mem hv hle
  have hsbits : bodyBits v s = padBody v p := by rw [bodyBits, hs, bodyBits_bodyBuffer hpfit]
  have htbits : bodyBits v t = padBody v q := by rw [bodyBits, ht, bodyBits_bodyBuffer hqfit]
  refine ⟨by rw [hs, ht, bodyBuffer_len hpfit, bodyBuffer_len hqfit], fun before w after hsplit hcompact => ?_, ?_⟩
  · have hput := hsame w (by simp [hsplit]) hcompact
    rw [hsplit] at hp hq hwords
    rw [encDesc_fieldAt hwords hp (List.replicate (8 * Config.bodyLen v - p.length) false),
      encDesc_fieldAt hwords hq (List.replicate (8 * Config.bodyLen v - q.length) false)] at hput
    rw [hsbits, htbits]
    exact (Except.ok.inj hput).symm
  · have hplen := encDescs_length hwords hp
    have hqlen := encDescs_length hwords hq
    rw [hsbits, htbits, padBody, padBody, List.drop_left' hplen, List.drop_left' hqlen, hplen, hqlen]

end Sys2Proof.Machine
end

section
/-! SUPPORT. The statements on the round trips. -/

namespace Sys2Proof.Proofs

open Sys2Proof Sys2Proof.Machine

/-- Settles O50: each field's bits determine its entries, and its entries, decoded, put the bits again; a compact field's second
code has the value of the first, exactly, and is its own second code. -/
theorem encodeThenDecodeRestoresTable : Obligations.EncodeThenDecodeRestoresTable := by
  intro v s t h hlast
  obtain ⟨hcheck, p, hp, rfl⟩ := encode_success h hlast
  obtain ⟨hv, hle⟩ := version_of_check hcheck
  generalize hst : (s.f.get 4).toNat = st at hp hle ⊢
  have hdec := decoded_bodyTable hv hle hp
  have hcheck' := hdec.check hcheck hst
  have hst' : ((bodyTable v st (padBody v p)).get 4).toNat = st := by rw [hdec.type hv, hst]
  obtain ⟨q, hq⟩ := encDescs_ok fun w hw => (hdec.puts_again hcheck hle w hw).imp fun _ h => h.1
  have hdec' := decoded_bodyTable hv hle hq
  have hst'' : ((bodyTable v st (padBody v q)).get 4).toNat = st := by rw [hdec'.type hv, hst']
  have hstay := (hdec.encDescs_eq hdec' hcheck hcheck' hle).trans hq
  refine ⟨_, exec_decode_of_encoded hv hst hle hp rfl, rfl, ?_, hdec.unnamed, fun w hw => ?_,
    _, _, _, exec_encode_of_fit hcheck' ?_, rfl, ?_, exec_decode_of_encoded hv hst' hle hq rfl, rfl,
    hdec.sameTableValues hdec' hcheck hle, exec_encode_of_fit (hdec'.check hcheck' hst') ?_, rfl, rfl⟩
  · exact (bodyTable_version hv hle (padBody_length (fieldBits_fit hv hle hp))).trans (version_bits hv hle hp)
  · obtain ⟨r, hr, hread⟩ := hdec.fields w hw
    exact restoresField_of_reads (fieldWord_of_mem hv hle w hw) (modelFits_of_check hcheck hle w hw) hr hread
  · rw [State.f_done, hst', hq]
  · refine sameBodyButCompact hv hle hp hq rfl rfl fun w hw hcompact => ?_
    obtain ⟨r, hr, hsame⟩ := hdec.puts_again hcheck hle w hw
    rw [hr, hsame hcompact]
  · rw [State.f_done, hst'', hstay]

end Sys2Proof.Proofs
end

section
/-! SUPPORT. A table whose second body is not its first (43_table_codec.md R204, its last sentence; log entry 12). -/

namespace Sys2Proof.Machine

/-- The default table with `r_source` = 511.5, a tie that float12 rounds to 51 × 10^1 (40_numeric_codec.md R108). -/
def tieTable : TableFile := TableFile.default.put 5 (dec 5115 (-1))

/-- A body of version 2 with zeros in every field but `r_source`, whose 12 bits are in `hi` and in the high nibble of `lo`. -/
def sourceBody (hi lo : Byte) : List Byte := [2] ++ List.replicate 12 0 ++ [hi, lo] ++ List.replicate 18 0

/-- The first code is 51 × 10^1. -/
theorem encodeBody_tieTable : encodeBody 2 tieTable = .ok (sourceBody 0x19 0x90) := by decide +kernel

/-- The second code is 510 × 10^0. -/
theorem encodeBody_decoded_tieTable :
    (decodeBody 2 (sourceBody 0x19 0x90)).bind (encodeBody 2) = .ok (sourceBody 0xFF 0x00) := by decide +kernel

/-- The two bodies differ. -/
theorem sourceBody_ne : Buffer.ofBytes (sourceBody 0xFF 0x00) ≠ Buffer.ofBytes (sourceBody 0x19 0x90) := by decide +kernel

theorem exec_encode_of_body {v : Nat} {s : State} {body : List Byte} (h : encodeBody v s.f = .ok body) :
    exec (.encode v) s = complete { s with tb := Buffer.ofBytes body } := by
  show execEncode v s = _
  simp only [execEncode, h]

/-- The machine after reset, but for its table. -/
def tieState : State := { State.reset with f := tieTable }

/-- What ENCODE 2 leaves of it. -/
def tieEncoded : State := State.done { tieState with tb := Buffer.ofBytes (sourceBody 0x19 0x90) }

theorem exec_encode_tieState : exec (.encode 2) tieState = .next tieEncoded := exec_encode_of_body encodeBody_tieTable

/-- What DECODE and ENCODE 2 then leave. -/
theorem exec_decode_encode_tieEncoded : ∃ u w, exec .decode tieEncoded = .next u ∧ exec (.encode 2) u = .next w ∧
    w.tb = Buffer.ofBytes (sourceBody 0xFF 0x00) := by
  have hbytes : tieEncoded.tb.mem.bytes (Config.bodyLen 2) = sourceBody 0x19 0x90 := Buffer.bytes_ofBytes _
  have hsecond := encodeBody_decoded_tieTable
  cases hg : decodeBody 2 (sourceBody 0x19 0x90) with
  | error e =>
    rw [hg] at hsecond
    cases hsecond
  | ok g =>
    rw [hg] at hsecond
    have hdecode := exec_decode_of_table (s := tieEncoded) (v := 2) (by decide) (by decide) (by decide)
      (hbytes ▸ hg)
    exact ⟨_, _, hdecode, exec_encode_of_body hsecond, rfl⟩

end Sys2Proof.Machine
end

section
/-! SUPPORT. The statement that fails. -/

namespace Sys2Proof.Proofs

open Sys2Proof Sys2Proof.Machine

/-- Refutes O51: 511.5 has the code 51 × 10^1, which decodes to 510, whose code is 510 × 10^0. -/
theorem not_secondEncodeGivesSameBody : ¬ Obligations.SecondEncodeGivesSameBody := by
  intro h
  obtain ⟨u, w, hdecode, hencode, hbody⟩ := exec_decode_encode_tieEncoded
  have hsame : w.tb = tieEncoded.tb := h 2 tieState tieEncoded u w exec_encode_tieState rfl hdecode hencode
  exact sourceBody_ne (hbody.symm.trans hsame)

end Sys2Proof.Proofs
end

section
/-! SUPPORT. The ByteDecoder (44_waveform_decoder.md R239), a bit at a time: a bit dropped, a byte completed, a bit shifted in; and
that it is the unstuffer. -/

namespace Sys2Proof.Machine

variable {s : State} {b : Bool}

/-! ### add_bit -/

/-- The accumulator with a bit shifted in, as a number. -/
theorem shiftIn_eq {byte : Byte} (h : byte.toNat < 128) (b : Bool) :
    byte <<< 1 ||| (BitVec.ofBool b).setWidth 8 = BitVec.ofNat 8 (2 * byte.toNat + b.toNat) := by
  have hb := Bool.toNat_le b
  refine BitVec.eq_of_toNat_eq ?_
  rw [shiftIn_toNat byte b h, BitVec.toNat_ofNat, Nat.mod_eq_of_lt (by omega)]

/-- The bit after seven 1s is dropped. -/
theorem addBit_of_run_seven (h : s.bd.run = 7) : addBit s b = ({ s with bd := { s.bd with run := 0 } }, .nothing) := by
  rw [addBit, destuffBit, if_pos h]

/-- An eighth bit completes a byte. -/
theorem addBit_of_nbits_seven (hrun : s.bd.run ≠ 7) (hnbits : s.bd.nbits = 7) (hbyte : s.bd.byte.toNat < 128) :
    addBit s b =
      ({ s with
          bd := { byte := 0, nbits := 0, run := if b then s.bd.run + 1 else 0 }
          wd := { s.wd with rxbyte := BitVec.ofNat 8 (2 * s.bd.byte.toNat + b.toNat) }
          status := { s.status with wdrdy := true, wdovr := s.status.wdovr || s.status.wdrdy } }, .byte) := by
  rw [addBit, destuffBit, if_neg hrun]
  simp only [shiftIn_eq hbyte, hnbits, Nat.reduceAdd, if_true]

/-- Any other bit is shifted in. -/
theorem addBit_of_nbits_ne_seven (hrun : s.bd.run ≠ 7) (hnbits : s.bd.nbits ≠ 7) (hbyte : s.bd.byte.toNat < 128) :
    addBit s b =
      ({ s with
          bd := {
            byte := BitVec.ofNat 8 (2 * s.bd.byte.toNat + b.toNat), nbits := s.bd.nbits + 1
            run := if b then s.bd.run + 1 else 0 } }, .nothing) := by
  have hne : s.bd.nbits + 1 ≠ 8 := by omega
  rw [addBit, destuffBit, if_neg hrun]
  simp only [shiftIn_eq hbyte, if_neg hne]

/-! ### The bits in flight -/

/-- The ByteDecoder holds the bits `held`, fewer than a byte. -/
def Bd.Holds (bd : Bd) (held : List Bool) : Prop :=
  held.length = bd.nbits ∧ bd.nbits ≤ 7 ∧ bd.byte.toNat = bitsVal held

theorem Bd.reset_holds : Bd.reset.Holds [] := ⟨rfl, Nat.zero_le 7, rfl⟩

variable {held : List Bool}

theorem Bd.Holds.byte_lt {bd : Bd} (h : bd.Holds held) : bd.byte.toNat < 128 := by
  obtain ⟨hlen, hmax, hbyte⟩ := h
  calc bd.byte.toNat = bitsVal held := hbyte
    _ < 2 ^ held.length := bitsVal_lt held
    _ ≤ 2 ^ 7 := Nat.pow_le_pow_right (by decide) (hlen ▸ hmax)

theorem bitsVal_append_singleton (bits : List Bool) (b : Bool) : bitsVal (bits ++ [b]) = 2 * bitsVal bits + b.toNat := by
  rw [bitsVal, bitsValFrom_append]
  rfl

/-- A bit shifted in stands behind the bits held. -/
theorem Bd.Holds.shiftIn {bd : Bd} (h : bd.Holds held) (hnbits : bd.nbits ≠ 7) (b : Bool) (run : Nat) :
    Bd.Holds ⟨BitVec.ofNat 8 (2 * bd.byte.toNat + b.toNat), bd.nbits + 1, run⟩ (held ++ [b]) := by
  have hlt := h.byte_lt
  have hb := Bool.toNat_le b
  obtain ⟨hlen, hmax, hbyte⟩ := h
  refine ⟨by rw [List.length_append, hlen]; rfl, by show bd.nbits + 1 ≤ 7; omega, ?_⟩
  rw [BitVec.toNat_ofNat, Nat.mod_eq_of_lt (by omega), bitsVal_append_singleton, hbyte]

/-- Fewer than eight bits make no byte. -/
theorem bytesOfBits_of_length_lt {bits : List Bool} (h : bits.length < 8) : bytesOfBits bits = [] :=
  bytesOfBits_bitsOfBytes [] bits h

/-! ### The unstuffer (41_bit_stuffer.md R140) -/

/-- The bytes completed are those of the bits held and of what the unstuffer, in the decoder's run, makes of the bits to come. -/
theorem receivedBytes_eq (bits : List Bool) (h : s.bd.Holds held) (hrun : s.bd.run ≤ 7) :
    receivedBytes s bits = bytesOfBits (held ++ unstuffBits s.bd.run bits) := by
  induction bits generalizing s held with
  | nil =>
    obtain ⟨hlen, hmax, -⟩ := h
    rw [receivedBytes, unstuffBits, List.append_nil, bytesOfBits_of_length_lt (by omega)]
  | cons b rest ih =>
    by_cases hseven : s.bd.run = 7
    · rw [receivedBytes, addBit_of_run_seven hseven, if_neg (show SampleResult.nothing ≠ .byte by decide), hseven,
        unstuffBits_seven_cons]
      exact ih (s := { s with bd := { s.bd with run := 0 } }) h (Nat.zero_le 7)
    have hnext : (if b then s.bd.run + 1 else 0) ≤ 7 := by split <;> omega
    rw [unstuffBits_cons_of_lt (by omega), List.append_cons]
    by_cases hfull : s.bd.nbits = 7
    · obtain ⟨hlen, -, hbyte⟩ := id h
      have height : (held ++ [b]).length = 8 := by rw [List.length_append, hlen, hfull]; rfl
      rw [receivedBytes, addBit_of_nbits_seven hseven hfull h.byte_lt, if_pos rfl, bytesOfBits_append _ _ height,
        bitsVal_append_singleton, hbyte]
      exact congrArg _ (ih (held := []) ⟨rfl, Nat.zero_le 7, rfl⟩ hnext)
    · rw [receivedBytes, addBit_of_nbits_ne_seven hseven hfull h.byte_lt, if_neg (show SampleResult.nothing ≠ .byte by decide)]
      exact ih (h.shiftIn hfull b _) hnext

end Sys2Proof.Machine

namespace Sys2Proof.Proofs

open Sys2Proof Sys2Proof.Machine

/-- Settles O57: the ByteDecoder holds the data bits that make no byte yet, and behind the start byte of the stuffed stream the
unstuffer finds what was stuffed. -/
theorem byteDecoderIsTheUnstuffer : Obligations.ByteDecoderIsTheUnstuffer := by
  intro s hreset
  have hbits : ∀ bits, receivedBytes s bits = bytesOfBits (unstuffBits 0 bits) := fun bits => by
    have hrun : s.bd.run = 0 := by rw [hreset]; rfl
    rw [receivedBytes_eq bits (hreset ▸ Bd.reset_holds) (by omega), hrun, List.nil_append]
  refine ⟨hbits, fun bs => ?_⟩
  rw [stuff_eq_cons, bitsOfBytes_cons, List.drop_left' (bitsOf_length 8 _), hbits]
  exact unstuff_stuff_tail bs

end Sys2Proof.Proofs
end

section
/-! SUPPORT. What WDINIT, WDSAMP and WDGETB answer (44_waveform_decoder.md R218, R221, R242), as the statements write it. -/

namespace Sys2Proof.Machine

variable {s : State} {rd ra rb : Reg}

/-! ### WDINIT (R218) -/

/-- The configuration of the statements: `W` samples hold nine of the slowest cells, `maxdur` is eight of them. -/
theorem wdConfigured_eq (fs tps : Word) :
    wdConfigured fs tps = { Wd.reset with
      fs := fs, tps := tps, w := BitVec.ofNat 16 ((9 * fs.toNat + 319) / 320), maxdur := tps.toNat / 40
      ts12 := (6 * tps.toNat + (5 * fs.toNat - 1)) / (5 * fs.toNat), pmin := max 1 ((tps.toNat + 959) / 960) } := by
  have hmaxdur : 8 * tps.toNat / 320 = tps.toNat / 40 := by omega
  rw [← hmaxdur]
  rfl

theorem wdRefuses_iff (fs tps : Word) :
    wdRefuses fs tps = true ↔ fs.toNat < 1 ∨ tps.toNat < fs.toNat ∨ 4096 < (9 * fs.toNat + 319) / 320 := by
  simp only [wdRefuses, Bool.or_eq_true, decide_eq_true_iff, or_assoc]
  rfl

theorem exec_wdinit_of_refused (h : wdRefuses (s.readX ra) (s.readX rb) = true) :
    exec (.wdinit ra rb) s = .next (failed s 9 6 63 0 (s.readX ra) (s.readX rb) 0) := by
  show execWdinit ra rb s = _
  rw [execWdinit, if_pos h]
  exact raise_eq_failed s _ (by decide : 6 < 256) (by decide : 63 < 64) (by decide : 0 < 16)

theorem exec_wdinit_of_accepted (h : ¬ wdRefuses (s.readX ra) (s.readX rb) = true) :
    exec (.wdinit ra rb) s = complete { s with
      wd := wdConfigured (s.readX ra) (s.readX rb), bd := Bd.reset
      status := { s.status with wdini := true, wdrdy := false, wdovr := false } } := by
  show execWdinit ra rb s = _
  rw [execWdinit, if_neg h]

/-! ### WDSAMP (R221) -/

theorem exec_wdsamp_of_not_init (h : s.status.wdini = false) :
    exec (.wdsamp rd ra rb) s = .next (failed s 11 0 63 0 0 0 0) := by
  show execWdsamp rd ra rb s = _
  rw [execWdsamp, if_pos h]
  exact raise_eq_failed s _ (by decide : 0 < 256) (by decide : 63 < 64) (by decide : 0 < 16)

theorem exec_wdsamp_of_stale (hini : s.status.wdini = true) (hstale : stale s.wd (s.readX ra).toNat = true) :
    exec (.wdsamp rd ra rb) s = complete (s.writeX rd 0) := by
  show execWdsamp rd ra rb s = _
  rw [execWdsamp, if_neg (ne_false_of_eq_true hini), if_pos hstale]

/-- A sample newer than the window is taken: the step of the decoder and its result, and no other register. -/
theorem exec_wdsamp_of_newer (hini : s.status.wdini = true)
    (hnew : ∀ y, s.wd.win.getLast? = some y → y.ts < (s.readX ra).toNat) {p : State × SampleResult}
    (hadd : addSample s (sampleOf s ra rb) = p) :
    ∃ x, exec (.wdsamp rd ra rb) s = .next { succeeded p.1 with x := x } ∧
      WritesRegister s { succeeded p.1 with x := x } rd p.2.word := by
  have hx : p.1.x = s.x := by rw [← hadd, addSample_eq]
  have hexec : exec (.wdsamp rd ra rb) s = complete (p.1.writeX rd p.2.word) := by
    show execWdsamp rd ra rb s = _
    rw [execWdsamp, if_neg (ne_false_of_eq_true hini)]
    simp only [(stale_eq_false s.wd _).2 hnew, amplitude_eq]
    rw [if_neg Bool.false_ne_true, ← hadd]
    rfl
  obtain ⟨t, ht, hreg, hframe⟩ := complete_writeX_givesResult p.1 rd p.2.word
  refine ⟨t.x, by rw [hexec, ht, ← hframe], fun i => ?_⟩
  rw [← hframe, hreg i, State.readX, hx]
  rfl

/-! ### WDGETB (R242) -/

theorem exec_wdgetb (rd : Reg) (s : State) :
    exec (.wdgetb rd) s = complete (State.writeX { s with status := { s.status with wdrdy := false } } rd
      (if s.status.wdrdy then s.wd.rxbyte.setWidth 64 else 0xFFFFFFFFFFFFFFFF)) := by
  show execWdgetb rd s = _
  rw [execWdgetb]
  split
  · rfl
  · next hrdy =>
    have hstatus : s = { s with status := { s.status with wdrdy := false } } := by
      rw [← Bool.eq_false_of_not_eq_true hrdy]
    rw [← hstatus]

end Sys2Proof.Machine

namespace Sys2Proof.Proofs

open Sys2Proof Sys2Proof.Machine

/-- Settles O52: the three refusals are the model's, and the accepted configuration is the one of the statement. -/
theorem wdinitConfigures : Obligations.WdinitConfigures := by
  rintro ra rb s _ _ rfl rfl
  split_ifs with hrefused
  · exact exec_wdinit_of_refused ((wdRefuses_iff _ _).2 hrefused)
  · rw [exec_wdinit_of_accepted fun h => hrefused ((wdRefuses_iff _ _).1 h), wdConfigured_eq]
    rfl

/-- Settles O53: no session, or a sample not newer than the newest of the window. -/
theorem wdsampRefusesAndDrops : Obligations.WdsampRefusesAndDrops := by
  intro rd ra rb s
  refine ⟨exec_wdsamp_of_not_init, fun y hini hy hold => ?_⟩
  have hstale : stale s.wd (s.readX ra).toNat = true := by
    rw [stale, hy]
    exact decide_eq_true hold
  rw [exec_wdsamp_of_stale hini hstale]
  exact complete_writeX_givesResult s rd 0

/-- Settles O58: with no byte waiting WDRDY is 0 already. -/
theorem wdgetbTakesWaitingByte : Obligations.WdgetbTakesWaitingByte := by
  intro rd s
  rw [exec_wdgetb]
  exact complete_writeX_givesResult _ rd _

end Sys2Proof.Proofs
end

section
/-! SUPPORT. A sample that has entered the window (44_waveform_decoder.md R221): the step of each mode, case by case, and what it
leaves unchanged. -/

namespace Sys2Proof.Machine

variable {s u : State} {x : Sample} {r : SampleResult}

/-! ### Into the window, then the step of the mode -/

/-- `s` with the sample `x` in the window. -/
def State.sampled (s : State) (x : Sample) : State := { s with wd := windowed s.wd x }

@[simp] theorem windowed_mode (wd : Wd) (x : Sample) : (windowed wd x).mode = wd.mode := rfl

theorem addSample_of_seek (h : s.Inv) (hmode : s.wd.mode = .seek) : addSample s x = seekStep (s.sampled x) := by
  obtain ⟨-, hsum, -⟩ := h.window
  simp only [addSample, pushSample_eq_windowed _ _ hsum, windowed_mode, hmode, State.sampled]

theorem addSample_of_locked (h : s.Inv) (hmode : s.wd.mode = .locked) :
    addSample s x = lockedStep (s.sampled x) x.ts x.val := by
  obtain ⟨-, hsum, -⟩ := h.window
  simp only [addSample, pushSample_eq_windowed _ _ hsum, windowed_mode, hmode, State.sampled]

/-! ### The tests of a locked sample (R236, R237) -/

theorem lockLost_iff (wd : Wd) (ts : Nat) : lockLost wd ts = true ↔ wd.last + 4 * wd.period.toNat < ts := by
  rw [lockLost, decide_eq_true_iff]
  simp only [Config.locklossPeriods]
  omega

theorem edgeIsEarly_iff (wd : Wd) (ts : Nat) :
    edgeIsEarly wd ts = true ↔ ts + wd.tol.toNat < wd.start + wd.period.toNat := by
  rw [edgeIsEarly, decide_eq_true_iff]
  omega

/-- `s` after the edge at `ts` that opens the next cell. -/
def State.nextCell (s : State) (polarity : Bool) (ts : Nat) : State :=
  { s with wd := { s.wd with prevpol := polarity, last := ts, start := ts, par := false } }

/-! ### A bit delivered (R239) -/

/-- add_bit delivers its bit. -/
theorem addBit_deliversBit (b : Bool) (h : s.bd.byte.toNat < 128) : DeliversBit b s (addBit s b).1 (addBit s b).2.word := by
  unfold DeliversBit
  intro run
  by_cases hrun : s.bd.run = 7
  · rw [addBit_of_run_seven hrun, if_pos hrun]
    exact ⟨rfl, rfl, rfl, rfl, rfl⟩
  rw [if_neg hrun]
  by_cases hnbits : s.bd.nbits = 7
  · rw [addBit_of_nbits_seven hrun hnbits h, if_pos hnbits]
    exact ⟨rfl, rfl, rfl, rfl, rfl⟩
  · rw [addBit_of_nbits_ne_seven hrun hnbits h, if_neg hnbits]
    exact ⟨rfl, rfl, rfl, rfl, rfl⟩

theorem State.Inv.byte_lt (h : s.Inv) : s.bd.byte.toNat < 128 := by
  obtain ⟨hnbits, -, hbyte⟩ := h.byteDecoder
  exact lt_of_lt_of_le hbyte (Nat.pow_le_pow_right (by decide) hnbits)

/-- add_bit changes nothing of the decoder but the receive register. -/
theorem addBit_wd (s : State) (b : Bool) : (addBit s b).1.wd = { s.wd with rxbyte := (addBit s b).1.wd.rxbyte } := by
  rw [addBit_eq]

/-! ### What a sample reports (R222) -/

/-- The locked step reports no lock, and a byte only with WDRDY set. -/
theorem lockedStep_result (s : State) (ts : Nat) (a : Int) :
    (lockedStep s ts a).2 = .nothing ∨ (lockedStep s ts a).2 = .byte ∧ (lockedStep s ts a).1.status.wdrdy = true := by
  obtain ⟨-, h⟩ | ⟨-, -, h⟩ | ⟨-, -, -, h⟩ | ⟨-, -, -, -, h⟩ | ⟨-, -, -, -, h⟩ := lockedStep_cases s ts a
  all_goals rw [h]
  · obtain ⟨-, h⟩ | ⟨-, h⟩ := loseLock_cases s
    all_goals rw [h]
    · exact .inl rfl
    · exact addBit_result s s.wd.par
  · exact .inl rfl
  · exact .inl rfl
  · exact .inl rfl
  · exact addBit_result _ _

theorem addSample_eq_lock_iff (h : s.Inv) (hadd : addSample s x = (u, r)) :
    r = .lock ↔ s.wd.mode = .seek ∧ u.wd.mode = .locked := by
  cases hmode : s.wd.mode with
  | seek =>
    rw [addSample_of_seek h hmode] at hadd
    obtain hs | ⟨d, -, hs⟩ := seekStep_cases (s.sampled x)
    all_goals cases hs.symm.trans hadd
    · simp [State.sampled, windowed, hmode]
    · simp [acquireLock]
  | locked =>
    rw [addSample_of_locked h hmode] at hadd
    have hs := lockedStep_result (s.sampled x) x.ts x.val
    rw [hadd] at hs
    obtain rfl | ⟨rfl, -⟩ := hs <;> simp

theorem addSample_eq_byte (h : s.Inv) (hadd : addSample s x = (u, r)) (hr : r = .byte) :
    s.wd.mode = .locked ∧ u.status.wdrdy = true := by
  subst hr
  cases hmode : s.wd.mode with
  | seek =>
    rw [addSample_of_seek h hmode] at hadd
    obtain hs | ⟨d, -, hs⟩ := seekStep_cases (s.sampled x) <;> cases hs.symm.trans hadd
  | locked =>
    rw [addSample_of_locked h hmode] at hadd
    have hs := lockedStep_result (s.sampled x) x.ts x.val
    rw [hadd] at hs
    exact ⟨rfl, hs.elim nofun And.right⟩

theorem SampleResult.word_cases (r : SampleResult) : r.word = 0 ∨ r.word = 1 ∨ r.word = 0xFFFFFFFFFFFFFFFF := by
  cases r <;> decide

theorem SampleResult.word_eq_ones_iff (r : SampleResult) : r.word = 0xFFFFFFFFFFFFFFFF ↔ r = .lock := by
  cases r <;> decide

theorem SampleResult.word_eq_one_iff (r : SampleResult) : r.word = 1 ↔ r = .byte := by
  cases r <;> decide

/-! ### What a sample leaves of the decoder -/

/-- The window and the configuration of `wd`, with the mode, the lock and the receive register of `session`. -/
def Wd.withSession (wd session : Wd) : Wd :=
  { session with
    fs := wd.fs, tps := wd.tps, w := wd.w, maxdur := wd.maxdur, ts12 := wd.ts12, pmin := wd.pmin
    win := wd.win, sum := wd.sum }

theorem addBit_withSession (s : State) (b : Bool) : (addBit s b).1.wd = s.wd.withSession (addBit s b).1.wd := by
  rw [addBit_wd]
  rfl

theorem lockedStep_withSession (s : State) (ts : Nat) (a : Int) :
    (lockedStep s ts a).1.wd = s.wd.withSession (lockedStep s ts a).1.wd := by
  obtain ⟨-, h⟩ | ⟨-, -, h⟩ | ⟨-, -, -, h⟩ | ⟨-, -, -, -, h⟩ | ⟨-, -, -, -, h⟩ := lockedStep_cases s ts a
  all_goals rw [h]
  · obtain ⟨-, h⟩ | ⟨-, h⟩ := loseLock_cases s
    all_goals rw [h]
    · rfl
    · rw [addBit_wd]
      rfl
  · rfl
  · rfl
  · rfl
  · exact addBit_withSession _ _

/-- Beyond the sample in its window, a sample changes of the decoder only what belongs to the session. -/
theorem addSample_withSession (h : s.Inv) (x : Sample) :
    (addSample s x).1.wd = (windowed s.wd x).withSession (addSample s x).1.wd := by
  cases hmode : s.wd.mode with
  | seek =>
    rw [addSample_of_seek h hmode]
    obtain h | ⟨d, -, h⟩ := seekStep_cases (s.sampled x) <;> rw [h] <;> rfl
  | locked =>
    rw [addSample_of_locked h hmode]
    exact lockedStep_withSession _ _ _

end Sys2Proof.Machine

namespace Sys2Proof.Proofs

open Sys2Proof Sys2Proof.Machine

/-- Settles O54: the step of either mode works on the decoder with the sample in its window; only the seeking step reports a lock,
and only the locked step a byte. -/
theorem wdsampTakesSample : Obligations.WdsampTakesSample := by
  intro rd ra rb s hinv hini hnew
  have hframe := addSample_eq s (sampleOf s ra rb)
  have hwd := addSample_withSession hinv (sampleOf s ra rb)
  obtain ⟨u, r, hadd⟩ : ∃ u r, addSample s (sampleOf s ra rb) = (u, r) := ⟨_, _, rfl⟩
  have hlock := addSample_eq_lock_iff hinv hadd
  have hbyte := addSample_eq_byte hinv hadd
  rw [hadd] at hframe hwd
  obtain ⟨x, hexec, hreg⟩ := exec_wdsamp_of_newer (rd := rd) hini hnew hadd
  have hsum : u.wd.sum = (u.wd.win.map Sample.val).sum := by
    rw [hwd]
    rfl
  exact ⟨_, _, hexec, hreg, congrArg (fun u => { succeeded u with x := x }) hframe, congrArg Wd.win hwd, hsum,
    (congrArg Wd.fs hwd :), (congrArg Wd.tps hwd :), (congrArg Wd.w hwd :), (congrArg Wd.maxdur hwd :), (congrArg Wd.ts12 hwd :),
    (congrArg Wd.pmin hwd :), r.word_cases, r.word_eq_ones_iff.trans hlock,
    fun hone => hbyte (r.word_eq_one_iff.1 hone)⟩

/-- Settles O56: the five cases of the locked step, each with its test as a comparison of times. -/
theorem lockedSampleClassifiesEdge : Obligations.LockedSampleClassifiesEdge := by
  intro rd ra rb s hinv hmode hnew x wd polarity
  obtain ⟨hini, -⟩ := hinv.lock hmode
  have hstep : addSample s x = lockedStep (s.sampled x) x.ts x.val := addSample_of_locked hinv hmode
  have hlost_iff : lockLost wd x.ts = true ↔ s.wd.last + 4 * s.wd.period.toNat < x.ts := lockLost_iff wd x.ts
  have hearly_iff : edgeIsEarly wd x.ts = true ↔ x.ts + s.wd.tol.toNat < s.wd.start + s.wd.period.toNat :=
    edgeIsEarly_iff wd x.ts
  obtain ⟨hlost, h⟩ | ⟨hlost, (hpol : polarity = s.wd.prevpol), h⟩ |
      ⟨hlost, (hpol : polarity ≠ s.wd.prevpol), hearly, h⟩ |
      ⟨hlost, (hpol : polarity ≠ s.wd.prevpol), hearly, (hskip : s.wd.skip = true), h⟩ |
      ⟨hlost, (hpol : polarity ≠ s.wd.prevpol), hearly, (hskip : s.wd.skip = false),
        (h : lockedStep (s.sampled x) x.ts x.val = addBit ((s.sampled x).nextCell polarity x.ts) s.wd.par)⟩ :=
    lockedStep_cases (s.sampled x) x.ts x.val
  all_goals rw [h] at hstep
  · obtain ⟨(hskip : s.wd.skip = true), h⟩ | ⟨(hskip : s.wd.skip = false), h⟩ := loseLock_cases (s.sampled x)
    all_goals
      rw [h] at hstep
      obtain ⟨x', hexec, hreg⟩ := exec_wdsamp_of_newer (rd := rd) hini hnew hstep
      refine ⟨_, _, hexec, hreg, ?_⟩
      rw [if_pos (hlost_iff.1 hlost)]
    · rw [if_pos hskip]
      exact ⟨rfl, rfl, rfl, rfl⟩
    · rw [if_neg (ne_true_of_eq_false hskip)]
      exact ⟨congrArg (fun w : Wd => { w with mode := .seek }) (addBit_wd (s.sampled x) s.wd.par),
        addBit_deliversBit (s := s.sampled x) _ hinv.byte_lt⟩
  all_goals
    obtain ⟨x', hexec, hreg⟩ := exec_wdsamp_of_newer (rd := rd) hini hnew hstep
    refine ⟨_, _, hexec, hreg, ?_⟩
    rw [if_neg fun h => ne_true_of_eq_false hlost (hlost_iff.2 h)]
  · rw [if_pos hpol]
    exact ⟨rfl, rfl⟩
  all_goals rw [if_neg hpol]
  · rw [if_pos (hearly_iff.1 hearly)]
    exact ⟨rfl, rfl⟩
  all_goals rw [if_neg fun h => ne_true_of_eq_false hearly (hearly_iff.2 h)]
  · rw [if_pos hskip]
    exact ⟨rfl, rfl⟩
  · rw [if_neg (ne_true_of_eq_false hskip)]
    exact ⟨addBit_wd _ _, addBit_deliversBit (s := (s.sampled x).nextCell polarity x.ts) _ hinv.byte_lt⟩

end Sys2Proof.Proofs
end

section
/-! SUPPORT. The zero-crossings of a window (44_waveform_decoder.md R220): the machine's times and the statements' places. -/

namespace Sys2Proof.Machine

variable {win : List Sample} {sum : Int} {i j : Nat}

/-! ### The place of a crossing -/

theorem CrossesAt.pos (h : CrossesAt win sum i) : 0 < i := by
  obtain ⟨-, -, hi, -⟩ := h
  exact hi

theorem CrossesAt.lt_length (h : CrossesAt win sum i) : i < win.length := by
  obtain ⟨-, y, -, -, hy, -⟩ := h
  exact (List.getElem?_eq_some_iff.1 hy).1

/-- A crossing is a change of polarity. -/
theorem crossesAt_succ_iff : CrossesAt win sum (i + 1) ↔
    ∃ x y, win[i]? = some x ∧ win[i + 1]? = some y ∧ pol x.val sum win.length ≠ pol y.val sum win.length := by
  simp [CrossesAt, pol]

theorem timeAt_of_getElem? {x : Sample} (h : win[i]? = some x) : timeAt win i = x.ts := by rw [timeAt, h]; rfl

/-- Timestamps rise with the places. -/
theorem timeAt_lt_timeAt (hrising : win.Pairwise (fun x y => x.ts < y.ts)) (hij : i < j) (hj : j < win.length) :
    timeAt win i < timeAt win j := by
  rw [timeAt_of_getElem? (List.getElem?_eq_getElem (hij.trans hj)), timeAt_of_getElem? (List.getElem?_eq_getElem hj)]
  exact List.pairwise_iff_getElem.1 hrising i j _ hj hij

theorem lt_of_timeAt_lt (hrising : win.Pairwise (fun x y => x.ts < y.ts)) (hi : i < win.length)
    (h : timeAt win i < timeAt win j) : i < j := by
  by_contra hij
  obtain rfl | hlt := (not_lt.1 hij).eq_or_lt
  · exact lt_irrefl _ h
  · exact lt_asymm h (timeAt_lt_timeAt hrising hlt hi)

theorem eq_of_timeAt_eq (hrising : win.Pairwise (fun x y => x.ts < y.ts)) (hi : i < win.length) (hj : j < win.length)
    (h : timeAt win i = timeAt win j) : i = j := by
  obtain hlt | heq | hlt := Nat.lt_trichotomy i j
  · exact absurd h (timeAt_lt_timeAt hrising hlt hj).ne
  · exact heq
  · exact absurd h (timeAt_lt_timeAt hrising hlt hi).ne'

/-! ### The times of the crossings -/

/-- The machine finds a crossing at the later of two neighbours of different polarity. -/
theorem mem_crossingsFrom_iff {s : Int} {n τ : Nat} {x : Sample} {rest : List Sample} :
    τ ∈ crossingsFrom s n (pol x.val s n) rest ↔
      ∃ (i : Nat) (y z : Sample), (x :: rest)[i]? = some y ∧ rest[i]? = some z ∧ pol y.val s n ≠ pol z.val s n ∧ z.ts = τ := by
  induction rest generalizing x with
  | nil => simp [crossingsFrom]
  | cons z rest ih =>
    rw [crossingsFrom, ← Nat.or_exists_add_one]
    simp only [List.getElem?_cons_zero, List.getElem?_cons_succ, ← ih]
    split
    · next hsame => simp [hsame]
    · next hcross => simp [Ne.symm hcross, eq_comm (a := τ)]

/-- The machine's crossings are the times of the statements' crossings. -/
theorem mem_crossings_iff {τ : Nat} :
    τ ∈ crossings sum win.length win ↔ ∃ i, CrossesAt win sum i ∧ timeAt win i = τ := by
  rw [← Nat.or_exists_add_one]
  have hzero : ¬ (CrossesAt win sum 0 ∧ timeAt win 0 = τ) := fun h => lt_irrefl 0 h.1.pos
  simp only [hzero, false_or, crossesAt_succ_iff]
  cases win with
  | nil => simp [crossings]
  | cons x rest =>
    rw [crossings, mem_crossingsFrom_iff]
    refine exists_congr fun i => ⟨?_, ?_⟩
    · rintro ⟨y, z, hy, hz, hne, rfl⟩
      exact ⟨⟨y, z, hy, hz, hne⟩, timeAt_of_getElem? hz⟩
    · rintro ⟨⟨y, z, hy, hz, hne⟩, rfl⟩
      exact ⟨y, z, hy, hz, hne, (timeAt_of_getElem? hz).symm⟩

theorem crossings_rising (hrising : win.Pairwise (fun x y => x.ts < y.ts)) (n : Nat) :
    (crossings sum n win).Pairwise (· < ·) :=
  (List.pairwise_map.2 hrising).sublist ((crossings_sublist sum n win).trans ((List.tail_sublist win).map _))

/-- The machine's test of the newest sample. -/
theorem newestCrosses_iff (wd : Wd) : newestCrosses wd = true ↔ CrossesAt wd.win wd.sum (wd.win.length - 1) := by
  unfold newestCrosses
  split
  · next y x rest hrev =>
    have hwin : wd.win = rest.reverse ++ [x, y] := by
      rw [← List.reverse_reverse wd.win, hrev, List.reverse_cons, List.reverse_cons, List.append_assoc]
      rfl
    have hx : wd.win[rest.length]? = some x := by simp [hwin]
    have hy : wd.win[rest.length + 1]? = some y := by simp [hwin]
    have hlast : wd.win.length - 1 = rest.length + 1 := by simp [hwin]
    rw [bne_iff_ne, hlast, crossesAt_succ_iff]
    simp [hx, hy, eq_comm]
  · next hshort =>
    refine ⟨fun h => absurd h Bool.false_ne_true, fun h => ?_⟩
    have hlen : 2 ≤ wd.win.reverse.length := by
      have := h.pos
      rw [List.length_reverse]
      omega
    match hrev : wd.win.reverse, hlen with
    | y :: x :: rest, _ => exact absurd hrev (hshort y x rest)

/-! ### The 16 newest crossings -/

/-- The crossings at `j 0`, …, `j 15` are the 16 newest of a window. -/
def NewestCrossingsAt (win : List Sample) (sum : Int) (j : Fin 16 → Nat) : Prop :=
  StrictMono j ∧ (∀ k, CrossesAt win sum (j k)) ∧ ∀ i, CrossesAt win sum i → (∃ k, j k = i) ∨ i < j 0

variable {j : Fin 16 → Nat} {older : List Nat}

/-- Their times rise. -/
theorem NewestCrossingsAt.strictMono_times (h : NewestCrossingsAt win sum j)
    (hrising : win.Pairwise (fun x y => x.ts < y.ts)) : StrictMono fun k => timeAt win (j k) := by
  obtain ⟨hmono, hcross, -⟩ := h
  exact fun k l hkl => timeAt_lt_timeAt hrising (hmono hkl) (hcross l).lt_length

/-- Then the machine's crossings end in their times. -/
theorem NewestCrossingsAt.crossings_eq (h : NewestCrossingsAt win sum j)
    (hrising : win.Pairwise (fun x y => x.ts < y.ts)) :
    ∃ older, crossings sum win.length win = older ++ List.ofFn fun k => timeAt win (j k) := by
  have htimes := h.strictMono_times hrising
  obtain ⟨hmono, hcross, hnewest⟩ := h
  have hall := crossings_rising (sum := sum) hrising win.length
  have hbefore : ∀ τ ∈ (crossings sum win.length win).filter (· < timeAt win (j 0)),
      ∀ τ' ∈ List.ofFn fun k => timeAt win (j k), τ < τ' := fun τ hτ τ' hτ' => by
    obtain ⟨k, rfl⟩ := List.mem_ofFn.1 hτ'
    have hτ : τ < timeAt win (j 0) := by simpa using (List.mem_filter.1 hτ).2
    exact hτ.trans_le (htimes.monotone (Fin.zero_le k))
  have hsplit := List.pairwise_append.2 ⟨hall.filter _, List.pairwise_ofFn.2 htimes, hbefore⟩
  refine ⟨_, hall.eq_of_mem_iff hsplit fun τ => ?_⟩
  rw [List.mem_append, List.mem_filter, List.mem_ofFn, decide_eq_true_iff]
  constructor
  · intro hτ
    obtain ⟨i, hi, rfl⟩ := mem_crossings_iff.1 hτ
    obtain ⟨k, rfl⟩ | hlt := hnewest i hi
    · exact .inr ⟨k, rfl⟩
    · exact .inl ⟨hτ, timeAt_lt_timeAt hrising hlt (hcross 0).lt_length⟩
  · rintro (⟨hτ, -⟩ | ⟨k, rfl⟩)
    · exact hτ
    · exact mem_crossings_iff.2 ⟨j k, hcross k, rfl⟩

/-- And where the machine's crossings end in 16 times, these are the times of the 16 newest. -/
theorem exists_newestCrossingsAt {newest : List Nat} (hc : crossings sum win.length win = older ++ newest)
    (hlen : newest.length = 16) (hrising : win.Pairwise (fun x y => x.ts < y.ts)) :
    ∃ j, NewestCrossingsAt win sum j ∧ newest = List.ofFn fun k => timeAt win (j k) := by
  have hsorted := crossings_rising (sum := sum) hrising win.length
  rw [hc, List.pairwise_append] at hsorted
  obtain ⟨-, hcsorted, holder⟩ := hsorted
  have hplace : ∀ k : Fin 16, ∃ i, CrossesAt win sum i ∧ timeAt win i = newest[k.val] := fun k =>
    mem_crossings_iff.1 (hc ▸ List.mem_append_right older (List.getElem_mem _))
  choose j hcross htime using hplace
  have hofFn : newest = List.ofFn fun k => timeAt win (j k) := by
    refine List.ext_getElem (by simp [hlen]) fun k hk _ => ?_
    rw [List.getElem_ofFn]
    exact (htime ⟨k, by omega⟩).symm
  refine ⟨j, ⟨fun k l hkl => ?_, hcross, fun i hi => ?_⟩, hofFn⟩
  · refine lt_of_timeAt_lt hrising (hcross k).lt_length ?_
    rw [htime, htime]
    exact List.pairwise_iff_getElem.1 hcsorted k l _ _ hkl
  · have hmem := mem_crossings_iff.2 ⟨i, hi, rfl⟩
    rw [hc, List.mem_append] at hmem
    obtain hbefore | hlast := hmem
    · refine .inr (lt_of_timeAt_lt hrising hi.lt_length ?_)
      exact holder _ hbefore _ (hofFn ▸ List.mem_ofFn.2 ⟨0, rfl⟩)
    · rw [hofFn, List.mem_ofFn] at hlast
      obtain ⟨k, hk⟩ := hlast
      exact .inl ⟨k, eq_of_timeAt_eq hrising (hcross k).lt_length hi.lt_length hk⟩

/-- The times before those of the 16 newest are those of the crossings before them. -/
theorem NewestCrossingsAt.mem_older_iff (h : NewestCrossingsAt win sum j)
    (hrising : win.Pairwise (fun x y => x.ts < y.ts))
    (hc : crossings sum win.length win = older ++ List.ofFn fun k => timeAt win (j k)) {τ : Nat} :
    τ ∈ older ↔ ∃ i, CrossesAt win sum i ∧ i < j 0 ∧ timeAt win i = τ := by
  have htimes := h.strictMono_times hrising
  obtain ⟨hmono, hcross, -⟩ := h
  have hsorted := crossings_rising (sum := sum) hrising win.length
  rw [hc, List.pairwise_append] at hsorted
  obtain ⟨-, -, holder⟩ := hsorted
  constructor
  · intro hτ
    obtain ⟨i, hi, rfl⟩ := mem_crossings_iff.1 (hc ▸ List.mem_append_left _ hτ)
    have hlt : timeAt win i < timeAt win (j 0) := holder _ hτ _ (List.mem_ofFn.2 ⟨0, rfl⟩)
    exact ⟨i, hi, lt_of_timeAt_lt hrising hi.lt_length hlt, rfl⟩
  · rintro ⟨i, hi, hlt, rfl⟩
    have hmem := mem_crossings_iff.2 ⟨i, hi, rfl⟩
    rw [hc, List.mem_append, List.mem_ofFn] at hmem
    refine hmem.resolve_right ?_
    rintro ⟨k, hk⟩
    have hk0 : timeAt win (j 0) ≤ timeAt win (j k) := htimes.monotone (Fin.zero_le k)
    exact absurd (timeAt_lt_timeAt hrising hlt (hcross 0).lt_length) (not_lt.2 (hk ▸ hk0))

end Sys2Proof.Machine
end

section
/-! SUPPORT. The start symbol (44_waveform_decoder.md R223, R226 to R230): the machine's scan of the window finds one exactly where
the statements' `StartSymbolAt` has one. -/

namespace Sys2Proof.Machine

variable {wd : Wd} {t0 : Nat} {c : Fin 16 → Nat} {older : List Nat} {d : LockData} {j : Fin 16 → Nat}

/-! ### The tests on sixteen times -/

/-- The tests of a start symbol on the times `c` of the 16 newest crossings, the older ones and the oldest time `t0`. -/
def StartTests (wd : Wd) (t0 : Nat) (c : Fin 16 → Nat) (older : List Nat) : Prop :=
  let period := (c 14 - c 0) / 7
  let tol := max (period / 4) wd.ts12
  c 15 - c 0 ≤ wd.maxdur ∧ wd.pmin ≤ period ∧
    (∀ k : Fin 7, c ⟨2 * k + 2, by omega⟩ ≤ c ⟨2 * k, by omega⟩ + period + tol ∧
      c ⟨2 * k, by omega⟩ + period ≤ c ⟨2 * k + 2, by omega⟩ + tol) ∧
    t0 + period ≤ c 0 ∧ ∀ t ∈ older, t + period < c 0

/-- What a start symbol at the times `c` commits. -/
def lockOf (wd : Wd) (c : Fin 16 → Nat) : LockData :=
  { period := (c 14 - c 0) / 7, tol := max ((c 14 - c 0) / 7 / 4) wd.ts12, start := c 14, last := c 15 }

theorem getD_ofFn (c : Fin 16 → Nat) (k : Nat) (hk : k < 16) : (List.ofFn c).getD k 0 = c ⟨k, hk⟩ := by
  rw [List.getD_eq_getElem _ _ (by rwa [List.length_ofFn]), List.getElem_ofFn]

/-- The machine's test of the cells, in numbers. -/
theorem cellsConsistent_ofFn_iff (c : Fin 16 → Nat) (period tol : Nat) :
    cellsConsistent (List.ofFn c) period tol = true ↔
      ∀ k : Fin 7, c ⟨2 * k + 2, by omega⟩ ≤ c ⟨2 * k, by omega⟩ + period + tol ∧
        c ⟨2 * k, by omega⟩ + period ≤ c ⟨2 * k + 2, by omega⟩ + tol := by
  simp only [cellsConsistent, List.all_eq_true, List.mem_range, decide_eq_true_iff]
  rw [Fin.forall_iff]
  refine forall₂_congr fun k hk => ?_
  rw [getD_ofFn c (2 * k + 2) (by omega), getD_ofFn c (2 * k) (by omega)]
  dsimp only
  omega

/-- The machine's test of the quiet interval, in numbers. -/
theorem quietBefore_iff (t0 c0 period : Nat) (older : List Nat) :
    quietBefore t0 c0 period older = true ↔ t0 + period ≤ c0 ∧ ∀ t ∈ older, t + period < c0 := by
  simp only [quietBefore, Config.quietPeriods, Bool.and_eq_true, decide_eq_true_iff, List.all_eq_true]
  refine and_congr (by omega) (forall₂_congr fun t _ => by omega)

/-- The machine's tests and what they commit, in numbers. -/
theorem startSymbol_ofFn_iff (hc : StrictMono c) :
    startSymbol wd t0 (List.ofFn c) older = some d ↔ StartTests wd t0 c older ∧ d = lockOf wd c := by
  have h14 : c 0 < c 14 := hc (by decide)
  have h15 : c 14 < c 15 := hc (by decide)
  have hc0 : (List.ofFn c).getD 0 0 = c 0 := getD_ofFn c 0 (by decide)
  have hc14 : (List.ofFn c).getD 14 0 = c 14 := getD_ofFn c 14 (by decide)
  have hc15 : (List.ofFn c).getD 15 0 = c 15 := getD_ofFn c 15 (by decide)
  have hdur : (c 15 : Int) - c 0 ≤ wd.maxdur ↔ c 15 - c 0 ≤ wd.maxdur := by omega
  have hperiod : ((c 14 : Int) - c 0) / 7 = ((c 14 - c 0) / 7 : Nat) := by omega
  have htol : max ((((c 14 - c 0) / 7 : Nat) : Int) / Config.tolDiv) wd.ts12 =
      (max ((c 14 - c 0) / 7 / 4) wd.ts12 : Nat) := by
    simp only [Config.tolDiv]
    omega
  simp only [startSymbol, hc0, hc14, hc15, hdur, hperiod, htol, cellsConsistent_ofFn_iff, quietBefore_iff, Int.toNat_natCast,
    Nat.cast_le, Option.ite_none_right_eq_some, Option.some.injEq]
  exact and_congr_right fun _ => eq_comm

/-! ### The scan of the window (R223) -/

/-- The scan tests the 16 newest times of the machine's crossings. -/
theorem seekScan_eq_some_iff : seekScan wd = some d ↔ newestCrosses wd = true ∧
    ∃ older newest, crossings wd.sum wd.win.length wd.win = older ++ newest ∧ newest.length = 16 ∧
      startSymbol wd (timeAt wd.win 0) newest older = some d := by
  have holdest : (wd.win.head?.map Sample.ts).getD 0 = timeAt wd.win 0 := by rw [timeAt, List.head?_eq_getElem?]
  simp only [seekScan, holdest, Option.ite_none_right_eq_some, Option.ite_none_left_eq_some, Config.startZc]
  refine and_congr_right fun _ => ⟨?_, ?_⟩
  · rintro ⟨hlen, hsym⟩
    exact ⟨_, _, (List.take_append_drop _ _).symm, by rw [List.length_drop]; omega, hsym⟩
  · rintro ⟨older, newest, hall, hlen, hsym⟩
    have hcut : (older ++ newest).length - 16 = older.length := by rw [List.length_append, hlen, Nat.add_sub_cancel]
    rw [hall, hcut, List.drop_left, List.take_left]
    exact ⟨by rw [List.length_append]; omega, hsym⟩

/-- A start symbol of the statements, by the times of its crossings. -/
theorem startSymbolAt_iff (hrising : wd.win.Pairwise (fun x y => x.ts < y.ts)) (hj : NewestCrossingsAt wd.win wd.sum j)
    (hall : crossings wd.sum wd.win.length wd.win = older ++ List.ofFn fun k => timeAt wd.win (j k)) :
    StartSymbolAt wd wd.win wd.sum j ↔
      j 15 + 1 = wd.win.length ∧ StartTests wd (timeAt wd.win 0) (fun k => timeAt wd.win (j k)) older := by
  have holder : ∀ b, (∀ t ∈ older, t + b < timeAt wd.win (j 0)) ↔
      ∀ i, CrossesAt wd.win wd.sum i → i < j 0 → timeAt wd.win i + b < timeAt wd.win (j 0) := fun b => by
    simp only [hj.mem_older_iff hrising hall]
    exact ⟨fun h i hi hlt => h _ ⟨i, hi, hlt, rfl⟩, fun h t ⟨i, hi, hlt, ht⟩ => ht ▸ h i hi hlt⟩
  obtain ⟨hmono, hcross, hnewest⟩ := hj
  constructor
  · rintro ⟨-, -, hlast, -, hdur, hmin, hcells, hfirst, hquiet⟩
    exact ⟨hlast, hdur, hmin, hcells, hfirst, (holder _).2 hquiet⟩
  · rintro ⟨hlast, hdur, hmin, hcells, hfirst, hquiet⟩
    exact ⟨hmono, hcross, hlast, hnewest, hdur, hmin, hcells, hfirst, (holder _).1 hquiet⟩

/-- The scan locks on a start symbol of the statements. -/
theorem seekScan_of_startSymbolAt (hrising : wd.win.Pairwise (fun x y => x.ts < y.ts))
    (h : StartSymbolAt wd wd.win wd.sum j) : seekScan wd = some (lockOf wd fun k => timeAt wd.win (j k)) := by
  obtain ⟨hmono, hcross, hlast, hnewest, -⟩ := id h
  have hj : NewestCrossingsAt wd.win wd.sum j := ⟨hmono, hcross, hnewest⟩
  obtain ⟨older, hall⟩ := hj.crossings_eq hrising
  obtain ⟨-, htests⟩ := (startSymbolAt_iff hrising hj hall).1 h
  refine seekScan_eq_some_iff.2 ⟨(newestCrosses_iff wd).2 ?_, older, _, hall, List.length_ofFn, ?_⟩
  · rw [← hlast]
    exact hcross 15
  · exact (startSymbol_ofFn_iff (hj.strictMono_times hrising)).2 ⟨htests, rfl⟩

/-- And on nothing else. -/
theorem exists_startSymbolAt_of_seekScan (hrising : wd.win.Pairwise (fun x y => x.ts < y.ts)) (h : seekScan wd = some d) :
    ∃ j, StartSymbolAt wd wd.win wd.sum j := by
  obtain ⟨hcrosses, older, newest, hall, hlen, hsym⟩ := seekScan_eq_some_iff.1 h
  obtain ⟨j, hj, rfl⟩ := exists_newestCrossingsAt hall hlen hrising
  obtain ⟨htests, -⟩ := (startSymbol_ofFn_iff (hj.strictMono_times hrising)).1 hsym
  refine ⟨j, (startSymbolAt_iff hrising hj hall).2 ⟨?_, htests⟩⟩
  obtain ⟨hmono, hcross, hnewest⟩ := hj
  have hlast := (newestCrosses_iff wd).1 hcrosses
  have hmax : ∀ k, j k ≤ j 15 := fun k => hmono.monotone (Fin.le_last k)
  have hlt := (hcross 15).lt_length
  obtain ⟨k, hk⟩ | hbefore := hnewest _ hlast
  · have := hmax k
    omega
  · have := hmax 0
    omega

/-! ### The seeking step (R223, R233) -/

theorem seekStep_of_none {s : State} (h : seekScan s.wd = none) : seekStep s = (s, .nothing) := by rw [seekStep, h]

theorem seekStep_of_some {s : State} (h : seekScan s.wd = some d) : seekStep s = (acquireLock s d, .lock) := by
  rw [seekStep, h]

/-- Lock acquired by the sample `x`: the polarity committed is that of `x`. -/
theorem acquireLock_sampled_wd (s : State) (x : Sample) (d : LockData) :
    (acquireLock (s.sampled x) d).wd = { windowed s.wd x with
      mode := .locked, lsum := (windowed s.wd x).sum, lcnt := (windowed s.wd x).win.length
      prevpol := decide ((windowed s.wd x).sum < x.val * (windowed s.wd x).win.length)
      period := BitVec.ofNat 64 d.period, tol := BitVec.ofNat 64 d.tol, start := d.start, last := d.last
      par := true, skip := true } := by
  have hnewest : (windowed s.wd x).win.getLast? = some x := windowAfter_getLast s.wd x
  simp only [acquireLock, State.sampled, hnewest]
  rfl

end Sys2Proof.Machine

namespace Sys2Proof.Proofs

open Sys2Proof Sys2Proof.Machine

/-- Settles O55: the machine's scan and the statement's start symbol are the same tests on the same sixteen crossings. -/
theorem locksExactlyOnStartSymbol : Obligations.LocksExactlyOnStartSymbol := by
  intro rd ra rb s t hinv hini hmode hnew hexec
  obtain ⟨-, -, hrising, -⟩ := hinv.window
  have hrising : (s.sampled (sampleOf s ra rb)).wd.win.Pairwise (fun x y => x.ts < y.ts) :=
    windowAfter_rising s.wd _ hrising hnew
  have hadd := addSample_of_seek (x := sampleOf s ra rb) hinv hmode
  cases hscan : seekScan (s.sampled (sampleOf s ra rb)).wd with
  | none =>
    obtain ⟨x, hnext, hreg⟩ := exec_wdsamp_of_newer (rd := rd) hini hnew (hadd.trans (seekStep_of_none hscan))
    obtain rfl := Host.Outcome.next.inj (hexec.symm.trans hnext)
    have hno : ∀ j, ¬ StartSymbolAt s.wd (windowed s.wd (sampleOf s ra rb)).win (windowed s.wd (sampleOf s ra rb)).sum j :=
      fun j hj => nomatch hscan.symm.trans (seekScan_of_startSymbolAt hrising hj)
    have hseek : (s.sampled (sampleOf s ra rb)).wd.mode ≠ .locked := fun h => nomatch hmode.symm.trans h
    exact ⟨⟨fun h => absurd h hseek, fun ⟨j, hj⟩ => absurd hj (hno j)⟩, fun j hj => absurd hj (hno j),
      fun _ => ⟨rfl, hreg⟩⟩
  | some d =>
    obtain ⟨x, hnext, -⟩ := exec_wdsamp_of_newer (rd := rd) hini hnew (hadd.trans (seekStep_of_some hscan))
    obtain rfl := Host.Outcome.next.inj (hexec.symm.trans hnext)
    have hsymbol := exists_startSymbolAt_of_seekScan hrising hscan
    refine ⟨⟨fun _ => hsymbol, fun _ => rfl⟩, fun j hj => ?_, fun hno => absurd hsymbol hno⟩
    obtain rfl := Option.some.inj ((seekScan_of_startSymbolAt hrising hj).symm.trans hscan)
    exact ⟨acquireLock_sampled_wd s _ _, rfl, rfl, rfl⟩

end Sys2Proof.Proofs
end

section
/-! SUPPORT. What the system and the buffer commands answer (45_system_and_buffer.md), test by test. -/

namespace Sys2Proof.Machine

variable {s : State} {rd ra rb : Reg} {e : Int} {sr off : Nat} {b : Buf}

/-! ### MKDEC (R259) -/

theorem sint_eq (w : Word) : sint w = w.toInt := sx_toNat w (by decide)

theorem exec_mkdec_of_fits (h : -2 ^ 55 ≤ (s.readX ra).toInt ∧ (s.readX ra).toInt ≤ 2 ^ 55 - 1) :
    exec (.mkdec rd ra e) s = complete (s.writeX rd (decWord (s.readX ra).toInt e)) := by
  show execMkdec rd ra e s = _
  simp only [execMkdec, sint_eq, dec_eq]
  exact if_neg (by omega)

theorem exec_mkdec_of_too_wide (h : ¬(-2 ^ 55 ≤ (s.readX ra).toInt ∧ (s.readX ra).toInt ≤ 2 ^ 55 - 1)) :
    exec (.mkdec rd ra e) s = raise s (illegalOperand 7 (s.readX ra)) := by
  show execMkdec rd ra e s = _
  simp only [execMkdec, sint_eq]
  exact if_pos (by omega)

/-! ### RDSR (R261) -/

/-- STATUS without its BUSY digit: the mask of the statement clears bit 0 and keeps every other. -/
theorem statusRead_eq (s : State) : statusRead s = statusWord s &&& 0xFFFE := by
  have hmask : ∀ i < 16, (0xFFFE : BitVec 16).getLsbD i = !decide (i = 0) := by decide
  have hword := statusWord_toNat s
  have hread : (statusRead s).toNat = _ := statusWord_toNat { s with status := { s.status with busy := false } }
  have hlock : wdlock { s with status := { s.status with busy := false } } = wdlock s := rfl
  have hbusy := Bool.toNat_le s.status.busy
  simp only [hlock, Bool.toNat_false] at hread
  refine BitVec.eq_of_getLsbD_eq fun i hi => ?_
  rw [BitVec.getLsbD_and, hmask i hi]
  cases i with
  | zero =>
    rw [decide_eq_true rfl, Bool.not_true, Bool.and_false]
    exact getLsbD_of_toNat _ 0 false (by rw [Bool.toNat_false]; omega)
  | succ i =>
    have hhalf : (statusRead s).toNat / 2 = (statusWord s).toNat / 2 := by omega
    rw [decide_eq_false (Nat.succ_ne_zero i), Bool.not_false, Bool.and_true, ← BitVec.testBit_toNat, ← BitVec.testBit_toNat,
      Nat.testBit_succ, Nat.testBit_succ, hhalf]

theorem exec_rdsr_of_le (h : sr ≤ 12) : exec (.rdsr rd sr) s = complete (s.writeX rd (s.sysReg sr)) := if_neg h.not_gt

theorem exec_rdsr_of_reserved (h : 12 < sr) : exec (.rdsr rd sr) s = raise s (illegalOperand 4 (wordOfNat sr)) := if_pos h

/-! ### WRSR (R262) -/

theorem exec_wrsr_of_reserved (h : 12 < sr) : exec (.wrsr ra sr) s = raise s (illegalOperand 4 (wordOfNat sr)) := if_pos h

theorem exec_wrsr_of_ctrl : exec (.wrsr ra 1) s = complete { s with ctrl := (s.readX ra).setWidth 2 } := rfl

theorem exec_wrsr_of_readOnly (h : sr ≤ 12) (hctrl : sr ≠ 1) :
    exec (.wrsr ra sr) s = raise s (illegalOperand 5 (wordOfNat sr)) := (if_neg h.not_gt).trans (if_pos hctrl)

/-! ### PUSHB (R265) -/

theorem exec_pushb_of_room (h : (s.buf b).len < bufCap b) :
    exec (.pushb ra b) s = complete (s.setBuf b
      ⟨(s.buf b).mem.write (s.buf b).len ((s.readX ra).setWidth 8), (s.buf b).len + 1⟩) := if_neg h.ne

theorem exec_pushb_of_full (h : (s.buf b).len = bufCap b) :
    exec (.pushb ra b) s = raise s (bufferBounds b (s.buf b).len (bufCap b)) := if_pos h

/-! ### LDB and STB (R263, R266, R267) -/

theorem exec_ldb_of_lt (h : bufIndex s ra off < (s.buf b).len) :
    exec (.ldb rd ra b off) s = complete (s.writeX rd (((s.buf b).mem.read (bufIndex s ra off)).setWidth 64)) :=
  if_neg h.not_ge

theorem exec_ldb_of_ge (h : (s.buf b).len ≤ bufIndex s ra off) :
    exec (.ldb rd ra b off) s = raise s (bufferBounds b (bufIndex s ra off) (s.buf b).len) := if_pos h

theorem exec_stb_of_ge (h : (s.buf b).len ≤ bufIndex s ra off) :
    exec (.stb ra rb b off) s = raise s (bufferBounds b (bufIndex s ra off) (s.buf b).len) := if_pos h

/-- BufferBounds reports an index that does not fit a word modulo 2^64 (60_exceptions.md R282). -/
theorem raise_bufferBounds_mod (s : State) (b : Buf) (i limit : Nat) :
    raise s (bufferBounds b i limit) =
      .next (failed s 10 (bufSub b) 63 0 (BitVec.ofNat 64 (i % 2 ^ 64)) (BitVec.ofNat 64 limit) 0) := by
  have hmod : BitVec.ofNat 64 (i % 2 ^ 64) = BitVec.ofNat 64 i := BitVec.eq_of_toNat_eq (Nat.mod_mod i _)
  rw [raise_bufferBounds, hmod]

/-- The low byte of a register, as the statements write it. -/
theorem setWidth_eight_eq (w : Word) : w.setWidth 8 = w.extractLsb' 0 8 := BitVec.setWidth_eq_extractLsb' (by decide)

/-- A command that writes one byte of a well-formed buffer, at its end or below, and completes changes no other byte. -/
theorem complete_write_givesBuffer {cap : Nat} (hwf : (s.buf b).wf cap = true) (i n : Nat) (w : Word) :
    ∃ t, complete (s.setBuf b ⟨(s.buf b).mem.write i (w.setWidth 8), n⟩) = .next t ∧
      GivesBuffer s t b n fun a => if a = i then w.extractLsb' 0 8 else (s.buf b).mem.read a := by
  obtain ⟨hmem, -, -⟩ := (Buffer.wf_iff _ _).1 hwf
  refine complete_setBuf_givesBuffer s b _ fun a => ?_
  rw [Memory.read_write _ _ _ _ hmem, setWidth_eight_eq]

end Sys2Proof.Machine
end

section
/-! SUPPORT. The statements on the system and the buffer commands. -/

namespace Sys2Proof.Proofs

open Sys2Proof Sys2Proof.Machine

/-- Settles O16: both complete, CLRERR after the acknowledgement. -/
theorem nopAndClrerr : Obligations.NopAndClrerr := fun _ => ⟨rfl, rfl⟩

/-- Settles O17: the model's two's complement is the one of BitVec. -/
theorem liWritesImmediate : Obligations.LiWritesImmediate := by
  intro rd simm s _ _
  rw [← wordOfInt_eq]
  exact complete_writeX_givesResult s rd (wordOfInt simm)

/-- Settles O18: the mantissa tested is the register's integer, and what fits 56 bits comes back from its DEC word. -/
theorem mkdecPacksDecimal : Obligations.MkdecPacksDecimal := by
  intro rd ra e s hlo hhi
  split_ifs with hfits
  · rw [exec_mkdec_of_fits hfits]
    exact ⟨complete_writeX_givesResult s rd _, decVal_decWord _ e hfits.1 (by omega) hlo hhi⟩
  · exact (exec_mkdec_of_too_wide hfits).trans (raise_illegalOperand s _ (by decide))

/-- Settles O19: a case per register; only STATUS is not read as it is stored. -/
theorem rdsrReadsSystemRegister : Obligations.RdsrReadsSystemRegister := by
  intro rd sr s
  split_ifs with hsr
  · rw [exec_rdsr_of_le hsr]
    interval_cases sr
    · rw [← statusRead_eq]
      exact complete_writeX_givesResult s rd _
    all_goals exact complete_writeX_givesResult s rd _
  · exact (exec_rdsr_of_reserved (not_le.1 hsr)).trans (raise_illegalOperand s _ (by decide))

/-- Settles O20: the refusals in the order of WRSR's tests. -/
theorem wrsrWritesOnlyCtrl : Obligations.WrsrWritesOnlyCtrl := by
  intro ra sr s
  split_ifs with hreserved hctrl
  · exact (exec_wrsr_of_reserved hreserved).trans (raise_illegalOperand s _ (by decide))
  · rw [hctrl, exec_wrsr_of_ctrl, BitVec.setWidth_eq_extractLsb' (by decide)]
    rfl
  · exact (exec_wrsr_of_readOnly (not_lt.1 hreserved) hctrl).trans (raise_illegalOperand s _ (by decide))

/-- Settles O21: the empty buffer lists no byte, so each reads 0. -/
theorem clrbEmptiesAndLenbReads : Obligations.ClrbEmptiesAndLenbReads := fun rd b s =>
  ⟨complete_setBuf_givesBuffer s b Buffer.empty fun _ => rfl, complete_writeX_givesResult s rd _⟩

/-- Settles O22: a well-formed buffer that is not below its capacity is at it, which is what PUSHB tests. -/
theorem pushbAppendsByte : Obligations.PushbAppendsByte := by
  intro ra b s hwf
  obtain ⟨-, hcap, -⟩ := (Buffer.wf_iff _ _).1 hwf
  split_ifs with hroom
  · rw [exec_pushb_of_room hroom]
    exact complete_write_givesBuffer hwf _ _ _
  · have hfull : (s.buf b).len = bufCap b := hcap.antisymm (not_lt.1 hroom)
    rw [exec_pushb_of_full hfull, raise_bufferBounds, hfull]

/-- Settles O23: the index is a natural number, cut to a word only where the raise reports it. -/
theorem ldbReadsByte : Obligations.LdbReadsByte := by
  intro rd ra b off s
  split_ifs with hlt
  · rw [exec_ldb_of_lt hlt]
    exact complete_writeX_givesResult s rd _
  · exact (exec_ldb_of_ge (not_lt.1 hlt)).trans (raise_bufferBounds_mod s b _ _)

/-- Settles O24: one write below the length, which stays. -/
theorem stbOverwritesByte : Obligations.StbOverwritesByte := by
  intro ra rb b off s hwf
  refine ⟨rfl, ?_⟩
  split_ifs with hlt
  · rw [exec_stb_of_lt rfl hlt]
    exact complete_write_givesBuffer hwf _ _ _
  · exact (exec_stb_of_ge (not_lt.1 hlt)).trans (raise_bufferBounds_mod s b _ _)

end Sys2Proof.Proofs
end

section
/-! SUPPORT. Which error kinds each command can raise (60_exceptions.md R281), said once for every command: it ends, and LAST is 0
or one of its kinds. -/

namespace Sys2Proof.Machine

variable {s : State} {ks : List (BitVec 4)} {bits : Nat} {scale : Word} {e : ErrData}

/-- The outcome is a next state, and its LAST is 0 or one of `ks`. -/
def EndsWithin (ks : List (BitVec 4)) (o : Outcome) : Prop := ∃ t, o = .next t ∧ (t.status.last = 0 ∨ t.status.last ∈ ks)

/-! ### The two ways a command ends (60_exceptions.md R284) -/

theorem EndsWithin.raise (h : errCode e.kind ∈ ks) : EndsWithin ks (raise s e) := ⟨_, rfl, .inr h⟩

theorem EndsWithin.complete : EndsWithin ks (complete s) := ⟨_, rfl, .inl rfl⟩

/-- A test between two ways to end. -/
theorem EndsWithin.ite {c : Prop} [Decidable c] {a b : Outcome} (ha : EndsWithin ks a) (hb : EndsWithin ks b) :
    EndsWithin ks (if c then a else b) := by
  split
  · exact ha
  · exact hb

/-! ### The commands whose tests are not one chain -/

/-- The domain tests of FIX and UNFIX raise IllegalOperand (40_numeric_codec.md R103, R105). -/
theorem fixDomainError_kind (h : fixDomainError bits scale = some e) : e.kind = .illegalOperand := by
  unfold fixDomainError at h
  split_ifs at h <;> rw [← Option.some.inj h] <;> rfl

theorem execFix_endsWithin (rd ra rb : Reg) (bits : Nat) (sg : Bool) (s : State) :
    EndsWithin [1, 9] (execFix rd ra rb bits sg s) := by
  unfold execFix
  split
  · next e he => exact .raise (fixDomainError_kind he ▸ .tail _ (.head _))
  · dsimp only
    split
    · exact .raise (.head _)
    · exact .complete

theorem execUnfix_endsWithin (rd ra rb : Reg) (bits : Nat) (sg : Bool) (s : State) :
    EndsWithin [9] (execUnfix rd ra rb bits sg s) := by
  unfold execUnfix
  split
  · next e he => exact .raise (fixDomainError_kind he ▸ .head _)
  · exact .complete

theorem execUnstuff_endsWithin (s : State) : EndsWithin [5, 10] (execUnstuff s) := by
  unfold execUnstuff
  split
  · exact .raise (.head _)
  · exact .ite (.raise (.head _)) (.ite (.raise (.tail _ (.head _))) .complete)

/-- ENCODE fails a check, or completes, or raises the RangeError of a field (43_table_codec.md R191, R196). -/
theorem exec_encode_endsWithin (v : Nat) (s : State) : EndsWithin [1, 4] (exec (.encode v) s) := by
  cases hcheck : encodeCheck v s.f with
  | some e =>
    rw [exec_encode_of_check hcheck]
    exact .raise (encodeCheck_kind hcheck ▸ .tail _ (.head _))
  | none =>
    cases hp : encDescs v s.f (fieldWords v (s.f.get 4).toNat) with
    | ok p =>
      rw [exec_encode_of_fit hcheck hp]
      exact .complete
    | error e =>
      rw [exec_encode_of_misfit hcheck hp]
      exact .raise (encDescs_error_kind hcheck hp ▸ .head _)

/-- DECODE fails a test, or the body names no sensor type, or it completes (43_table_codec.md R203). -/
theorem exec_decode_endsWithin (s : State) : EndsWithin [2, 4] (exec .decode s) := by
  by_cases hempty : s.tb.len = 0
  · rw [exec_decode_of_empty hempty]
    exact .raise (.head _)
  by_cases hversion : (s.tb.mem.read 0).toNat < 1 ∨ 5 < (s.tb.mem.read 0).toNat
  · rw [exec_decode_of_version hempty rfl hversion]
    exact .raise (.tail _ (.head _))
  by_cases hshort : s.tb.len < Config.bodyLen (s.tb.mem.read 0).toNat
  · rw [exec_decode_of_short hempty rfl hversion hshort]
    exact .raise (.head _)
  by_cases htype : 6 < codedSensorType (s.tb.mem.read 0).toNat s.tb.mem
  · rw [exec_decode_of_no_type rfl (by omega) (not_lt.1 hshort) rfl htype]
    exact .raise (.tail _ (.head _))
  · rw [exec_decode_of_type rfl (by omega) (not_lt.1 hshort) rfl (not_lt.1 htype)]
    exact .complete

/-! ### Every command -/

/-- Every command ends, in every state, with LAST 0 or one of its kinds (60_exceptions.md R281, R285). -/
theorem exec_endsWithin (i : Instr) (s : State) : EndsWithin (errorKinds i) (exec i s) := by
  cases i with
  | nop | clrerr | srst | li | clrb | lenb | f12dec | d16dec | s10 | qunpack | tdef => exact .complete
  | mkdec | rdsr | pushb | ldb | stb | stuff | crc8 | crc16 | tget | tset | wdinit =>
    exact .ite (.raise (.head _)) .complete
  | wrsr => exact .ite (.raise (.head _)) (.ite (.raise (.head _)) .complete)
  | fix rd ra rb bits sg => exact execFix_endsWithin rd ra rb bits sg s
  | unfix rd ra rb bits sg => exact execUnfix_endsWithin rd ra rb bits sg s
  | f12enc | d16enc | qpack =>
    simp only [exec, execF12enc, execD16enc, execQpack]
    split
    · exact .raise (.head _)
    · exact .complete
  | unstuff => exact execUnstuff_endsWithin s
  | frgen => exact .ite (.raise (.head _)) (.ite (.raise (.tail _ (.head _))) (.ite (.raise (.head _)) .complete))
  | frchk =>
    exact .ite (.raise (.head _)) (.ite (.raise (.tail _ (.tail _ (.head _))))
      (.ite (.raise (.head _)) (.ite (.raise (.tail _ (.head _))) .complete)))
  | encode v => exact exec_encode_endsWithin v s
  | decode => exact exec_decode_endsWithin s
  | wdsamp => exact .ite (.raise (.head _)) (.ite .complete .complete)
  | wdgetb => exact .ite .complete .complete

end Sys2Proof.Machine

namespace Sys2Proof.Proofs

open Sys2Proof Sys2Proof.Machine

/-- Settles O11: the state a command ends in is the one `exec_endsWithin` speaks of. -/
theorem commandsRaiseOnlyTheirKinds : Obligations.CommandsRaiseOnlyTheirKinds := by
  intro i s t h
  obtain ⟨u, hu, hlast⟩ := exec_endsWithin i s
  obtain rfl : t = u := Host.Outcome.next.inj (h.symm.trans hu)
  exact hlast

end Sys2Proof.Proofs
end

section
/-! SUPPORT. A command run from two states alike but for the error state (60_exceptions.md R285): a two-run lemma over every
command. -/

namespace Sys2Proof.Machine

variable {s u u' : State} {i : Instr}

/-! ### The error state put into another state -/

/-- `s` with ERR, LAST and the error registers of `d`. -/
def State.withErrors (s d : State) : State :=
  { s with
    status := { s.status with err := d.status.err, last := d.status.last }
    errc := d.errc, errinfo0 := d.errinfo0, errinfo1 := d.errinfo1, errinfo2 := d.errinfo2 }

theorem sameButErrors_iff {s' : State} : SameButErrors s s' ↔ ∃ d, s' = s.withErrors d := by
  constructor
  · exact fun h => ⟨s', h⟩
  · rintro ⟨d, rfl⟩
    rfl

@[simp] theorem State.readX_withErrors (s d : State) (r : Reg) : (s.withErrors d).readX r = s.readX r := rfl
@[simp] theorem State.buf_withErrors (s d : State) (b : Buf) : (s.withErrors d).buf b = s.buf b := by cases b <;> rfl
@[simp] theorem State.wd_withErrors (s d : State) : (s.withErrors d).wd = s.wd := rfl
@[simp] theorem State.wdini_withErrors (s d : State) : (s.withErrors d).status.wdini = s.status.wdini := rfl
@[simp] theorem State.wdrdy_withErrors (s d : State) : (s.withErrors d).status.wdrdy = s.status.wdrdy := rfl

/-- The system registers but STATUS, ERRC and ERRINFO0..2 read the same (10_state.md R26). -/
theorem State.sysReg_withErrors (s d : State) {sr : Nat} (h : sr ∉ [0, 2, 3, 4, 5]) :
    (s.withErrors d).sysReg sr = s.sysReg sr := by
  match sr with
  | 0 | 2 | 3 | 4 | 5 => exact absurd (by decide) h
  | 1 | 6 | 7 | 8 | 9 | 10 | 11 | 12 | _ + 13 => rfl

/-- A codec command sees nothing of it. -/
theorem sameView_withErrors (i : Instr) (s d : State) : SameView i s (s.withErrors d) where
  reg _ _ := rfl
  f := rfl
  buf := State.buf_withErrors s d

/-! ### Writes keep two states alike but for the error state -/

theorem sameButErrors_writeX (s d : State) (rd : Reg) (v : Word) :
    SameButErrors (s.writeX rd v) ((s.withErrors d).writeX rd v) := by
  unfold State.writeX
  split <;> rfl

theorem CodecWrite.sameButErrors {w : State → State} (hw : CodecWrite i w) (s d : State) :
    SameButErrors (w s) (w (s.withErrors d)) := by
  cases hw with
  | register rd v => exact sameButErrors_writeX s d rd v
  | buffer b v => cases b <;> rfl
  | table g => rfl

/-- The decoder's step works on the decoder's state alone, which is there in `s` already. -/
theorem addSample_eq_resultIn (s : State) (x : Sample) : addSample s x = resultIn s (addSample s x) :=
  addSample_withDecoder s s x

theorem addSample_withErrors (s d : State) (x : Sample) :
    addSample (s.withErrors d) x = resultIn (s.withErrors d) (addSample s x) := addSample_withDecoder (s.withErrors d) s x

theorem sameButErrors_resultIn (s d : State) (r : State × SampleResult) (rd : Reg) :
    SameButErrors ((resultIn s r).1.writeX rd (resultIn s r).2.word)
      ((resultIn (s.withErrors d) r).1.writeX rd (resultIn (s.withErrors d) r).2.word) :=
  sameButErrors_writeX (s.withDecoder r.1) d rd r.2.word

/-- A sample is taken the same, and with the same result, whatever the error state. -/
theorem sameButErrors_sampled (s d : State) (x : Sample) (rd : Reg) :
    SameButErrors ((addSample s x).1.writeX rd (addSample s x).2.word)
      ((addSample (s.withErrors d) x).1.writeX rd (addSample (s.withErrors d) x).2.word) := by
  have h := sameButErrors_resultIn s d (addSample s x) rd
  rwa [← addSample_eq_resultIn, ← addSample_withErrors] at h

/-! ### Two ends of a command -/

/-- Two outcomes are next states with one LAST, alike but for the error state. -/
def EndAlike (o o' : Outcome) : Prop :=
  ∃ t t', o = .next t ∧ o' = .next t' ∧ SameButErrors t t' ∧ t.status.last = t'.status.last

/-- A raise writes the whole error state, so it leaves the same whatever stood there. -/
theorem EndAlike.raise (s d : State) (e : ErrData) : EndAlike (raise s e) (raise (s.withErrors d) e) :=
  ⟨_, _, rfl, rfl, rfl, rfl⟩

theorem EndAlike.complete (h : SameButErrors u u') : EndAlike (complete u) (complete u') :=
  ⟨_, _, rfl, rfl, congrArg State.done h, rfl⟩

/-- Two runs that make the same test end alike when each branch does. -/
theorem EndAlike.ite {c : Prop} [Decidable c] {a a' b b' : Outcome} (ha : EndAlike a a') (hb : EndAlike b b') :
    EndAlike (if c then a else b) (if c then a' else b') := by
  split
  · exact ha
  · exact hb

/-- Two runs of a codec command that do the same end alike, as no command is refused. -/
theorem SameAnswer.endAlike {o o' : Outcome} {d : State} (h : SameAnswer i s (s.withErrors d) o o')
    (hend : ∃ t, o = .next t) : EndAlike o o' := by
  cases h with
  | raise e => exact .raise s d e
  | complete w hw => exact .complete (hw.sameButErrors s d)
  | refused r =>
    obtain ⟨t, ht⟩ := hend
    cases ht

theorem exec_codec_endAlike (hi : isCodec i = true) (s d : State) : EndAlike (exec i s) (exec i (s.withErrors d)) := by
  obtain ⟨t, ht, -⟩ := exec_endsWithin i s
  exact (exec_sameAnswer hi (sameView_withErrors i s d)).endAlike ⟨t, ht⟩

/-! ### Every command -/

/-- A command that does not read the error state ends alike whatever that state was. -/
theorem exec_endAlike (s d : State) (hreads : ∀ rd sr, i = .rdsr rd sr → sr ∉ [0, 2, 3, 4, 5]) :
    EndAlike (exec i s) (exec i (s.withErrors d)) := by
  cases i with
  | nop | clrerr | srst => exact .complete rfl
  | li rd simm => exact .complete (sameButErrors_writeX s d rd _)
  | mkdec rd ra e =>
    simp only [exec, execMkdec, State.readX_withErrors]
    exact .ite (.raise s d _) (.complete (sameButErrors_writeX s d rd _))
  | rdsr rd sr =>
    simp only [exec, execRdsr, State.sysReg_withErrors s d (hreads rd sr rfl)]
    exact .ite (.raise s d _) (.complete (sameButErrors_writeX s d rd _))
  | wrsr ra sr => exact .ite (.raise s d _) (.ite (.raise s d _) (.complete rfl))
  | wdinit ra rb =>
    simp only [exec, execWdinit, State.readX_withErrors]
    exact .ite (.raise s d _) (.complete rfl)
  | wdsamp rd ra rb =>
    simp only [exec, execWdsamp, State.readX_withErrors, State.wd_withErrors, State.wdini_withErrors]
    exact .ite (.raise s d _)
      (.ite (.complete (sameButErrors_writeX s d rd 0)) (.complete (sameButErrors_sampled s d _ rd)))
  | wdgetb rd =>
    simp only [exec, execWdgetb, State.wd_withErrors, State.wdrdy_withErrors]
    exact .ite (.complete (sameButErrors_writeX { s with status := { s.status with wdrdy := false } } d rd _))
      (.complete (sameButErrors_writeX s d rd _))
  | _ => exact exec_codec_endAlike rfl s d

end Sys2Proof.Machine

namespace Sys2Proof.Proofs

open Sys2Proof Sys2Proof.Machine

/-- Settles O12: the second run starts from the first one's state with another error state put in. -/
theorem errorsDoNotAlterLaterCommands : Obligations.ErrorsDoNotAlterLaterCommands := by
  intro i s s' hreads hsame
  obtain ⟨d, rfl⟩ := sameButErrors_iff.1 hsame
  exact exec_endAlike s d hreads

end Sys2Proof.Proofs
end

section
/-! SUPPORT. One step of the machine (70_reset_and_hazards.md R326 to R329): a command ends and leaves the host's side alone, and a
step takes the host's next move. -/

namespace Sys2Proof.Machine

variable {s t u : State} {i : Instr}

/-! ### The host's side (log entries 1, 3, 4) -/

/-- The moves to come and what the host has seen are in `t` those of `s`. -/
def SameHostSide (s t : State) : Prop := t.moves = s.moves ∧ t.seen = s.seen

theorem sameHostSide_addSample (s : State) (x : Sample) : SameHostSide s (addSample s x).1 := by
  rw [addSample_eq]
  exact ⟨rfl, rfl⟩

/-- What a command writes before LAST is none of the host's side; the reset of SRST leaves it too (log entry 4). -/
theorem Writes.sameHostSide (h : Writes s i u) : SameHostSide s u := by
  cases h with
  | register | takeByte | buffer => simp [SameHostSide]
  | ctrl | table | ack | reset | configuration => exact ⟨rfl, rfl⟩
  | sample => simpa [SameHostSide] using sameHostSide_addSample s _

theorem exec_sameHostSide (h : exec i s = .next t) : SameHostSide s t := by
  obtain ⟨e, rfl⟩ | ⟨u, hu, rfl⟩ := exec_answers h
  · exact ⟨rfl, rfl⟩
  · exact hu.sameHostSide

/-- The issue of a word runs a command or raises IllegalCommand: neither is a move of the host's or shows it anything. -/
theorem issue_sameHostSide {w : Word32} (h : issue w s = .next t) : SameHostSide s t := by
  unfold issue at h
  split at h
  · exact exec_sameHostSide h
  · rw [(raise_eq_next _ _ _).1 h]
    exact ⟨rfl, rfl⟩

/-! ### Taking a move (70_reset_and_hazards.md R328, R329) -/

theorem step_of_no_moves (h : s.moves = []) : step s = .next s := by rw [step, h]

theorem step_of_move {m : HostMove} {rest : List HostMove} (h : s.moves = m :: rest) :
    step s = hostMove m { s with moves := rest } := by
  rw [step, h]

theorem writesRegister_writeX (s : State) (r : Reg) (v : Word) : WritesRegister s (s.writeX r v) r v :=
  fun q => State.readX_writeX s r q v

end Sys2Proof.Machine

namespace Sys2Proof.Proofs

open Sys2Proof Sys2Proof.Machine

/-- Settles O8: `exec_endsWithin`, which says besides what the command leaves in LAST. ENCODE and DECODE, the only commands with a
refusal in their text, do not reach it, for the walk of each list of the LAYOUT meets that list's END (log entry 7). -/
theorem everyCommandEnds : Obligations.EveryCommandEnds := by
  intro i s
  obtain ⟨t, ht, _⟩ := exec_endsWithin i s
  exact ⟨t, ht⟩

/-- Settles O6: a case per move of the host; each leaves the rest of the moves to come, and only the two reads add to `seen`. -/
theorem stepTakesOneMove : Obligations.StepTakesOneMove := by
  intro s t h
  cases hmoves : s.moves with
  | nil => exact (Host.Outcome.next.inj ((step_of_no_moves hmoves).symm.trans h)).symm
  | cons m rest =>
    rw [step_of_move hmoves] at h
    cases m with
    | reset =>
      cases h
      exact ⟨rfl, rfl⟩
    | writeX i v =>
      cases h
      exact ⟨writesRegister_writeX { s with moves := rest } i v, State.writeX_eq { s with moves := rest } i v⟩
    | readX i =>
      cases h
      rfl
    | issue w => exact issue_sameHostSide h
    | readStatus =>
      cases h
      rfl

end Sys2Proof.Proofs
end
